-- ==== Sys2Proof/Word.lean ====
section
/-! DEFINITION. The word types of PNGCORE (00_scope.md R7): a byte is an unsigned 8-bit value, a word an unsigned
32-bit value. -/

namespace Sys2Proof

/-- A byte, 0..255 (R7). -/
abbrev Byte := BitVec 8

/-- A register, command or request word, 32 bits (R7, R33, R140). -/
abbrev Word := BitVec 32

end Sys2Proof
end

