-- ==== Sys2Proof/Syntax.lean ====
section
/-! DEFINITION. The instructions of PNGCORE: one constructor per row of spec/opcode_table.json (30_encoding.md R141,
R148), fourteen command words and the ADP request. -/

namespace Sys2Proof

/-- The session mode, `SESSION_RESET`'s operand and STATUS.MODE (R36, R141). -/
inductive Mode where
  /-- 0: a decode session. -/
  | decode
  /-- 1: an encode session. -/
  | encode
  deriving DecidableEq, Repr

/-- An instruction with its operands (R141, R143, R144). -/
inductive Instr where
  /-- `NOP` (R340). -/
  | nop
  /-- `SESSION_RESET m`, m = ARG[0] (R341). -/
  | sessionReset (m : Mode)
  /-- `CRC_INIT` (R186). -/
  | crcInit
  /-- `CRC_BYTE b`, b = ARG[7:0] (R187). -/
  | crcByte (b : Byte)
  /-- `FR_SIG` (R220). -/
  | frSig
  /-- `FR_STEP` (R221). -/
  | frStep
  /-- `FR_OPEN` (R222). -/
  | frOpen
  /-- `FR_CLOSE` (R224). -/
  | frClose
  /-- `FW_SIG` (R270). -/
  | fwSig
  /-- `FW_IHDR` (R271). -/
  | fwIhdr
  /-- `FW_FLUSH` (R273). -/
  | fwFlush
  /-- `FW_IEND` (R274). -/
  | fwIend
  /-- `FE_RECON` (R310). -/
  | feRecon
  /-- `FE_APPLY f`, f = ARG[2:0], legal for 0..4 (R311). -/
  | feApply (f : BitVec 3)
  /-- `ADP_READ N`, the request word on the ADP port (R143, R230). -/
  | adpRead (n : Word)
  deriving DecidableEq, Repr

end Sys2Proof
end

