-- ==== Sys2Proof/WellFormed.lean ====
section
/-! DEFINITION. The checks on an instruction's operands that their types do not already make. -/

namespace Sys2Proof

/-- `FE_APPLY`'s operand must be 0..4; 5, 6 and 7 are illegal (R141, R144, R145). Every other operand is legal at every
value of its type: `m` and `b` (R144), `N` (R143: "Every 32-bit value of `N` is legal"). -/
def Instr.wellFormed : Instr → Bool
  | .nop => true
  | .sessionReset _ => true
  | .crcInit => true
  | .crcByte _ => true
  | .frSig => true
  | .frStep => true
  | .frOpen => true
  | .frClose => true
  | .fwSig => true
  | .fwIhdr => true
  | .fwFlush => true
  | .fwIend => true
  | .feRecon => true
  | .feApply f => decide (f.toNat ≤ 4)
  | .adpRead _ => true

end Sys2Proof
end

