-- ==== Sys2Proof/Decode.lean ====
section
/-! DEFINITION. The command and request encodings of 30_encoding.md: the decoder, total on every word of either port
and rejecting by name, and the encoder written from the same tables. -/

namespace Sys2Proof

/-- Why a command word is illegal (R145). -/
inductive Reject where
  /-- Its opcode is not in the table of R141. -/
  | unknownOpcode (opc : BitVec 8)
  /-- A reserved ARG bit of a listed opcode is 1. -/
  | reservedBits (opc : BitVec 8) (bits : BitVec 24)
  /-- `FE_APPLY` with f = 5, 6 or 7. -/
  | illegalFilter (f : BitVec 3)
  deriving DecidableEq, Repr

/-- What the decoder answers: the instruction, or the reason there is none. -/
inductive Decoded where
  | instr (i : Instr)
  | reject (why : Reject)
  deriving DecidableEq, Repr

/-- The port a word stands on: format CMD or format ADP (R140). -/
inductive Port where
  | cmd
  | adp
  deriving DecidableEq, Repr

/-- Who executes an instruction (R142): SYS in the CMD write step itself, FE the FE group, FR every other command and
the ADP request (R230). -/
inductive Target where
  | sys
  | fr
  | fe
  deriving DecidableEq, Repr

/-- OPC = w[31:24] (R140). -/
def opcOf (w : Word) : BitVec 8 := w.extractLsb' 24 8

/-- ARG = w[23:0] (R140). -/
def argOf (w : Word) : BitVec 24 := w.extractLsb' 0 24

/-- `RESERVED_MASK(opc)`: the reserved ARG bits of each listed opcode, none for an opcode that is not listed (R141). -/
def reservedMask (opc : BitVec 8) : Option (BitVec 24) :=
  if opc = 0x00 then some 0xFFFFFF
  else if opc = 0x01 then some 0xFFFFFE
  else if opc = 0x10 then some 0xFFFFFF
  else if opc = 0x11 then some 0xFFFF00
  else if opc = 0x20 then some 0xFFFFFF
  else if opc = 0x21 then some 0xFFFFFF
  else if opc = 0x22 then some 0xFFFFFF
  else if opc = 0x23 then some 0xFFFFFF
  else if opc = 0x30 then some 0xFFFFFF
  else if opc = 0x31 then some 0xFFFFFF
  else if opc = 0x32 then some 0xFFFFFF
  else if opc = 0x33 then some 0xFFFFFF
  else if opc = 0x40 then some 0xFFFFFF
  else if opc = 0x41 then some 0xFFFFF8
  else none

/-- `m` = ARG[0]: 0 = decode, 1 = encode (R144). -/
def modeOperand (arg : BitVec 24) : Mode := if arg.getLsbD 0 then .encode else .decode

/-- `b` = ARG[7:0] (R144). -/
def byteOperand (arg : BitVec 24) : Byte := arg.extractLsb' 0 8

/-- `f` = ARG[2:0] (R144). -/
def filterOperand (arg : BitVec 24) : BitVec 3 := arg.extractLsb' 0 3

/-- The command of a listed opcode, its reserved bits being 0 (R141, R142, R148). -/
def decodeListed (opc : BitVec 8) (arg : BitVec 24) : Decoded :=
  if opc = 0x00 then .instr .nop
  else if opc = 0x01 then .instr (.sessionReset (modeOperand arg))
  else if opc = 0x10 then .instr .crcInit
  else if opc = 0x11 then .instr (.crcByte (byteOperand arg))
  else if opc = 0x20 then .instr .frSig
  else if opc = 0x21 then .instr .frStep
  else if opc = 0x22 then .instr .frOpen
  else if opc = 0x23 then .instr .frClose
  else if opc = 0x30 then .instr .fwSig
  else if opc = 0x31 then .instr .fwIhdr
  else if opc = 0x32 then .instr .fwFlush
  else if opc = 0x33 then .instr .fwIend
  else if opc = 0x40 then .instr .feRecon
  else if opc = 0x41 then
    if (filterOperand arg).toNat ≤ 4 then .instr (.feApply (filterOperand arg))
    else .reject (.illegalFilter (filterOperand arg))
  else .reject (.unknownOpcode opc)

/-- The decode of a word written to CMD, the checks in the order of R142. -/
def decodeCmd (w : Word) : Decoded :=
  match reservedMask (opcOf w) with
  | none => .reject (.unknownOpcode (opcOf w))
  | some mask =>
    if argOf w &&& mask = 0 then decodeListed (opcOf w) (argOf w)
    else .reject (.reservedBits (opcOf w) (argOf w &&& mask))

/-- The decode of a word on either port; every ADP word is a request (R143, R148). -/
def decode (p : Port) (w : Word) : Decoded :=
  match p with
  | .cmd => decodeCmd w
  | .adp => .instr (.adpRead w)

/-- The port an instruction's word stands on (R140). -/
def Instr.port : Instr → Port
  | .adpRead _ => .adp
  | _ => .cmd

/-- The opcode of a command (R141); the ADP request has no opcode, and 0xAD is the number its errors name (R230). -/
def Instr.opcode : Instr → BitVec 8
  | .nop => 0x00
  | .sessionReset _ => 0x01
  | .crcInit => 0x10
  | .crcByte _ => 0x11
  | .frSig => 0x20
  | .frStep => 0x21
  | .frOpen => 0x22
  | .frClose => 0x23
  | .fwSig => 0x30
  | .fwIhdr => 0x31
  | .fwFlush => 0x32
  | .fwIend => 0x33
  | .feRecon => 0x40
  | .feApply _ => 0x41
  | .adpRead _ => 0xAD

/-- Who executes an instruction: opc[7:4] = 0 is SYS, 4 is FE, every other group FR (R142); FR serves the ADP port. -/
def Instr.target (i : Instr) : Target :=
  let grp : BitVec 4 := i.opcode.extractLsb' 4 4
  if i.port = .adp then .fr else if grp = 0 then .sys else if grp = 4 then .fe else .fr

/-- The ARG field of a command, reserved bits 0 (R141). -/
def Instr.arg : Instr → BitVec 24
  | .sessionReset .decode => 0
  | .sessionReset .encode => 1
  | .crcByte b => b.setWidth 24
  | .feApply f => f.setWidth 24
  | _ => 0

/-- The word of an instruction on its port: {OPC, ARG} on CMD, N on ADP (R140). -/
def encode (i : Instr) : Word :=
  match i with
  | .adpRead n => n
  | .nop => Instr.nop.opcode ++ Instr.nop.arg
  | .sessionReset m => (Instr.sessionReset m).opcode ++ (Instr.sessionReset m).arg
  | .crcInit => Instr.crcInit.opcode ++ Instr.crcInit.arg
  | .crcByte b => (Instr.crcByte b).opcode ++ (Instr.crcByte b).arg
  | .frSig => Instr.frSig.opcode ++ Instr.frSig.arg
  | .frStep => Instr.frStep.opcode ++ Instr.frStep.arg
  | .frOpen => Instr.frOpen.opcode ++ Instr.frOpen.arg
  | .frClose => Instr.frClose.opcode ++ Instr.frClose.arg
  | .fwSig => Instr.fwSig.opcode ++ Instr.fwSig.arg
  | .fwIhdr => Instr.fwIhdr.opcode ++ Instr.fwIhdr.arg
  | .fwFlush => Instr.fwFlush.opcode ++ Instr.fwFlush.arg
  | .fwIend => Instr.fwIend.opcode ++ Instr.fwIend.arg
  | .feRecon => Instr.feRecon.opcode ++ Instr.feRecon.arg
  | .feApply f => (Instr.feApply f).opcode ++ (Instr.feApply f).arg

/-- One row of the opcode map of R148: a word `w` of its port selects the row when `(w and mask) = match`. -/
structure OpcodeRow where
  mnemonic : String
  port : Port
  base : Word
  mask : Word
  deriving DecidableEq, Repr

/-- The opcode map of R148, in the table's order. -/
def opcodeRows : List OpcodeRow :=
  [ ⟨"NOP", .cmd, 0x00000000, 0xFFFFFFFF⟩,
    ⟨"SESSION_RESET", .cmd, 0x01000000, 0xFFFFFFFE⟩,
    ⟨"CRC_INIT", .cmd, 0x10000000, 0xFFFFFFFF⟩,
    ⟨"CRC_BYTE", .cmd, 0x11000000, 0xFFFFFF00⟩,
    ⟨"FR_SIG", .cmd, 0x20000000, 0xFFFFFFFF⟩,
    ⟨"FR_STEP", .cmd, 0x21000000, 0xFFFFFFFF⟩,
    ⟨"FR_OPEN", .cmd, 0x22000000, 0xFFFFFFFF⟩,
    ⟨"FR_CLOSE", .cmd, 0x23000000, 0xFFFFFFFF⟩,
    ⟨"FW_SIG", .cmd, 0x30000000, 0xFFFFFFFF⟩,
    ⟨"FW_IHDR", .cmd, 0x31000000, 0xFFFFFFFF⟩,
    ⟨"FW_FLUSH", .cmd, 0x32000000, 0xFFFFFFFF⟩,
    ⟨"FW_IEND", .cmd, 0x33000000, 0xFFFFFFFF⟩,
    ⟨"FE_RECON", .cmd, 0x40000000, 0xFFFFFFFF⟩,
    ⟨"FE_APPLY", .cmd, 0x41000000, 0xFFFFFFF8⟩,
    ⟨"ADP_READ", .adp, 0x00000000, 0x00000000⟩ ]

/-- The mnemonic of an instruction (R148). -/
def Instr.mnemonic : Instr → String
  | .nop => "NOP"
  | .sessionReset _ => "SESSION_RESET"
  | .crcInit => "CRC_INIT"
  | .crcByte _ => "CRC_BYTE"
  | .frSig => "FR_SIG"
  | .frStep => "FR_STEP"
  | .frOpen => "FR_OPEN"
  | .frClose => "FR_CLOSE"
  | .fwSig => "FW_SIG"
  | .fwIhdr => "FW_IHDR"
  | .fwFlush => "FW_FLUSH"
  | .fwIend => "FW_IEND"
  | .feRecon => "FE_RECON"
  | .feApply _ => "FE_APPLY"
  | .adpRead _ => "ADP_READ"

/-- The row of R148 that a word of a port selects, by mask and match alone (`FE_APPLY`'s extra constraint apart). -/
def selectsRow (p : Port) (w : Word) (r : OpcodeRow) : Bool := r.port = p && w &&& r.mask = r.base

/-- The port a table row of `nbits` bits is read on: the CMD rows have 32 bits; a row the table gives no bits is the ADP
request, whose word is then 0. log 2 -/
def tablePort (nbits : Nat) : Port := if nbits = 0 then .adp else .cmd

/-- The instruction the decoder reads from the table row word `w` of `nbits` bits. -/
def decodeTableWord (nbits w : Nat) : Option Instr :=
  match decode (tablePort nbits) (BitVec.ofNat 32 (w % 2 ^ nbits)) with
  | .instr i => some i
  | .reject _ => none

end Sys2Proof
end

