-- ==== Sys2Proof/Config.lean ====
section
/-! DEFINITION. What an implementation fixes (00_scope.md R6) and the values the spec leaves free
(93_implementation_defined.md). A free value is a constant without a body: no proof can see what it is. -/

namespace Sys2Proof.Config

/-- `INT_BITS`, the width of the signed range of the dimension-overflow check (R6, decision D11). log 8 -/
def intBits : Nat := 64

/-- `MAX_SEG`, the capacity of the encode segment buffer (R6, decision D27). log 8 -/
def maxSeg : Nat := 65536

/-- The reset value of IDAT_MAX (R6, R49). -/
def idatMaxReset : Word := 32768

/-- The constant that ID reads (R34). -/
def idValue : Word := 0x504E4743

/-- The constant that VERSION reads (R34). -/
def versionValue : Word := 0x00010000

/-- The one parameter the spec leaves OPEN and that a rule depends on: `MAX_WIDTH`, 1 ≤ MAX_WIDTH ≤ 2^31-1 (R6, D13).
It stands in `State.params`, so that a statement about every state holds for every value. log 7 -/
structure Params where
  maxWidth : Nat
  deriving DecidableEq, Repr

/-- The range R6 gives MAX_WIDTH. -/
abbrev Params.legal (p : Params) : Prop := 1 ≤ p.maxWidth ∧ p.maxWidth ≤ 2 ^ 31 - 1

/-- `ROWBUF_BYTES` = 1 + 4·MAX_WIDTH, the capacity of each row-buffer bank (R6, R62). -/
def Params.rowbufBytes (p : Params) : Nat := 1 + 4 * p.maxWidth

/-- MAX_WIDTH at its default, 2^31-1 (R6). -/
def defaultParams : Params := { maxWidth := 2 ^ 31 - 1 }

/-- FREE VALUE (U1): what byte `i` of bank `bank` holds after power-on reset number `epoch`, until something writes
it. log 4 -/
opaque powerOnRowByte (epoch : Nat) (bank : Bool) (i : Nat) : Byte

/-- FREE VALUE (U2): what draw number `n` gives, for a row-buffer read while FE is busy. log 5 -/
opaque busyRowByte (n : Nat) : Byte

/-- FREE VALUE: the detail word of NotEnoughPixelData when the count `k` of row bytes read does not fit a word
(k ≥ 2^32): the spec states no result there. log 6 -/
opaque overlongCount (k : Nat) : Word

end Sys2Proof.Config
end

