-- ==== Sys2Proof/Machine/State.lean ====
section
/-! DEFINITION. The state of PNGCORE as plain data (10_state.md), the reasons a step can stop, and the state after
power-on reset (R64, R440). -/

namespace Sys2Proof.Machine

/-! ### Named values -/

/-- The reason of a recorded error: one constructor per row of R402. -/
inductive Reason where
  | notPng
  | chunkOrder
  | checksumMismatch
  | badChunkLength
  | badIhdrLength
  | nonPositiveDimension
  | notEnoughPixelData
  | badFilterType
  | badIendLength
  | notIend
  | compressionMethod
  | filterMethod
  | dimensionOverflow
  | depthType
  | idatLengthOverflow
  | interlace
  | rowTooWide
  | unexpectedEOS
  | illegalCommand
  | badState
  | agentBusy
  | busyWrite
  deriving DecidableEq, Repr

/-- DSTAGE, the decode stage (R39). -/
inductive DStage where
  | start
  | seenHeader
  | seenData
  | seenEnd
  deriving DecidableEq, Repr

/-- ESTAGE, the encode stage (R39). -/
inductive EStage where
  | start
  | sig
  | header
  | flushed
  | ended
  deriving DecidableEq, Repr

/-- A row-buffer view: CUR is bank BUF_SEL, PREV the other one (R57, R111). -/
inductive View where
  | cur
  | prev
  deriving DecidableEq, Repr

/-- A register the host can address (R33). -/
inductive Reg where
  | id
  | version
  | cmd
  | status
  | err
  | errInfo
  | stage
  | crcValue
  | crcState
  | chunkLen
  | chunkTag
  | idatRemain
  | width
  | height
  | hdrFmt
  | hdrIl
  | rowSizeLo
  | rowSizeHi
  | rowY
  | bufSel
  | frResult
  | feResult
  | idatMax
  | level
  | segFill
  | segMax
  | idatCount
  | irqEn
  deriving DecidableEq, Repr

/-! ### Storage -/

/-- One row-buffer bank (R57, R62). Accepting a header fills a first part of a bank with 0, which may be gigabytes long:
`zeroed` is how far that part reaches, and `cells` lists the bytes that differ from what an unlisted byte holds, at
strictly rising indices. log 4 -/
structure Bank where
  zeroed : Nat
  cells : List Host.Cell
  deriving DecidableEq, Repr

/-- The row-buffer space: RB[0] and RB[1] (R57), and the number of the power-on reset whose unspecified bytes they hold
(U1, log 4). -/
structure Memory where
  bank0 : Bank
  bank1 : Bank
  epoch : Nat
  deriving DecidableEq, Repr

/-- A stream port: a FIFO of bytes, the oldest first, and its end-of-stream bit (R58). -/
structure Fifo where
  q : List Byte
  eos : Bool
  deriving DecidableEq, Repr

/-! ### In-progress records (R60) -/

/-- What FR does with the bytes of the `ReadIn` it is in: the point of the pseudocode where it is. `inOpen` says that the
body runs inside FR_OPEN (R222), and not as FR_SIG or FR_STEP. -/
inductive FrPoint where
  /-- `ReadIn(8)` of the signature (R220). -/
  | sig (inOpen : Bool)
  /-- `ReadIn(8)` of ReadChunkHeader (R201) in FR_STEP's body (R221). -/
  | header (inOpen : Bool)
  /-- `ReadIn(13)` of ParseIHDR (R204). -/
  | ihdr (inOpen : Bool)
  /-- `ReadIn(4)` of ParseIHDR's VerifyChecksum (R204, R202). -/
  | ihdrCrc (inOpen : Bool)
  /-- `ReadIn(1)` of SkipChunk, `left` payload bytes still to come after this one (R203). -/
  | skip (inOpen : Bool) (left : Nat)
  /-- `ReadIn(4)` of SkipChunk's VerifyChecksum (R203, R202). -/
  | skipCrc (inOpen : Bool)
  /-- `ReadIn(4)` of FR_CLOSE's first VerifyChecksum, the last data chunk's CRC (R224). -/
  | closeDataCrc
  /-- `ReadIn(8)` of FR_CLOSE's ReadChunkHeader (R224). -/
  | closeHeader
  /-- `ReadIn(4)` of FR_CLOSE's second VerifyChecksum, the terminal chunk's CRC (R224). -/
  | closeIendCrc
  /-- `ReadIn(4)` of VerifyChecksum while serving ADP request `n` (R230). -/
  | adpCrc (n : Word)
  /-- `ReadIn(8)` of the next chunk header while serving ADP request `n` (R230). -/
  | adpHeader (n : Word)
  /-- `ReadIn(m)` of the payload bytes while serving ADP request `n` (R230). -/
  | adpData (n : Word)
  deriving DecidableEq, Repr

/-- FR's in-progress record (R60, R63). -/
inductive FrActivity where
  | idle
  /-- A command accepted, or an ADP request taken up, that has not taken its first step (R142, R401). -/
  | accepted (i : Instr)
  /-- Holding in a `ReadIn` with `need` bytes still to come, `got` taken so far, in stream order (R102). -/
  | reading (need : Nat) (got : List Byte) (p : FrPoint)
  /-- Holding in FW_FLUSH's TakeCz (R273). -/
  | flushing
  deriving DecidableEq, Repr

/-- FE's in-progress record (R60, R63). -/
inductive FeActivity where
  | idle
  /-- A command accepted that has not taken its first step (R142, R401). -/
  | accepted (i : Instr)
  /-- Holding in FE_RECON's ReadZinByte with `k` bytes of a row of `n` bytes read; `n` is ROW_SIZE, read at the start of
  the command (R310, R122). -/
  | row (n k : Nat)
  deriving DecidableEq, Repr

/-! ### Inputs and outputs -/

/-- One atomic step of an agent (R120, R104, R110, R111), or a power-on reset (R440). -/
inductive Event where
  /-- HOST reads the register at word index `idx` (R110). -/
  | regRead (idx : BitVec 10)
  /-- HOST writes `w` to the register at word index `idx` (R110); index 2 is CMD (R35). -/
  | regWrite (idx : BitVec 10) (w : Word)
  /-- HOST reads a row-buffer byte (R111). -/
  | rowRead (v : View) (i : BitVec 34)
  /-- HOST writes a row-buffer byte (R111). -/
  | rowWrite (v : View) (i : BitVec 34) (b : Byte)
  /-- HOST PushIn (R104). -/
  | pushIn (b : Byte)
  /-- HOST EndIn (R104). -/
  | endIn
  /-- HOST TakeOut (R104). -/
  | takeOut
  /-- INF PushZin (R104). -/
  | pushZin (b : Byte)
  /-- INF EndZin (R104). -/
  | endZin
  /-- INF Request (R104). -/
  | request (n : Word)
  /-- DEF TakeZout (R104). -/
  | takeZout
  /-- DEF PushCz (R104). -/
  | pushCz (b : Byte)
  /-- DEF EndCz (R104). -/
  | endCz
  /-- FR runs the next segment of its command or ADP service (R120). -/
  | frRun
  /-- FR, idle, takes up the pending ADP request (R230). -/
  | frServe
  /-- FR, idle, takes one segmenter step (R272). -/
  | frSegment
  /-- FE runs the next segment of its command (R120). -/
  | feRun
  /-- Power-on reset (R440). -/
  | powerOn
  deriving DecidableEq, Repr

/-- What PNGCORE returns or signals to an agent outside it. log 3 -/
inductive Output where
  /-- The value of a register read (R110). -/
  | regValue (idx : BitVec 10) (w : Word)
  /-- The value of a row-buffer read (R111). -/
  | rowValue (v : View) (i : BitVec 34) (b : Byte)
  /-- The byte HOST took from OUT (R104). -/
  | outByte (b : Byte)
  /-- The byte DEF took from ZOUT (R104). -/
  | zoutByte (b : Byte)
  /-- The response to INF's ADP request (R59, R143). -/
  | adpResponse (bytes : List Byte) (ok : Bool)
  /-- The event INF_CLOSE (R413). -/
  | infClose
  /-- The event DEF_CLOSE (R413). -/
  | defClose
  deriving DecidableEq, Repr

/-! ### The state -/

/-- Every piece of state of R64, and after it the model's own fields. -/
structure State where
  /-- STATUS.MODE (R36). -/
  mode : Mode
  /-- STATUS.SIG_OK (R55). -/
  sigOk : Bool
  /-- STATUS.EOR (R36). -/
  eor : Bool
  /-- The error record ERR, by its reason; none is KIND 0 (R37, R402). -/
  err : Option Reason
  /-- ERR_INFO (R38). -/
  errInfo : Word
  /-- DSTAGE (R39). -/
  dstage : DStage
  /-- ESTAGE (R39). -/
  estage : EStage
  /-- The CRC register `R` (R40). -/
  crc : Word
  /-- CHUNK_LEN (R41). -/
  chunkLen : Word
  /-- CHUNK_TAG (R41). -/
  chunkTag : Word
  /-- IDAT_REMAIN (R41). -/
  idatRemain : Word
  /-- WIDTH (R42). -/
  width : Word
  /-- HEIGHT (R42). -/
  height : Word
  /-- HDR_FMT (R43). -/
  hdrFmt : Word
  /-- HDR_IL (R43). -/
  hdrIl : Word
  /-- ROW_SIZE, 64 bits (R44). -/
  rowSize : BitVec 64
  /-- ROW_Y (R45). -/
  rowY : Word
  /-- BUF_SEL[0]: the index of the bank that is CUR (R46). -/
  bufSel : Bool
  /-- FR_RESULT (R47). -/
  frResult : Word
  /-- FE_RESULT (R48). -/
  feResult : Word
  /-- IDAT_MAX (R49). -/
  idatMax : Word
  /-- LEVEL[1:0] (R50). -/
  level : BitVec 2
  /-- The segment buffer SEG (R51). -/
  seg : List Byte
  /-- SEG_MAX (R51). -/
  segMax : Word
  /-- IDAT_COUNT (R52). -/
  idatCount : Word
  /-- IRQ_EN[2:0] (R53). -/
  irqEn : BitVec 3
  /-- The stream IN (R58). -/
  inp : Fifo
  /-- The stream OUT (R58). -/
  out : Fifo
  /-- The stream ZIN (R58). -/
  zin : Fifo
  /-- The stream ZOUT (R58). -/
  zout : Fifo
  /-- The stream CZ (R58). -/
  cz : Fifo
  /-- The pending ADP request (R59). -/
  adp : Option Word
  /-- FR's in-progress record (R60). -/
  fr : FrActivity
  /-- FE's in-progress record (R60). -/
  fe : FeActivity
  /-- The row-buffer banks (R57). -/
  mem : Memory
  /-- MODEL FIELD: the implementation parameter MAX_WIDTH (R6); no step writes it. log 7 -/
  params : Config.Params
  /-- MODEL FIELD: how many free values were drawn for row reads while FE is busy (U2). log 5 -/
  draws : Nat
  /-- MODEL FIELD: what was returned or signalled to the outside, oldest first. log 3 -/
  outputs : List Output
  /-- MODEL FIELD: the agents' steps still to come (U6). log 1 -/
  sched : List Event
  deriving DecidableEq, Repr

/-- No step of PNGCORE stops with a fault: every error of the spec is recorded in ERR and the machine goes on (R401,
R403). Nothing raises one, which is safe: no behaviour is cut off. -/
inductive Fault where
  deriving DecidableEq, Repr

/-- The reasons a step has no meaning. -/
inductive Refusal where
  /-- Raised only by an arm of `exec` whose instruction has no meaning yet; no arm does. Safe: the machine stops. -/
  | notModelled (mnemonic : String)
  deriving DecidableEq, Repr

/-- A stream right after reset: empty, eos = 0 (R64). -/
def Fifo.empty : Fifo := { q := [], eos := false }

/-- A bank right after power-on: nothing zeroed, nothing written, so every byte is the free value of its place (R64,
U1). -/
def Bank.unspecified : Bank := { zeroed := 0, cells := [] }

/-- The machine right after power-on reset (R64, R440): every value is the table's; the model's own fields are at the
values their log rows name. -/
def State.reset : State where
  mode := .decode
  sigOk := false
  eor := false
  err := none
  errInfo := 0
  dstage := .start
  estage := .start
  crc := 0xFFFFFFFF
  chunkLen := 0
  chunkTag := 0
  idatRemain := 0
  width := 0
  height := 0
  hdrFmt := 0
  hdrIl := 0
  rowSize := 0
  rowY := 0
  bufSel := false
  frResult := 0
  feResult := 0
  idatMax := Config.idatMaxReset
  level := 0
  seg := []
  segMax := 0
  idatCount := 0
  irqEn := 0
  inp := Fifo.empty
  out := Fifo.empty
  zin := Fifo.empty
  zout := Fifo.empty
  cz := Fifo.empty
  adp := none
  fr := .idle
  fe := .idle
  mem := { bank0 := Bank.unspecified, bank1 := Bank.unspecified, epoch := 0 }
  params := Config.defaultParams
  draws := 0
  outputs := []
  sched := []

end Sys2Proof.Machine
end

