-- ==== Sys2Proof/Machine/Operands.lean ====
section
/-! DEFINITION. The byte orders, constants and predicates the commands' pseudocode names, and how it reads its operands:
BE32 (00_scope.md R9), the container constants (41_framer_decode.md R200), the dimension checks (R204, R205), the
filter tags (43_filter.md R300). -/

namespace Sys2Proof.Machine

/-- `BE32(b0, b1, b2, b3)`, the first byte most significant (R9). -/
def be32 (b0 b1 b2 b3 : Byte) : Word := b0 ++ b1 ++ b2 ++ b3

/-- `x[i]` of a byte sequence (R10); the pseudocode only uses indices below the length. -/
def byteAt (d : List Byte) (i : Nat) : Byte := d.getD i 0

/-- BE32 of the four bytes of a sequence that begin at index `i` (R9, R10). -/
def be32At (d : List Byte) (i : Nat) : Word :=
  be32 (byteAt d i) (byteAt d (i + 1)) (byteAt d (i + 2)) (byteAt d (i + 3))

/-- `BE32bytes(w)`, most significant first (R9). -/
def be32Bytes (w : Word) : List Byte :=
  [w.extractLsb' 24 8, w.extractLsb' 16 8, w.extractLsb' 8 8, w.extractLsb' 0 8]

/-- `SIG`, the file signature (R200). -/
def sigBytes : List Byte := [0x89, 0x50, 0x4E, 0x47, 0x0D, 0x0A, 0x1A, 0x0A]

/-- `TAG_IHDR` (R200). -/
def tagIhdr : List Byte := [0x49, 0x48, 0x44, 0x52]

/-- `TAG_IDAT` (R200). -/
def tagIdat : List Byte := [0x49, 0x44, 0x41, 0x54]

/-- `TAG_IEND` (R200). -/
def tagIend : List Byte := [0x49, 0x45, 0x4E, 0x44]

/-- The largest length a skipped chunk or an entered data chunk may have, 0x7FFFFFFF (R203, R230). -/
def maxChunkLength : Nat := 0x7FFFFFFF

/-- `i32(w) <= 0` (R8, R204 check 3). -/
def nonPositive (w : Word) : Bool := decide (w.toInt ≤ 0)

/-- `DimOverflow(w, h)` (R205), on mathematical integers. -/
def dimOverflow (w h : Word) : Bool := decide (w.toNat * h.toNat * 8 > 2 ^ (Config.intBits - 1) - 1)

/-- The first of the dimension checks 3 and 4 that fails, with its detail word; decode and encode share them (R204,
R271). -/
def dimensionCheck (w h : Word) : Option (Reason × Word) :=
  if nonPositive w then some (.nonPositiveDimension, w)
  else if nonPositive h then some (.nonPositiveDimension, h)
  else if dimOverflow w h then some (.dimensionOverflow, 0)
  else none

/-- Check 7: `WIDTH > MAX_WIDTH` (R204, R271). -/
def tooWide (p : Config.Params) (w : Word) : Bool := decide (w.toNat > p.maxWidth)

/-- The size of a scanline with its tag, `1 + 4 * WIDTH` (R44). -/
def rowSizeOf (w : Word) : BitVec 64 := 1 + 4 * w.setWidth 64

/-- `HeaderPayload(w, h)` (R261). -/
def headerPayload (w h : Word) : List Byte := be32Bytes w ++ be32Bytes h ++ [0x08, 0x06, 0x00, 0x00, 0x00]

/-- The value HDR_FMT takes from the header payload: {p[11], p[10], p[9], p[8]} (R204, R43). -/
def hdrFmtOf (p : List Byte) : Word := be32 (byteAt p 11) (byteAt p 10) (byteAt p 9) (byteAt p 8)

/-- The detail word of DepthType: {p[8], p[9]} (R38, R204). -/
def depthTypeInfo (p : List Byte) : Word := (byteAt p 8 ++ byteAt p 9).setWidth 32

/-- The detail word of NotEnoughPixelData raised by FE_RECON, the count `k` of row bytes read (R310). ROW_SIZE can reach
0x1FFFFFFFD (R44), and no rule says what a 32-bit register holds for a count of 2^32 or more: a free value. log 6 -/
def rowCountInfo (k : Nat) : Word := if k < 2 ^ 32 then BitVec.ofNat 32 k else Config.overlongCount k

/-- The register at a word index: byte offset = 4 × index (R33, R100); none for a reserved one (R54). -/
def regAt (idx : BitVec 10) : Option Reg :=
  match idx.toNat with
  | 0 => some .id
  | 1 => some .version
  | 2 => some .cmd
  | 3 => some .status
  | 4 => some .err
  | 5 => some .errInfo
  | 6 => some .stage
  | 7 => some .crcValue
  | 8 => some .crcState
  | 9 => some .chunkLen
  | 10 => some .chunkTag
  | 11 => some .idatRemain
  | 12 => some .width
  | 13 => some .height
  | 14 => some .hdrFmt
  | 15 => some .hdrIl
  | 16 => some .rowSizeLo
  | 17 => some .rowSizeHi
  | 18 => some .rowY
  | 19 => some .bufSel
  | 20 => some .frResult
  | 21 => some .feResult
  | 22 => some .idatMax
  | 23 => some .level
  | 24 => some .segFill
  | 25 => some .segMax
  | 26 => some .idatCount
  | 27 => some .irqEn
  | _ => none

end Sys2Proof.Machine
end

