-- ==== Sys2Proof/Machine/Flags.lean ====
section
/-! DEFINITION. The values that are computed from the state each time they are read: the error word (60_exceptions.md
R400, R402), STATUS, STAGE and the interrupt output (10_state.md R36, R39; R412). -/

namespace Sys2Proof.Machine

/-- ERR.KIND of a reason (R400, R402). -/
def Reason.kind : Reason → BitVec 8
  | .notPng => 1
  | .chunkOrder => 1
  | .checksumMismatch => 1
  | .badChunkLength => 1
  | .badIhdrLength => 1
  | .nonPositiveDimension => 1
  | .notEnoughPixelData => 1
  | .badFilterType => 1
  | .badIendLength => 1
  | .notIend => 1
  | .compressionMethod => 2
  | .filterMethod => 2
  | .dimensionOverflow => 2
  | .depthType => 2
  | .idatLengthOverflow => 2
  | .interlace => 2
  | .rowTooWide => 2
  | .unexpectedEOS => 3
  | .illegalCommand => 4
  | .badState => 4
  | .agentBusy => 4
  | .busyWrite => 4

/-- ERR.CODE of a reason (R402). -/
def Reason.code : Reason → BitVec 8
  | .notPng => 1
  | .chunkOrder => 2
  | .checksumMismatch => 3
  | .badChunkLength => 4
  | .badIhdrLength => 5
  | .nonPositiveDimension => 6
  | .notEnoughPixelData => 7
  | .badFilterType => 8
  | .badIendLength => 9
  | .notIend => 10
  | .compressionMethod => 1
  | .filterMethod => 2
  | .dimensionOverflow => 3
  | .depthType => 4
  | .idatLengthOverflow => 5
  | .interlace => 6
  | .rowTooWide => 7
  | .unexpectedEOS => 0
  | .illegalCommand => 1
  | .badState => 2
  | .agentBusy => 3
  | .busyWrite => 4

/-- ERR: CODE in [15:8], KIND in [7:0], 0 when there is no error (R37). -/
def errWord (e : Option Reason) : Word :=
  match e with
  | none => 0
  | some r => (r.code ++ r.kind).setWidth 32

/-- STATUS.ERR, a live copy of ERR.KIND ≠ 0 (R36). -/
def State.errBit (s : State) : Bool := s.err.isSome

/-- STATUS.FR_BUSY: FR's record is not idle (R36, R60). -/
def State.frBusy (s : State) : Bool := decide (s.fr ≠ .idle)

/-- STATUS.FE_BUSY: FE's record is not idle (R36, R60). -/
def State.feBusy (s : State) : Bool := decide (s.fe ≠ .idle)

/-- The interrupt output (R412). -/
def State.irq (s : State) : Bool :=
  (s.irqEn.getLsbD 0 && !s.frBusy) || (s.irqEn.getLsbD 1 && !s.feBusy) || (s.irqEn.getLsbD 2 && s.errBit)

/-- STATUS.MODE as a bit: 1 = encode (R36). -/
def modeBit (m : Mode) : Bool :=
  match m with
  | .decode => false
  | .encode => true

/-- STATUS (R36): bits 6..0 are IRQ, EOR, SIG_OK, MODE, ERR, FE_BUSY, FR_BUSY; bits 31..7 read 0. -/
def State.statusWord (s : State) : Word :=
  (BitVec.ofBool s.irq ++ BitVec.ofBool s.eor ++ BitVec.ofBool s.sigOk ++ BitVec.ofBool (modeBit s.mode) ++
    BitVec.ofBool s.errBit ++ BitVec.ofBool s.feBusy ++ BitVec.ofBool s.frBusy).setWidth 32

/-- The number of a decode stage (R39). -/
def DStage.num : DStage → Nat
  | .start => 0
  | .seenHeader => 1
  | .seenData => 2
  | .seenEnd => 3

/-- The number of an encode stage (R39). -/
def EStage.num : EStage → Nat
  | .start => 0
  | .sig => 1
  | .header => 2
  | .flushed => 3
  | .ended => 4

/-- STAGE (R39): DSTAGE in [1:0], ESTAGE in [6:4], every other bit 0. -/
def State.stageWord (s : State) : Word := BitVec.ofNat 32 (s.dstage.num + 16 * s.estage.num)

/-- `CrcValue()` = R xor 0xFFFFFFFF (R40, R183). -/
def State.crcValue (s : State) : Word := s.crc ^^^ 0xFFFFFFFF

/-- FR's record is an ADP service, started or about to start (R59, R60): a raise then responds (R401). -/
def FrActivity.serving : FrActivity → Bool
  | .accepted (.adpRead _) => true
  | .reading _ _ (.adpCrc _) => true
  | .reading _ _ (.adpHeader _) => true
  | .reading _ _ (.adpData _) => true
  | _ => false

end Sys2Proof.Machine
end

