-- ==== Sys2Proof/Machine/Ops.lean ====
section
/-! DEFINITION. The named operations the meanings share: the row-buffer bytes (10_state.md R57, 20_memory.md R111), the
streams (R102, R103), the CRC unit (40_crc.md R181 to R183), the chunk writer (42_framer_encode.md R260), recording an
error (60_exceptions.md R401) and leaving the invalid session (44_system.md R341). -/

namespace Sys2Proof.Machine

/-! ### Row-buffer bytes -/

/-- The listed byte at index `i`, if there is one. -/
def cellsFind : List Host.Cell → Nat → Option Byte
  | [], _ => none
  | c :: cs, i => if c.1 = i then some c.2 else cellsFind cs i

/-- The list with byte `v` at index `i`, in rising order. -/
def cellsPut : List Host.Cell → Nat → Byte → List Host.Cell
  | [], i, v => [(i, v)]
  | c :: cs, i, v =>
    if i < c.1 then (i, v) :: c :: cs
    else if i = c.1 then (i, v) :: cs
    else c :: cellsPut cs i v

/-- What an unlisted byte of the bank holds: 0 where a header's acceptance zeroed it, no value the spec gives elsewhere
(R57, R64, U1). log 4 -/
def Bank.unlisted (b : Bank) (i : Nat) : Option Byte := if i < b.zeroed then some 0 else none

/-- The byte at index `i` where the spec gives it a value, none where it is still unspecified. -/
def Bank.read (b : Bank) (i : Nat) : Option Byte := (cellsFind b.cells i).or (b.unlisted i)

/-- Store byte `v` at index `i`; storing what an unlisted byte holds removes the entry. -/
def Bank.write (b : Bank) (i : Nat) (v : Byte) : Bank :=
  if b.unlisted i = some v then { b with cells := b.cells.filter (fun c => c.1 ≠ i) }
  else { b with cells := cellsPut b.cells i v }

/-- Fill bytes 0..n-1 with 0 (R204, R271). -/
def Bank.zero (b : Bank) (n : Nat) : Bank :=
  { zeroed := max b.zeroed n, cells := b.cells.filter (fun c => n ≤ c.1) }

/-- The indices of the list rise strictly. -/
def cellsRising : List Host.Cell → Bool
  | [] => true
  | [_] => true
  | c :: d :: cs => decide (c.1 < d.1) && cellsRising (d :: cs)

/-- The bank is in its one canonical form: indices strictly rising, no entry equal to what an unlisted byte holds. -/
def Bank.wf (b : Bank) : Bool := cellsRising b.cells && b.cells.all (fun c => decide (b.unlisted c.1 ≠ some c.2))

/-- Both banks are in their canonical form. -/
def Memory.wf (m : Memory) : Bool := m.bank0.wf && m.bank1.wf

/-- `RB[sel]` (R57). -/
def Memory.bank (m : Memory) (sel : Bool) : Bank := if sel then m.bank1 else m.bank0

/-- Replace `RB[sel]`. -/
def Memory.setBank (m : Memory) (sel : Bool) (b : Bank) : Memory :=
  if sel then { m with bank1 := b } else { m with bank0 := b }

/-- `RB[sel][i]` (R57); a byte still unspecified since power-on is the free value of its place (U1). -/
def Memory.readByte (m : Memory) (sel : Bool) (i : Nat) : Byte :=
  ((m.bank sel).read i).getD (Config.powerOnRowByte m.epoch sel i)

/-- `RB[sel][i] <- v` (R57). -/
def Memory.writeByte (m : Memory) (sel : Bool) (i : Nat) (v : Byte) : Memory :=
  m.setBank sel ((m.bank sel).write i v)

/-- `RB[sel][i ..] <- d`, the bytes of `d` in order. -/
def Memory.writeBytes (m : Memory) (sel : Bool) (i : Nat) : List Byte → Memory
  | [] => m
  | v :: d => (m.writeByte sel i v).writeBytes sel (i + 1) d

/-- `RB[sel][i .. i+n-1]`. -/
def Memory.readBytes (m : Memory) (sel : Bool) (i n : Nat) : List Byte :=
  (List.range n).map (fun j => m.readByte sel (i + j))

/-- `for i in 0 .. n-1: RB[0][i] <- 0; RB[1][i] <- 0` (R204, R271). -/
def Memory.zeroBoth (m : Memory) (n : Nat) : Memory :=
  { m with bank0 := m.bank0.zero n, bank1 := m.bank1.zero n }

/-- The bank a view names: CUR = RB[BUF_SEL], PREV = RB[1 - BUF_SEL] (R57). -/
def State.viewBank (s : State) (v : View) : Bool :=
  match v with
  | .cur => s.bufSel
  | .prev => !s.bufSel

/-! ### Streams -/

/-- A producer's push: appended, or ignored once the stream has ended (R104). -/
def Fifo.push (f : Fifo) (b : Byte) : Fifo := if f.eos then f else { f with q := f.q ++ [b] }

/-- A producer's end-of-stream mark (R104). -/
def Fifo.finish (f : Fifo) : Fifo := { f with eos := true }

/-- `WriteOut`, `WriteZout`: append in order, no capacity limit (R103). -/
def Fifo.append (f : Fifo) (d : List Byte) : Fifo := { f with q := f.q ++ d }

/-- Signal an output to the outside. log 3 -/
def State.emit (s : State) (o : Output) : State := { s with outputs := s.outputs ++ [o] }

/-! ### The CRC unit -/

/-- One of the eight bit steps of `CrcFeed` (R182). -/
def crcBitStep (r : Word) : Word := if r.getLsbD 0 then (r >>> 1) ^^^ 0xEDB88320 else r >>> 1

/-- `CrcFeed(b)` on the register value: eight bit steps (R182). -/
def crcFeedByte (r : Word) (b : Byte) : Word :=
  crcBitStep (crcBitStep (crcBitStep (crcBitStep
    (crcBitStep (crcBitStep (crcBitStep (crcBitStep (r ^^^ b.setWidth 32))))))))

/-- `CrcFeed(s)`, the bytes in stream order (R182). -/
def crcFeed (r : Word) (d : List Byte) : Word := d.foldl crcFeedByte r

/-- The register value `CrcInit` writes (R181). -/
def crcStart : Word := 0xFFFFFFFF

/-- The CRC of a chunk: its tag and then its payload (R184), finalised (R183). -/
def chunkCrc (tag payload : List Byte) : Word := crcFeed (crcFeed crcStart tag) payload ^^^ 0xFFFFFFFF

/-! ### Chunks -/

/-- A chunk as bytes: length, tag, payload, CRC (R200). -/
def chunkBytes (tag payload : List Byte) : List Byte :=
  be32Bytes (BitVec.ofNat 32 payload.length) ++ tag ++ payload ++ be32Bytes (chunkCrc tag payload)

/-- `WriteChunk(tag, payload)` (R260). -/
def State.writeChunk (s : State) (tag payload : List Byte) : State :=
  { s with
    chunkLen := BitVec.ofNat 32 payload.length
    chunkTag := be32At tag 0
    crc := crcFeed (crcFeed crcStart tag) payload
    out := s.out.append (chunkBytes tag payload) }

/-- The last line of accepting a header of width `w`: the row geometry, and both banks zeroed over a row (R204, R271). -/
def State.acceptRows (s : State) (w : Word) : State :=
  { s with
    rowSize := rowSizeOf w
    rowY := 0
    bufSel := false
    mem := s.mem.zeroBoth (rowSizeOf w).toNat }

/-! ### Recording an error and leaving it -/

/-- `raise K(reason, info)` (R401), the one way an error is taken: the first error of a session is recorded; the
raising command ends, the other agent's command is aborted, so both agents are idle; an ADP service that ends by it
responds ([], ok = 0). Nothing else changes (R404, R407). log 9 -/
def raise (r : Reason) (info : Word) (s : State) : State :=
  { s with
    err := some (s.err.getD r)
    errInfo := if s.err.isNone then info else s.errInfo
    fr := .idle
    fe := .idle
    adp := if s.fr.serving then none else s.adp
    outputs := if s.fr.serving then s.outputs ++ [.adpResponse [] false] else s.outputs }

/-- `SESSION_RESET m` (R341, R64, R441): the way out of an invalid session. Kept: IDAT_MAX, LEVEL, IRQ_EN, the banks,
and the model's own fields. -/
def sessionReset (m : Mode) (s : State) : State :=
  { State.reset with
    mode := m
    idatMax := s.idatMax
    level := s.level
    irqEn := s.irqEn
    mem := s.mem
    params := s.params
    draws := s.draws
    outputs := s.outputs
    sched := s.sched }

/-- Power-on reset (R440, R64): every piece of state at its power-on value, the banks unspecified anew. The parameter
and the model's record of the outside stay. log 10 -/
def powerOnReset (s : State) : State :=
  { State.reset with
    mem := { bank0 := Bank.unspecified, bank1 := Bank.unspecified, epoch := s.mem.epoch + 1 }
    params := s.params
    draws := s.draws
    outputs := s.outputs
    sched := s.sched }

/-- The end of an FR command without an error: FR_RESULT written, FR idle (R47, R63). -/
def State.frDone (s : State) (result : Word) : State := { s with frResult := result, fr := .idle }

/-- The end of an FE command without an error: FE_RESULT written, FE idle (R48, R63). -/
def State.feDone (s : State) (result : Word) : State := { s with feResult := result, fe := .idle }

/-- `respond(bytes, ok)` (R230): the request is removed, the service ends, INF gets the response. -/
def State.respond (s : State) (bytes : List Byte) (ok : Bool) : State :=
  { s with adp := none, fr := .idle, outputs := s.outputs ++ [.adpResponse bytes ok] }

end Sys2Proof.Machine
end

