-- ==== Sys2Proof/Machine/Crc.lean ====
section
/-! DEFINITION. The CRC commands (40_crc.md): they run on FR in any MODE and stage and change `R` only, beside
FR_RESULT. -/

namespace Sys2Proof.Machine

/-- `CRC_INIT` (R186): `CrcInit(); FR_RESULT <- 0`. -/
def execCrcInit (s : State) : Host.Outcome State Fault Refusal := .next ({ s with crc := crcStart }.frDone 0)

/-- `CRC_BYTE b` (R187): `CrcFeed(b); FR_RESULT <- 0`. -/
def execCrcByte (b : Byte) (s : State) : Host.Outcome State Fault Refusal :=
  .next ({ s with crc := crcFeedByte s.crc b }.frDone 0)

end Sys2Proof.Machine
end

