-- ==== Sys2Proof/Machine/Filter.lean ====
section
/-! DEFINITION. The filter engine (43_filter.md): the predictors, Recon, Apply, FE_RECON and FE_APPLY. -/

namespace Sys2Proof.Machine

/-- The five filter types (R300). -/
inductive Filter where
  | none
  | sub
  | up
  | average
  | paeth
  deriving DecidableEq, Repr

/-- The filter of a tag byte; tags 5..255 are illegal (R300). -/
def filterOfTag (t : Byte) : Option Filter :=
  if t = 0 then some .none
  else if t = 1 then some .sub
  else if t = 2 then some .up
  else if t = 3 then some .average
  else if t = 4 then some .paeth
  else Option.none

/-- `Paeth(a, b, c)`, the estimate and the distances exact (R302). -/
def paeth (a b c : Byte) : Byte :=
  let p : Int := (a.toNat : Int) + b.toNat - c.toNat
  let pa := (p - a.toNat).natAbs
  let pb := (p - b.toNat).natAbs
  let pc := (p - c.toNat).natAbs
  if pa ≤ pb ∧ pa ≤ pc then a else if pb ≤ pc then b else c

/-- `Pred(f, a, b, c)` (R300, R303): Average halves the exact sum. -/
def predict (f : Filter) (a b c : Byte) : Byte :=
  match f with
  | .none => 0
  | .sub => a
  | .up => b
  | .average => BitVec.ofNat 8 ((a.toNat + b.toNat) / 2)
  | .paeth => paeth a b c

/-- The byte at `i - 4` of a row, 0 if `i < 4` (R301; BPP = 4). -/
def fourBefore (row : List Byte) (i : Nat) : Byte := if 4 ≤ i then byteAt row (i - 4) else 0

/-- The prediction for byte `i`, from the row `left` the left neighbour is taken from and the row above (R301). -/
def predictAt (f : Filter) (left up : List Byte) (i : Nat) : Byte :=
  predict f (fourBefore left i) (byteAt up i) (fourBefore up i)

/-- `Recon(f, filt, up)` (R304): in ascending order, each byte from the bytes already reconstructed. -/
def recon (f : Filter) (filt up : List Byte) : List Byte :=
  (List.range filt.length).foldl (fun rec i => rec ++ [byteAt filt i + predictAt f rec up i]) []

/-- `Apply(f, orig, up)` (R305): each byte from original bytes only. -/
def applyFilter (f : Filter) (orig up : List Byte) : List Byte :=
  (List.range orig.length).map (fun i => byteAt orig i - predictAt f orig up i)

/-- `CUR[i]` (R57). -/
def State.curByte (s : State) (i : Nat) : Byte := s.mem.readByte s.bufSel i

/-- `CUR[1 .. n]` (R57, R310). -/
def State.curData (s : State) (n : Nat) : List Byte := s.mem.readBytes s.bufSel 1 n

/-- `PREV[1 .. n]` (R57, R310). -/
def State.prevData (s : State) (n : Nat) : List Byte := s.mem.readBytes (!s.bufSel) 1 n

/-- `CUR[i] <- b` (R57). -/
def State.setCur (s : State) (i : Nat) (b : Byte) : State := { s with mem := s.mem.writeByte s.bufSel i b }

/-- `BUF_SEL <- 1 - BUF_SEL; ROW_Y <- ROW_Y + 1; FE_RESULT <- 0`, the end of a row (R310, R311). -/
def State.rowDone (s : State) : State := { s with bufSel := !s.bufSel, rowY := s.rowY + 1 }.feDone 0

/-- FE_RECON after its `n` row bytes are in CUR: the tag check, Recon, the swap (R310). -/
def reconRow (n : Nat) (s : State) : State :=
  match filterOfTag (s.curByte 0) with
  | Option.none => raise .badFilterType ((s.curByte 0).setWidth 32) s
  | some f =>
    { s with
      mem := s.mem.writeBytes s.bufSel 1 (recon f (s.curData (n - 1)) (s.prevData (n - 1))) }.rowDone

/-- One segment of FE_RECON over the bytes `q` that ZIN holds, with `k` of the row's `n` bytes read (R310, R102). When
ZIN runs dry, an ended ZIN raises NotEnoughPixelData (R105), otherwise FE holds. -/
def rowLoop : List Byte → Nat → Nat → State → State
  | [], n, k, s =>
    if n ≤ k then reconRow n s
    else if s.zin.eos then raise .notEnoughPixelData (rowCountInfo k) s
    else { s with fe := .row n k }
  | b :: q, n, k, s =>
    if n ≤ k then reconRow n s
    else rowLoop q n (k + 1) ({ s with zin := { s.zin with q := q } }.setCur k b)

/-- `FE_RECON` (R310). -/
def execFeRecon (s : State) : Host.Outcome State Fault Refusal :=
  .next (if s.mode ≠ .decode ∨ ¬ (s.dstage = .seenData ∨ s.dstage = .seenEnd) then raise .badState 0x40 s
    else if s.rowY.toNat ≥ s.height.toNat then { s with eor := true }.feDone 1
    else if s.dstage = .seenEnd then raise .badState 0x40 s
    else rowLoop s.zin.q s.rowSize.toNat 0 s)

/-- FE_APPLY with filter `f`, after its state check (R311). -/
def applyRow (f : Filter) (tag : Byte) (s : State) : State :=
  let n := s.rowSize.toNat - 1
  let filt := applyFilter f (s.curData n) (s.prevData n)
  let s1 := s.setCur 0 tag
  { s1 with zout := s1.zout.append (tag :: filt) }.rowDone

/-- `FE_APPLY f` (R311). An operand 5..7 is no instruction the decoder gives; its word is an illegal command (R145).
log 11 -/
def execFeApply (f : BitVec 3) (s : State) : Host.Outcome State Fault Refusal :=
  let tag : Byte := f.setWidth 8
  .next (match filterOfTag tag with
    | Option.none => raise .illegalCommand ((0x41 : BitVec 8) ++ f.setWidth 24 : BitVec 32) s
    | some flt =>
      if s.mode ≠ .encode ∨ s.estage ≠ .header ∨ s.rowY.toNat ≥ s.height.toNat then raise .badState 0x41 s
      else applyRow flt tag s)

end Sys2Proof.Machine
end

