-- ==== Sys2Proof/Machine/FramerDecode.lean ====
section
/-! DEFINITION. The decode side of the framer (41_framer_decode.md): FR_SIG, FR_STEP, FR_OPEN, FR_CLOSE and the ADP
service. The pseudocode is cut at its `ReadIn` calls, the points where FR can hold (20_memory.md R102, R120): each
definition below is the text from one `ReadIn` to the next, and `readLoop` runs it over the bytes of IN. -/

namespace Sys2Proof.Machine

/-- Where a piece of pseudocode ends: the command or service has ended, or it calls `ReadIn(k)` next, k ≥ 1, and goes on
at point `p` with the bytes. -/
inductive Go where
  | ended (s : State)
  | read (k : Nat) (p : FrPoint) (s : State)
  deriving DecidableEq, Repr

/-- A piece of pseudocode that ends by raising an error. -/
def goRaise (r : Reason) (info : Word) (s : State) : Go := .ended (raise r info s)

/-! ### The chunk scan -/

/-- After one chunk of FR_STEP's body: FR_STEP ends; FR_OPEN goes on `while DSTAGE != SeenData`, and then writes
FR_RESULT <- 2 and ends (R221, R222). -/
def afterChunk (inOpen : Bool) (s : State) : Go :=
  if inOpen then
    if s.dstage = .seenData then .ended (s.frDone 2) else .read 8 (.header true) s
  else .ended { s with fr := .idle }

/-- `VerifyChecksum()` from its four bytes `c` on; `next` is what follows a CRC that agrees (R202). -/
def verifyChecksum (c : List Byte) (s : State) (next : Go) : Go :=
  if be32At c 0 = s.crcValue then next else goRaise .checksumMismatch (be32At c 0) s

/-- The rest of FR_SIG's body from its eight bytes `b` on (R220); inside FR_OPEN the scan follows (R222), and the
FR_RESULT written here stays if it fails later. log 19 -/
def afterSig (inOpen : Bool) (b : List Byte) (s : State) : Go :=
  if b = sigBytes then
    let s1 := { s with sigOk := true, frResult := 0 }
    if inOpen then afterChunk true s1 else .ended { s1 with fr := .idle }
  else goRaise .notPng 0 s

/-- `SkipChunk(len)` with `left` payload bytes to come (R203). -/
def skipNext (inOpen : Bool) (left : Nat) (s : State) : Go :=
  if left = 0 then .read 4 (.skipCrc inOpen) s else .read 1 (.skip inOpen (left - 1)) s

/-- `SkipChunk(len)` from its start (R203). -/
def skipChunk (inOpen : Bool) (len : Word) (s : State) : Go :=
  if len.toNat > maxChunkLength then goRaise .badChunkLength len s else skipNext inOpen len.toNat s

/-- `ReadChunkHeader()` from its eight bytes `h` on: CHUNK_LEN, CHUNK_TAG, and the CRC started over the tag (R201). -/
def chunkHeader (h : List Byte) (s : State) : State :=
  { s with
    chunkLen := be32At h 0
    chunkTag := be32At h 4
    crc := crcFeed crcStart (h.drop 4) }

/-- FR_STEP's body from the eight header bytes on: the dispatch on the tag (R221). -/
def afterHeader (inOpen : Bool) (h : List Byte) (s : State) : Go :=
  let len := be32At h 0
  let tag := h.drop 4
  let s1 := chunkHeader h s
  if tag = tagIhdr then
    if s1.dstage ≠ .start then goRaise .chunkOrder (be32At tag 0) s1
    else if len ≠ 13 then goRaise .badIhdrLength len s1
    else .read 13 (.ihdr inOpen) s1
  else if tag = tagIdat then
    if s1.dstage ≠ .seenHeader then goRaise .chunkOrder (be32At tag 0) s1
    else afterChunk inOpen { s1 with idatRemain := len, dstage := .seenData, frResult := 2 }
  else if tag = tagIend then goRaise .chunkOrder (be32At tag 0) s1
  else skipChunk inOpen len s1

/-- The checks 1 to 7 of ParseIHDR on payload `p`, in their order: the first that fails, with its detail word (R204,
R405). -/
def ihdrCheck (params : Config.Params) (p : List Byte) : Option (Reason × Word) :=
  let w := be32At p 0
  let h := be32At p 4
  if byteAt p 10 ≠ 0 then some (.compressionMethod, (byteAt p 10).setWidth 32)
  else if byteAt p 11 ≠ 0 then some (.filterMethod, (byteAt p 11).setWidth 32)
  else match dimensionCheck w h with
    | some e => some e
    | none =>
      if byteAt p 8 ≠ 8 ∨ byteAt p 9 ≠ 6 then some (.depthType, depthTypeInfo p)
      else if byteAt p 12 ≠ 0 then some (.interlace, (byteAt p 12).setWidth 32)
      else if tooWide params w then some (.rowTooWide, w)
      else none

/-- ParseIHDR from its 13 payload bytes `p` on, up to VerifyChecksum: the header registers are written before any check
(R204, R43). -/
def afterIhdr (inOpen : Bool) (p : List Byte) (s : State) : Go :=
  let s1 := { s with
    crc := crcFeed s.crc p
    width := be32At p 0
    height := be32At p 4
    hdrFmt := hdrFmtOf p
    hdrIl := (byteAt p 12).setWidth 32 }
  match ihdrCheck s.params p with
  | some (r, info) => goRaise r info s1
  | none => .read 4 (.ihdrCrc inOpen) s1

/-- ParseIHDR from the CRC bytes `c` on: check 8, the header accepted, and the end of FR_STEP's header case (R204,
R221); inside FR_OPEN the FR_RESULT written here stays if the scan fails later. log 19 -/
def afterIhdrCrc (inOpen : Bool) (c : List Byte) (s : State) : Go :=
  verifyChecksum c s
    (afterChunk inOpen { s.acceptRows s.width with dstage := .seenHeader, frResult := 1 })

/-- SkipChunk from one payload byte on (R203). -/
def afterSkip (inOpen : Bool) (left : Nat) (d : List Byte) (s : State) : Go :=
  skipNext inOpen left { s with crc := crcFeed s.crc d }

/-- SkipChunk from the CRC bytes on, and the end of FR_STEP's other-chunk case (R203, R221); inside FR_OPEN the
FR_RESULT written here stays if the scan fails later. log 19 -/
def afterSkipCrc (inOpen : Bool) (c : List Byte) (s : State) : Go :=
  verifyChecksum c s (afterChunk inOpen { s with frResult := 3 })

/-! ### The close -/

/-- FR_CLOSE from the last data chunk's CRC bytes on (R224). -/
def afterCloseDataCrc (c : List Byte) (s : State) : Go := verifyChecksum c s (.read 8 .closeHeader s)

/-- FR_CLOSE from the eight header bytes of the terminal chunk on: the length is checked before the tag (R224). -/
def afterCloseHeader (h : List Byte) (s : State) : Go :=
  let s1 := chunkHeader h s
  if be32At h 0 ≠ 0 then goRaise .badIendLength (be32At h 0) s1
  else if h.drop 4 ≠ tagIend then goRaise .notIend (be32At h 4) s1
  else .read 4 .closeIendCrc s1

/-- FR_CLOSE from the terminal chunk's CRC bytes on (R224). -/
def afterCloseIendCrc (c : List Byte) (s : State) : Go :=
  verifyChecksum c s (.ended ({ s with dstage := .seenEnd }.frDone 0))

/-! ### The ADP service -/

/-- The loop head of ServeAdp for a request of `n` ≥ 1 bytes, and what follows the loop (R230). -/
def adpNext (n : Word) (s : State) : Go :=
  if s.idatRemain = 0 then .read 4 (.adpCrc n) s
  else if s.idatRemain.toNat > maxChunkLength then goRaise .idatLengthOverflow s.idatRemain s
  else .read (min n.toNat s.idatRemain.toNat) (.adpData n) s

/-- ServeAdp from an exhausted data chunk's CRC bytes on (R230). -/
def afterAdpCrc (n : Word) (c : List Byte) (s : State) : Go := verifyChecksum c s (.read 8 (.adpHeader n) s)

/-- ServeAdp from the next chunk's header bytes on: the CRC is started only after the tag check (R230). -/
def afterAdpHeader (n : Word) (h : List Byte) (s : State) : Go :=
  let s1 := { s with chunkLen := be32At h 0, chunkTag := be32At h 4 }
  if h.drop 4 ≠ tagIdat then goRaise .notEnoughPixelData (be32At h 4) s1
  else adpNext n { s1 with idatRemain := be32At h 0, crc := crcFeed crcStart (h.drop 4) }

/-- ServeAdp from the payload bytes `d` on (R230). -/
def afterAdpData (d : List Byte) (s : State) : Go :=
  .ended ({ s with
    crc := crcFeed s.crc d
    idatRemain := s.idatRemain - BitVec.ofNat 32 d.length }.respond d true)

/-! ### Reading IN -/

/-- What the pseudocode does with the bytes of a completed `ReadIn` at point `p`. -/
def afterRead (p : FrPoint) (d : List Byte) (s : State) : Go :=
  match p with
  | .sig inOpen => afterSig inOpen d s
  | .header inOpen => afterHeader inOpen d s
  | .ihdr inOpen => afterIhdr inOpen d s
  | .ihdrCrc inOpen => afterIhdrCrc inOpen d s
  | .skip inOpen left => afterSkip inOpen left d s
  | .skipCrc inOpen => afterSkipCrc inOpen d s
  | .closeDataCrc => afterCloseDataCrc d s
  | .closeHeader => afterCloseHeader d s
  | .closeIendCrc => afterCloseIendCrc d s
  | .adpCrc n => afterAdpCrc n d s
  | .adpHeader n => afterAdpHeader n d s
  | .adpData _ => afterAdpData d s

/-- One segment of FR over the bytes `q` that IN holds (R102, R120): `need` bytes of the present `ReadIn` are still to
come and `got` were taken. When IN runs dry, an ended IN raises UnexpectedEOS, and the bytes taken stay consumed;
otherwise FR holds at this point. -/
def readLoop : List Byte → Nat → List Byte → FrPoint → State → State
  | [], need, got, p, s =>
    if s.inp.eos then raise .unexpectedEOS 0 s else { s with fr := .reading need got p }
  | b :: q, need, got, p, s =>
    let s1 := { s with inp := { s.inp with q := q } }
    if need ≤ 1 then
      match afterRead p (got ++ [b]) s1 with
      | .ended s2 => s2
      | .read k p2 s2 => readLoop q k [] p2 s2
    else readLoop q (need - 1) (got ++ [b]) p s1

/-- `ReadIn(k)` and all that follows it in this segment (R102). -/
def readIn (k : Nat) (p : FrPoint) (s : State) : State := readLoop s.inp.q k [] p s

/-- Run on from where a piece of pseudocode ends. -/
def runGo (g : Go) : State :=
  match g with
  | .ended s => s
  | .read k p s => readIn k p s

/-! ### The meanings -/

/-- `FR_SIG` (R220). -/
def execFrSig (s : State) : Host.Outcome State Fault Refusal :=
  .next (if s.mode ≠ .decode ∨ s.sigOk = true ∨ s.dstage ≠ .start then raise .badState 0x20 s
    else readIn 8 (.sig false) s)

/-- `FR_STEP` (R221). -/
def execFrStep (s : State) : Host.Outcome State Fault Refusal :=
  .next (if s.mode ≠ .decode ∨ s.sigOk = false ∨ ¬ (s.dstage = .start ∨ s.dstage = .seenHeader) then
      raise .badState 0x21 s
    else readIn 8 (.header false) s)

/-- `FR_OPEN` (R222). -/
def execFrOpen (s : State) : Host.Outcome State Fault Refusal :=
  .next (if s.mode ≠ .decode ∨ ¬ (s.dstage = .start ∨ s.dstage = .seenHeader) then raise .badState 0x22 s
    else if s.sigOk = false then readIn 8 (.sig true) s
    else readIn 8 (.header true) s)

/-- `FR_CLOSE` (R224). -/
def execFrClose (s : State) : Host.Outcome State Fault Refusal :=
  .next (if s.mode ≠ .decode then raise .badState 0x23 s
    else if s.dstage = .seenEnd then s.frDone 1
    else if s.dstage ≠ .seenData then raise .badState 0x23 s
    else readIn 4 .closeDataCrc (s.emit .infClose))

/-- The ADP service of request `n` (R230), from its start: FR is busy with it until the response. -/
def execAdpRead (n : Word) (s : State) : Host.Outcome State Fault Refusal :=
  let s1 := { s with fr := .accepted (.adpRead n) }
  .next (if s1.err.isSome then s1.respond [] false
    else if s1.mode ≠ .decode ∨ s1.dstage ≠ .seenData then raise .badState 0xAD s1
    else if n = 0 then s1.respond [] true
    else runGo (adpNext n s1))

end Sys2Proof.Machine
end

