-- ==== Sys2Proof/Machine/FramerEncode.lean ====
section
/-! DEFINITION. The encode side of the framer (42_framer_encode.md): FW_SIG, FW_IHDR, FW_FLUSH, FW_IEND and the
segmenter. -/

namespace Sys2Proof.Machine

/-- `min(IDAT_COUNT + 1, 0xFFFFFFFF)` (R262, R52). -/
def saturatingSucc (w : Word) : Word := if w = 0xFFFFFFFF then w else w + 1

/-- `EmitIdat()`: the segment buffer as one data chunk (R262). -/
def State.emitIdat (s : State) : State :=
  { s.writeChunk tagIdat s.seg with seg := [], idatCount := saturatingSucc s.idatCount }

/-- `SEG <- SEG ++ [b]; if |SEG| = SEG_MAX: EmitIdat()` (R272, R273). -/
def State.segPush (s : State) (b : Byte) : State :=
  let s1 := { s with seg := s.seg ++ [b] }
  if s1.seg.length = s1.segMax.toNat then s1.emitIdat else s1

/-- When the segmenter step is enabled (R272). -/
def State.segmenterEnabled (s : State) : Bool :=
  decide (s.fr = .idle) && decide (s.mode = .encode) && decide (s.estage = .header) && s.err.isNone &&
    !s.cz.q.isEmpty

/-- `SegmenterStep()`, where it is enabled; elsewhere FR has no such step (R272). -/
def segmenterStep (s : State) : State :=
  if s.segmenterEnabled then
    match s.cz.q with
    | [] => s
    | b :: q => { s with cz := { s.cz with q := q } }.segPush b
  else s

/-- FW_FLUSH after its loop: the last data chunk, ESTAGE and FR_RESULT (R273). -/
def flushEnd (s : State) : State :=
  let s1 := if s.seg.length > 0 ∨ s.idatCount = 0 then s.emitIdat else s
  { s1 with estage := .flushed }.frDone 0

/-- One segment of FW_FLUSH's loop over the bytes `q` that CZ holds: TakeCz until CZ is empty; an ended CZ ends the
loop, otherwise FR holds (R273, R102). -/
def flushLoop : List Byte → State → State
  | [], s => if s.cz.eos then flushEnd s else { s with fr := .flushing }
  | b :: q, s => flushLoop q ({ s with cz := { s.cz with q := q } }.segPush b)

/-- `FW_SIG` (R270). -/
def execFwSig (s : State) : Host.Outcome State Fault Refusal :=
  .next (if s.mode ≠ .encode ∨ s.estage ≠ .start then raise .badState 0x30 s
    else { s with out := s.out.append sigBytes, sigOk := true, estage := .sig }.frDone 0)

/-- FW_IHDR's checks on the dimensions, in their order (R271). -/
def encodeCheck (params : Config.Params) (w h : Word) : Option (Reason × Word) :=
  match dimensionCheck w h with
  | some e => some e
  | none => if tooWide params w then some (.rowTooWide, w) else none

/-- FW_IHDR after its checks (R271). -/
def writeHeader (s : State) : State :=
  let s1 := { s with hdrFmt := 0x00000608, hdrIl := 0 }.writeChunk tagIhdr (headerPayload s.width s.height)
  let s2 := { s1 with segMax := s1.idatMax, seg := [], idatCount := 0 }.acceptRows s.width
  { s2 with estage := .header }.frDone 0

/-- `FW_IHDR` (R271). -/
def execFwIhdr (s : State) : Host.Outcome State Fault Refusal :=
  .next (if s.mode ≠ .encode ∨ s.estage ≠ .sig then raise .badState 0x31 s
    else match encodeCheck s.params s.width s.height with
      | some (r, info) => raise r info s
      | none => writeHeader s)

/-- `FW_FLUSH` (R273). -/
def execFwFlush (s : State) : Host.Outcome State Fault Refusal :=
  .next (if s.mode ≠ .encode ∨ s.estage ≠ .header then raise .badState 0x32 s
    else if s.rowY ≠ s.height then raise .badState 0x32 s
    else flushLoop s.cz.q (s.emit .defClose))

/-- `FW_IEND` (R274). -/
def execFwIend (s : State) : Host.Outcome State Fault Refusal :=
  .next (if s.mode ≠ .encode ∨ s.estage ≠ .flushed then raise .badState 0x33 s
    else { s.writeChunk tagIend [] with estage := .ended }.frDone 0)

end Sys2Proof.Machine
end

