-- ==== Sys2Proof/Machine/System.lean ====
section
/-! DEFINITION. The SYS commands (44_system.md): executed in the CMD write step itself. -/

namespace Sys2Proof.Machine

/-- `NOP` (R340): nothing. -/
def execNop (s : State) : Host.Outcome State Fault Refusal := .next s

/-- `SESSION_RESET m` (R341): abort everything and start a new session of mode `m`. -/
def execSessionReset (m : Mode) (s : State) : Host.Outcome State Fault Refusal := .next (sessionReset m s)

end Sys2Proof.Machine
end

