-- ==== Sys2Proof/Machine/Dispatch.lean ====
section
/-! DEFINITION. The dispatch: one arm per instruction, each one call of its meaning. `exec i s` is what the agent of `i`
does from the start of `i` to its first hold point or its end (20_memory.md R120); for a SYS command that is the CMD
write step itself (30_encoding.md R142). -/

namespace Sys2Proof.Machine

/-- The meaning of an instruction. -/
def exec (i : Instr) (s : State) : Host.Outcome State Fault Refusal :=
  match i with
  | .nop => Sys2Proof.Machine.execNop s
  | .sessionReset m => Sys2Proof.Machine.execSessionReset m s
  | .crcInit => Sys2Proof.Machine.execCrcInit s
  | .crcByte b => Sys2Proof.Machine.execCrcByte b s
  | .frSig => Sys2Proof.Machine.execFrSig s
  | .frStep => Sys2Proof.Machine.execFrStep s
  | .frOpen => Sys2Proof.Machine.execFrOpen s
  | .frClose => Sys2Proof.Machine.execFrClose s
  | .fwSig => Sys2Proof.Machine.execFwSig s
  | .fwIhdr => Sys2Proof.Machine.execFwIhdr s
  | .fwFlush => Sys2Proof.Machine.execFwFlush s
  | .fwIend => Sys2Proof.Machine.execFwIend s
  | .feRecon => Sys2Proof.Machine.execFeRecon s
  | .feApply f => Sys2Proof.Machine.execFeApply f s
  | .adpRead n => Sys2Proof.Machine.execAdpRead n s

end Sys2Proof.Machine
end

