-- ==== Sys2Proof/Machine/Ports.lean ====
section
/-! DEFINITION. The ports the outside reaches PNGCORE by: the register port with the CMD dispatch (20_memory.md R110,
30_encoding.md R142), the row-buffer port (R111) and the streams (R104). -/

namespace Sys2Proof.Machine

/-! ### The register port -/

/-- The value of a register (10_state.md R34 to R53). -/
def State.regValue (s : State) (r : Reg) : Word :=
  match r with
  | .id => Config.idValue
  | .version => Config.versionValue
  | .cmd => 0
  | .status => s.statusWord
  | .err => errWord s.err
  | .errInfo => s.errInfo
  | .stage => s.stageWord
  | .crcValue => s.crcValue
  | .crcState => s.crc
  | .chunkLen => s.chunkLen
  | .chunkTag => s.chunkTag
  | .idatRemain => s.idatRemain
  | .width => s.width
  | .height => s.height
  | .hdrFmt => s.hdrFmt
  | .hdrIl => s.hdrIl
  | .rowSizeLo => s.rowSize.extractLsb' 0 32
  | .rowSizeHi => s.rowSize.extractLsb' 32 32
  | .rowY => s.rowY
  | .bufSel => (BitVec.ofBool s.bufSel).setWidth 32
  | .frResult => s.frResult
  | .feResult => s.feResult
  | .idatMax => s.idatMax
  | .level => s.level.setWidth 32
  | .segFill => BitVec.ofNat 32 s.seg.length
  | .segMax => s.segMax
  | .idatCount => s.idatCount
  | .irqEn => s.irqEn.setWidth 32

/-- `RegRead(idx)` (R110); a reserved offset reads 0 (R54). -/
def State.regRead (s : State) (idx : BitVec 10) : Word :=
  match regAt idx with
  | some r => s.regValue r
  | none => 0

/-- The host may write WIDTH and HEIGHT: in an encode session, while ESTAGE is `EStart` or `ESig` (R42, D35). -/
def State.dimsWritable (s : State) : Bool :=
  decide (s.mode = .encode) && (decide (s.estage = .start) || decide (s.estage = .sig))

/-- A write of `w` to a register other than CMD: stored, or ignored where the register's rule says so (R110, R42, R49,
R50, R53); a read-only register ignores it (R33). -/
def regStore (r : Reg) (w : Word) (s : State) : State :=
  match r with
  | .width => if s.dimsWritable then { s with width := w } else s
  | .height => if s.dimsWritable then { s with height := w } else s
  | .idatMax => if 1 ≤ w.toNat ∧ w.toNat ≤ Config.maxSeg then { s with idatMax := w } else s
  | .level => if w.extractLsb' 0 2 = 3 then s else { s with level := w.extractLsb' 0 2 }
  | .irqEn => { s with irqEn := w.extractLsb' 0 3 }
  | .id => s
  | .version => s
  | .cmd => s
  | .status => s
  | .err => s
  | .errInfo => s
  | .stage => s
  | .crcValue => s
  | .crcState => s
  | .chunkLen => s
  | .chunkTag => s
  | .idatRemain => s
  | .hdrFmt => s
  | .hdrIl => s
  | .rowSizeLo => s
  | .rowSizeHi => s
  | .rowY => s
  | .bufSel => s
  | .frResult => s
  | .feResult => s
  | .segFill => s
  | .segMax => s
  | .idatCount => s

/-- The target agent is busy (R142, R63). -/
def State.busy (s : State) (t : Target) : Bool :=
  match t with
  | .sys => false
  | .fr => s.frBusy
  | .fe => s.feBusy

/-- The target agent becomes busy with command `i`; it runs from its next step (R142). -/
def accept (i : Instr) (s : State) : State :=
  match i.target with
  | .sys => s
  | .fr => { s with fr := .accepted i }
  | .fe => { s with fe := .accepted i }

/-- A host write of word `w` to CMD: decode and dispatch, in the order of R142. -/
def issue (w : Word) (s : State) : Host.Outcome State Fault Refusal :=
  match decodeCmd w with
  | .reject _ => .next (if s.err.isNone then raise .illegalCommand w s else s)
  | .instr i =>
    if i.target = .sys then exec i s
    else if s.err.isSome then .next s
    else if s.busy i.target then .next (raise .agentBusy w s)
    else .next (accept i s)

/-- `RegWrite(idx, w)` (R110): a write to CMD issues a command, a reserved offset ignores the write (R54). -/
def regWrite (idx : BitVec 10) (w : Word) (s : State) : Host.Outcome State Fault Refusal :=
  match regAt idx with
  | none => .next s
  | some r => if r = .cmd then issue w s else .next (regStore r w s)

/-! ### The row-buffer port -/

/-- The byte a `RowRead(v, i)` returns (R111): 0 beyond the bank, any byte while FE is busy, else the stored byte. -/
def State.rowValue (s : State) (v : View) (i : BitVec 34) : Byte :=
  if s.params.rowbufBytes ≤ i.toNat then 0
  else if s.feBusy then Config.busyRowByte s.draws
  else s.mem.readByte (s.viewBank v) i.toNat

/-- `RowRead(v, i)` (R111): the host gets the byte; a read while FE is busy has drawn a free value. log 5 -/
def rowRead (v : View) (i : BitVec 34) (s : State) : State :=
  { s with
    draws := if ¬ s.params.rowbufBytes ≤ i.toNat ∧ s.feBusy = true then s.draws + 1 else s.draws }.emit
    (.rowValue v i (s.rowValue v i))

/-- The detail word of BusyWrite: {view [31], index [30:0]}, index bits above 30 dropped (R402). -/
def busyWriteInfo (v : View) (i : BitVec 34) : Word :=
  BitVec.ofBool (decide (v = .prev)) ++ i.extractLsb' 0 31

/-- `RowWrite(v, i, b)` (R111). -/
def rowWrite (v : View) (i : BitVec 34) (b : Byte) (s : State) : State :=
  if s.params.rowbufBytes ≤ i.toNat then s
  else if s.feBusy then raise .busyWrite (busyWriteInfo v i) s
  else { s with mem := s.mem.writeByte (s.viewBank v) i.toNat b }

/-! ### The streams -/

/-- HOST `TakeOut()` (R104). -/
def takeOut (s : State) : State :=
  match s.out.q with
  | [] => s
  | b :: q => { s with out := { s.out with q := q } }.emit (.outByte b)

/-- DEF `TakeZout()` (R104). -/
def takeZout (s : State) : State :=
  match s.zout.q with
  | [] => s
  | b :: q => { s with zout := { s.zout with q := q } }.emit (.zoutByte b)

/-- INF `Request(n)`: enabled when no request is pending (R104, R59). -/
def adpRequest (n : Word) (s : State) : State := if s.adp.isNone then { s with adp := some n } else s

/-! ### The agents' steps -/

/-- FR's next segment (R120): the command accepted starts; a holding one goes on from its hold point; idle, FR has no
such step. A hold whose stream is still empty and not ended leaves the state as it is (R102). -/
def frRun (s : State) : Host.Outcome State Fault Refusal :=
  match s.fr with
  | .idle => .next s
  | .accepted i => exec i s
  | .reading need got p => .next (readLoop s.inp.q need got p s)
  | .flushing => .next (flushLoop s.cz.q s)

/-- FR, idle, takes up the pending ADP request (R230, R232); the request word is decoded as R143 says. -/
def frServe (s : State) : Host.Outcome State Fault Refusal :=
  match s.fr, s.adp with
  | .idle, some n =>
    match decode .adp n with
    | .instr i => exec i s
    | .reject _ => .next s
  | _, _ => .next s

/-- FE's next segment (R120). -/
def feRun (s : State) : Host.Outcome State Fault Refusal :=
  match s.fe with
  | .idle => .next s
  | .accepted i => exec i s
  | .row n k => .next (rowLoop s.zin.q n k s)

/-- One atomic step (R120). An agent that has no step where the schedule names it leaves the state as it is. log 1 -/
def perform (e : Event) (s : State) : Host.Outcome State Fault Refusal :=
  match e with
  | .regRead idx => .next (s.emit (.regValue idx (s.regRead idx)))
  | .regWrite idx w => regWrite idx w s
  | .rowRead v i => .next (rowRead v i s)
  | .rowWrite v i b => .next (rowWrite v i b s)
  | .pushIn b => .next { s with inp := s.inp.push b }
  | .endIn => .next { s with inp := s.inp.finish }
  | .takeOut => .next (takeOut s)
  | .pushZin b => .next { s with zin := s.zin.push b }
  | .endZin => .next { s with zin := s.zin.finish }
  | .request n => .next (adpRequest n s)
  | .takeZout => .next (takeZout s)
  | .pushCz b => .next { s with cz := s.cz.push b }
  | .endCz => .next { s with cz := s.cz.finish }
  | .frRun => frRun s
  | .frServe => frServe s
  | .frSegment => .next (segmenterStep s)
  | .feRun => feRun s
  | .powerOn => .next (powerOnReset s)

/-- The state in which the next step runs the word `w` of a port: an ADP word is made the pending request of an idle FR;
a command of FR or FE is made the command its agent has accepted, and the agent's step comes next; every other word is
written to CMD next. log 2 -/
def placeWord (p : Port) (w : Word) (s : State) : State :=
  match p with
  | .adp => { s with fr := .idle, adp := some w, sched := .frServe :: s.sched }
  | .cmd =>
    match decodeCmd w with
    | .reject _ => { s with sched := .regWrite 2 w :: s.sched }
    | .instr i =>
      match i.target with
      | .sys => { s with sched := .regWrite 2 w :: s.sched }
      | .fr => { accept i s with sched := .frRun :: s.sched }
      | .fe => { accept i s with sched := .feRun :: s.sched }

end Sys2Proof.Machine
end

