-- ==== Sys2Proof/Machine/Step.lean ====
section
/-! DEFINITION. One step of PNGCORE (20_memory.md R120), and where the next instruction is placed. -/

namespace Sys2Proof.Machine

/-- One step: the first event of the schedule is performed; with no event left nothing happens, and PNGCORE waits (R440,
R462). log 1 -/
def step (s : State) : Host.Outcome State Fault Refusal :=
  match s.sched with
  | [] => .next s
  | e :: rest => perform e { s with sched := rest }

/-- `s` with the table row word `w` of `nbits` bits placed so that the next step runs it. log 2 -/
def State.withFetchWord (s : State) (nbits w : Nat) : State :=
  placeWord (tablePort nbits) (BitVec.ofNat 32 (w % 2 ^ nbits)) s

end Sys2Proof.Machine
end

