-- ==== Sys2Proof/Machine/Assembler.lean ====
section
/-! DEFINITION. The program statements of 30_encoding.md R147 as lists of atomic steps, and the pseudo-instructions with
their expansions. The text form is not modelled: a statement stands here with its operands already read. -/

namespace Sys2Proof.Machine

/-- The word index of a register: its offset / 4 (R33). -/
def Reg.index (r : Reg) : BitVec 10 :=
  match r with
  | .id => 0
  | .version => 1
  | .cmd => 2
  | .status => 3
  | .err => 4
  | .errInfo => 5
  | .stage => 6
  | .crcValue => 7
  | .crcState => 8
  | .chunkLen => 9
  | .chunkTag => 10
  | .idatRemain => 11
  | .width => 12
  | .height => 13
  | .hdrFmt => 14
  | .hdrIl => 15
  | .rowSizeLo => 16
  | .rowSizeHi => 17
  | .rowY => 18
  | .bufSel => 19
  | .frResult => 20
  | .feResult => 21
  | .idatMax => 22
  | .level => 23
  | .segFill => 24
  | .segMax => 25
  | .idatCount => 26
  | .irqEn => 27

/-- A program statement (R147). -/
inductive Stmt where
  /-- A command: one register write of its word to CMD. -/
  | command (i : Instr)
  /-- `WR <reg>, <value>`. -/
  | wr (r : Reg) (w : Word)
  /-- `RD <reg>`. -/
  | rd (r : Reg)
  /-- `RBW cur|prev, <index>, <byte>`. -/
  | rbw (v : View) (i : BitVec 34) (b : Byte)
  /-- `RBR cur|prev, <index>`. -/
  | rbr (v : View) (i : BitVec 34)
  /-- `PUSH_IN <bytes>`. -/
  | pushIn (d : List Byte)
  /-- `END_IN`. -/
  | endIn
  /-- `TAKE_OUT`. -/
  | takeOut
  /-- `INF.REQ <n>`. -/
  | infReq (n : Word)
  /-- `INF.PUSH <bytes>`. -/
  | infPush (d : List Byte)
  /-- `INF.END`. -/
  | infEnd
  /-- `DEF.TAKE`. -/
  | defTake
  /-- `DEF.PUSH <bytes>`. -/
  | defPush (d : List Byte)
  /-- `DEF.END`. -/
  | defEnd
  deriving DecidableEq, Repr

/-- The atomic steps a statement stands for (R147). `INF.REQ` makes the request pending (R104) and lets FR take it up in
the very next step, the model's choice of an order the spec leaves open. log 20 -/
def Stmt.events : Stmt → List Event
  | .command i => [.regWrite 2 (encode i)]
  | .wr r w => [.regWrite r.index w]
  | .rd r => [.regRead r.index]
  | .rbw v i b => [.rowWrite v i b]
  | .rbr v i => [.rowRead v i]
  | .pushIn d => d.map Event.pushIn
  | .endIn => [.endIn]
  | .takeOut => [.takeOut]
  | .infReq n => [.request n, .frServe]
  | .infPush d => d.map Event.pushZin
  | .infEnd => [.endZin]
  | .defTake => [.takeZout]
  | .defPush d => d.map Event.pushCz
  | .defEnd => [.endCz]

/-- One pass of `WAIT_FR` with FR's step before its read of STATUS; the pass is repeated while bit 0 is 1 (R147).
Where FR's step stands is the model's choice. log 20 -/
def waitFr : List Event := [.frRun, .regRead Reg.status.index]

/-- One pass of `WAIT_FE` with FE's step before its read of STATUS; the pass is repeated while bit 1 is 1 (R147).
Where FE's step stands is the model's choice. log 20 -/
def waitFe : List Event := [.feRun, .regRead Reg.status.index]

/-- `CRC_BYTES b0, ..., bk` (R147). -/
def crcBytes : List Byte → List Event
  | [] => []
  | b :: d => (Stmt.command (.crcByte b)).events ++ waitFr ++ crcBytes d

/-- `CRC_OF b0, ..., bk` (R147). -/
def crcOf (d : List Byte) : List Event :=
  (Stmt.command .crcInit).events ++ waitFr ++ crcBytes d ++ (Stmt.rd .crcValue).events

/-- `OPEN` (R147). -/
def openFile : List Event := (Stmt.command .frOpen).events ++ waitFr

/-- `ROW` (R147). -/
def decodeRow : List Event := (Stmt.command .feRecon).events ++ waitFe ++ (Stmt.rd .feResult).events

/-- `APPLY f` (R147). -/
def applyRowWith (f : BitVec 3) : List Event := (Stmt.command (.feApply f)).events ++ waitFe

end Sys2Proof.Machine
end

