-- ==== Sys2Proof/Safety.lean ====
section
/-! DEFINITION. What counts as a safe run, in the terms the statements use: runs of events, the successful ends of R462,
and the invariant of the machine. -/

namespace Sys2Proof.Machine

/-- Perform a list of atomic steps in order (20_memory.md R120). -/
def runEvents : List Event → State → Host.Outcome State Fault Refusal
  | [], s => .next s
  | e :: es, s =>
    match perform e s with
    | .next t => runEvents es t
    | .fault r => .fault r
    | .refused r => .refused r

/-- The end of a successful decode run (R462). -/
def State.decodeSuccess (s : State) : Prop := s.dstage = .seenEnd ∧ s.eor = true ∧ s.err = none

/-- The end of a successful encode run (R462). -/
def State.encodeSuccess (s : State) : Prop := s.estage = .ended ∧ s.err = none

/-- A header has been accepted in this session (R204, R271). -/
def State.hasHeader (s : State) : Prop := s.dstage ≠ .start ∨ 2 ≤ s.estage.num

/-- A header of width `w` and height `h`, with HDR_FMT `fmt` and HDR_IL `il`, passes every check its acceptance makes
(R204, R271). -/
structure AcceptedHeader (p : Config.Params) (w h fmt il : Word) : Prop where
  width_pos : 1 ≤ w.toNat
  width_le : w.toNat ≤ p.maxWidth
  height_pos : 1 ≤ h.toNat
  height_lt : h.toNat < 2 ^ 31
  no_overflow : w.toNat * h.toNat * 8 < 2 ^ 63
  profile : fmt = 0x00000608
  no_interlace : il = 0

/-- The header registers hold a header that passes every check (R204, R271). -/
abbrev State.DimsAccepted (s : State) : Prop := AcceptedHeader s.params s.width s.height s.hdrFmt s.hdrIl

/-- How many bytes the `ReadIn` of a point reads, `remain` being IDAT_REMAIN (41_framer_decode.md). -/
def FrPoint.size (p : FrPoint) (remain : Word) : Nat :=
  match p with
  | .sig _ => 8
  | .header _ => 8
  | .ihdr _ => 13
  | .ihdrCrc _ => 4
  | .skip _ _ => 1
  | .skipCrc _ => 4
  | .closeDataCrc => 4
  | .closeHeader => 8
  | .closeIendCrc => 4
  | .adpCrc _ => 4
  | .adpHeader _ => 8
  | .adpData n => min n.toNat remain.toNat

/-- What holds of the session while FR holds at a point (41_framer_decode.md): the state checks and header checks its
pseudocode has passed. -/
def FrPoint.holds (p : FrPoint) (s : State) : Prop :=
  match p with
  | .sig _ => s.sigOk = false ∧ s.dstage = .start
  | .header _ => s.sigOk = true ∧ (s.dstage = .start ∨ s.dstage = .seenHeader)
  | .ihdr _ => s.sigOk = true ∧ s.dstage = .start
  | .ihdrCrc _ => s.sigOk = true ∧ s.dstage = .start ∧ s.DimsAccepted
  | .skip _ _ => s.sigOk = true ∧ (s.dstage = .start ∨ s.dstage = .seenHeader)
  | .skipCrc _ => s.sigOk = true ∧ (s.dstage = .start ∨ s.dstage = .seenHeader)
  | .closeDataCrc => s.dstage = .seenData
  | .closeHeader => s.dstage = .seenData
  | .closeIendCrc => s.dstage = .seenData
  | .adpCrc n => s.dstage = .seenData ∧ s.adp = some n ∧ n ≠ 0 ∧ s.idatRemain = 0
  | .adpHeader n => s.dstage = .seenData ∧ s.adp = some n ∧ n ≠ 0 ∧ s.idatRemain = 0
  | .adpData n => s.dstage = .seenData ∧ s.adp = some n ∧ n ≠ 0 ∧ s.idatRemain ≠ 0 ∧
      s.idatRemain.toNat ≤ maxChunkLength

/-- The invariant of PNGCORE: what the spec's prose says of every state of a session. -/
structure State.Inv (s : State) : Prop where
  /-- The row-buffer bytes are in their canonical form. -/
  mem_wf : s.mem.wf = true
  /-- MAX_WIDTH is in the range of R6. -/
  params_legal : s.params.legal
  /-- An invalid session has both agents idle (R401, R403, R406). -/
  invalid_idle : s.err.isSome = true → s.fr = .idle ∧ s.fe = .idle
  /-- ERR_INFO is written together with ERR and only then (R38). -/
  info_with_err : s.err = none → s.errInfo = 0
  /-- "In a decode session ESTAGE stays 0" (R39), and the encode side's state is at its session values (R52). -/
  decode_side : s.mode = .decode → s.estage = .start ∧ s.segMax = 0 ∧ s.idatCount = 0
  /-- "in an encode session DSTAGE stays 0" (R39), and the decode side's state is at its session values. -/
  encode_side : s.mode = .encode → s.dstage = .start ∧ s.idatRemain = 0 ∧ s.eor = false
  /-- SIG_OK stands before every later stage (R55, R221, R275). -/
  sig_first : s.dstage ≠ .start ∨ s.estage ≠ .start → s.sigOk = true
  /-- In an encode session SIG_OK records that FW_SIG has run (R55). -/
  sig_encode : s.mode = .encode → s.sigOk = true → s.estage ≠ .start
  /-- IDAT_MAX holds a legal value (R49). -/
  idatMax_legal : 1 ≤ s.idatMax.toNat ∧ s.idatMax.toNat ≤ Config.maxSeg
  /-- LEVEL never holds 3 (R50). -/
  level_legal : s.level ≠ 3
  /-- FR's accepted command is a command of FR (R142). -/
  fr_own : ∀ i, s.fr = .accepted i → i.target = .fr ∧ i.port = .cmd
  /-- FE's accepted command is a legal command of FE (R142). -/
  fe_own : ∀ i, s.fe = .accepted i → i.target = .fe ∧ i.wellFormed = true
  /-- With a header accepted the geometry is the header's, and both banks hold defined bytes over a row (R44, R45, R57,
  R62). -/
  geometry : s.hasHeader → s.DimsAccepted ∧ s.rowSize = rowSizeOf s.width ∧ s.rowY.toNat ≤ s.height.toNat ∧
    s.rowSize.toNat ≤ s.mem.bank0.zeroed ∧ s.rowSize.toNat ≤ s.mem.bank1.zeroed
  /-- Before a header is accepted the geometry is 0 (R44, R64). -/
  no_geometry : ¬ s.hasHeader → s.rowSize = 0 ∧ s.rowY = 0 ∧ s.bufSel = false
  /-- End-of-rows is returned only with every row delivered (R310). -/
  eor_done : s.eor = true → s.hasHeader ∧ s.rowY = s.height
  /-- While data chunks are in progress the segment buffer is not full (R272). -/
  seg_open : s.estage = .header → s.segMax.toNat ≤ Config.maxSeg ∧ s.seg.length < s.segMax.toNat
  /-- Outside that stage the segment buffer is empty (R64, R271, R273). -/
  seg_empty : s.estage ≠ .header → s.seg = []
  /-- "after `FW_FLUSH` the file has at least one data chunk" (R273), and every row was filtered. -/
  flushed : 3 ≤ s.estage.num → s.idatCount ≠ 0 ∧ s.rowY = s.height
  /-- FR holds in a `ReadIn` only in a decode session, with the checks of its point passed. -/
  fr_reading : ∀ need got p, s.fr = .reading need got p →
    s.mode = .decode ∧ 1 ≤ need ∧ need + got.length = p.size s.idatRemain ∧ p.holds s
  /-- FR holds in FW_FLUSH only with every row filtered (R273). -/
  fr_flushing : s.fr = .flushing → s.mode = .encode ∧ s.estage = .header ∧ s.rowY = s.height
  /-- FE holds in FE_RECON only inside a row that is still to be delivered (R310). -/
  fe_row : ∀ n k, s.fe = .row n k → s.mode = .decode ∧ (s.dstage = .seenData ∨ s.dstage = .seenEnd) ∧
    n = s.rowSize.toNat ∧ k < n ∧ s.rowY.toNat < s.height.toNat
  /-- No rule sets the end-of-stream bit of OUT or ZOUT (R103, R104). -/
  outputs_open : s.out.eos = false ∧ s.zout.eos = false

end Sys2Proof.Machine
end

