-- ==== Sys2Proof/Certificates/Slice0/Obligations.lean ====
section
/-! DEFINITION. The statements for the provers. Each docstring names the rule of spec/ it formalises. A form that ends in
an error is given as `raise reason info` of the state the command has made by then; what `raise` does is the statement
RaiseRecordsTheFirstError. -/

namespace Sys2Proof.Claims

open Sys2Proof.Machine

/-- `s` with `q` in IN. -/
def withIn (s : State) (q : List Byte) : State := { s with inp := { s.inp with q := q } }

/-- The common gate of a command of FR with word `w` (R142): it decodes to `i`; in an invalid session it is ignored; on a
busy FR it raises AgentBusy; otherwise FR becomes busy with it. -/
def FrGate (w : Word) (i : Instr) : Prop :=
  decodeCmd w = .instr i ∧ ∀ s : State,
    (s.err.isSome = true → issue w s = .next s) ∧
    (s.err = none → s.fr ≠ .idle → issue w s = .next (raise .agentBusy w s)) ∧
    (s.err = none → s.fr = .idle → issue w s = .next { s with fr := .accepted i })

/-- The common gate of a command of FE with word `w` (R142). -/
def FeGate (w : Word) (i : Instr) : Prop :=
  decodeCmd w = .instr i ∧ ∀ s : State,
    (s.err.isSome = true → issue w s = .next s) ∧
    (s.err = none → s.fe ≠ .idle → issue w s = .next (raise .agentBusy w s)) ∧
    (s.err = none → s.fe = .idle → issue w s = .next { s with fe := .accepted i })

/-- `w` is an illegal word (R145): no instruction; IllegalCommand with `w` as its detail, and nothing in an invalid
session. -/
def IllegalWord (w : Word) : Prop :=
  (∀ i, decodeCmd w ≠ .instr i) ∧ ∀ s : State,
    (s.err = none → issue w s = .next (raise .illegalCommand w s)) ∧
    (s.err.isSome = true → issue w s = .next s)

/-- What a `ReadIn(k)` at point `p` comes to when IN holds fewer than `k` bytes (R102): UnexpectedEOS on an ended IN, else a
hold; the bytes are taken. -/
def shortRead (k : Nat) (p : FrPoint) (s : State) : State :=
  if s.inp.eos = true then raise .unexpectedEOS 0 (withIn s [])
  else { withIn s [] with fr := .reading (k - s.inp.q.length) s.inp.q p }

/-- FR_STEP's state check passes (R221). -/
def scanReady (s : State) : Prop :=
  s.mode = .decode ∧ s.sigOk = true ∧ (s.dstage = .start ∨ s.dstage = .seenHeader)

/-- The header payload `p` passes the checks 1 to 7 of R204. -/
def headerPasses (maxWidth : Nat) (p : List Byte) : Prop :=
  p.length = 13 ∧ byteAt p 10 = 0 ∧ byteAt p 11 = 0 ∧ 0 < (be32At p 0).toInt ∧ 0 < (be32At p 4).toInt ∧
    (be32At p 0).toNat * (be32At p 4).toNat * 8 ≤ 2 ^ 63 - 1 ∧ byteAt p 8 = 8 ∧ byteAt p 9 = 6 ∧ byteAt p 12 = 0 ∧
    (be32At p 0).toNat ≤ maxWidth

/-- The first of the checks 1 to 7 of R204 that payload `p` fails, with its detail word. -/
def headerError (maxWidth : Nat) (p : List Byte) : Option (Reason × Word) :=
  if byteAt p 10 ≠ 0 then some (.compressionMethod, (byteAt p 10).setWidth 32)
  else if byteAt p 11 ≠ 0 then some (.filterMethod, (byteAt p 11).setWidth 32)
  else if (be32At p 0).toInt ≤ 0 then some (.nonPositiveDimension, be32At p 0)
  else if (be32At p 4).toInt ≤ 0 then some (.nonPositiveDimension, be32At p 4)
  else if (be32At p 0).toNat * (be32At p 4).toNat * 8 > 2 ^ 63 - 1 then some (.dimensionOverflow, 0)
  else if byteAt p 8 ≠ 8 ∨ byteAt p 9 ≠ 6 then some (.depthType, be32 0 0 (byteAt p 8) (byteAt p 9))
  else if byteAt p 12 ≠ 0 then some (.interlace, (byteAt p 12).setWidth 32)
  else if (be32At p 0).toNat > maxWidth then some (.rowTooWide, be32At p 0)
  else none

/-- `s` after the header registers were read from payload `p` of an IHDR chunk, `rest` left in IN (R201, R204). -/
def headerRead (s : State) (p rest : List Byte) : State :=
  { withIn s rest with
    chunkLen := 13
    chunkTag := 0x49484452
    crc := crcFeed 0x575E51F5 p
    width := be32At p 0
    height := be32At p 4
    hdrFmt := be32 (byteAt p 11) (byteAt p 10) (byteAt p 9) (byteAt p 8)
    hdrIl := (byteAt p 12).setWidth 32 }

/-- `s` after the header of width `w` was accepted: the geometry, and the first 1 + 4·w bytes of both banks zeroed
(R204, R271). -/
def rowsAccepted (s : State) (w : Word) : State :=
  { s with
    rowSize := 1 + 4 * w.setWidth 64
    rowY := 0
    bufSel := false
    mem := s.mem.zeroBoth (1 + 4 * w.toNat) }

/-- `t` is `s` after one segment of FW_FLUSH's loop (R273): `cs` are the payloads of the data chunks it writes (R262), and
the chunk registers and the CRC show the last of them (R260), or are as before where there is none. -/
def FlushSegment (s t : State) : Prop :=
  t.cz = { s.cz with q := [] } ∧
  (s.cz.eos = false →
    t.fr = .flushing ∧ t.estage = s.estage ∧ t.frResult = s.frResult ∧ t.seg.length < s.segMax.toNat) ∧
  (s.cz.eos = true → t.fr = .idle ∧ t.estage = .flushed ∧ t.frResult = 0 ∧ t.seg = []) ∧
  (∃ cs : List (List Byte), cs.flatten ++ t.seg = s.seg ++ s.cz.q ∧
    t.out = { s.out with q := s.out.q ++ (cs.map (chunkBytes tagIdat)).flatten } ∧
    t.idatCount = BitVec.ofNat 32 (min (s.idatCount.toNat + cs.length) 0xFFFFFFFF) ∧
    ((t.chunkLen, t.chunkTag, t.crc) = match cs.getLast? with
      | none => (s.chunkLen, s.chunkTag, s.crc)
      | some c => (BitVec.ofNat 32 c.length, 0x49444154, crcFeed 0xCA50F9E1 c)) ∧
    (s.cz.eos = false → ∀ c ∈ cs, c.length = s.segMax.toNat) ∧
    (s.cz.eos = true → (∀ c ∈ cs.dropLast, c.length = s.segMax.toNat) ∧
      (∀ c ∈ cs, c.length ≤ s.segMax.toNat ∧ (c = [] → cs = [[]] ∧ s.idatCount = 0)) ∧
      (s.idatCount = 0 → cs ≠ []))) ∧
  t = { s with
    cz := t.cz, fr := t.fr, estage := t.estage, frResult := t.frResult, seg := t.seg, out := t.out
    idatCount := t.idatCount, chunkLen := t.chunkLen, chunkTag := t.chunkTag, crc := t.crc }

/-- What event `e` may change while an error is recorded (R403), `s` before and `t` after it: each access and stream step
what its port's rule gives it, FR's serving step only the pending request, with the empty answer, and every other step
of FR and FE nothing. A reset is not spoken of. -/
def FrozenStep (e : Event) (s t : State) : Prop :=
  match e with
  | .regRead _ => t = { s with outputs := t.outputs }
  | .regWrite _ _ => t = { s with
      idatMax := t.idatMax, level := t.level, irqEn := t.irqEn, width := t.width, height := t.height }
  | .rowRead _ _ => t = { s with draws := t.draws, outputs := t.outputs }
  | .rowWrite v i _ => t = { s with mem := t.mem } ∧
      ∀ sel j, sel ≠ s.viewBank v ∨ j ≠ i.toNat → t.mem.readByte sel j = s.mem.readByte sel j
  | .pushIn _ => t = { s with inp := t.inp }
  | .endIn => t = { s with inp := t.inp }
  | .takeOut => t = { s with out := t.out, outputs := t.outputs }
  | .pushZin _ => t = { s with zin := t.zin }
  | .endZin => t = { s with zin := t.zin }
  | .request _ => t = { s with adp := t.adp }
  | .takeZout => t = { s with zout := t.zout, outputs := t.outputs }
  | .pushCz _ => t = { s with cz := t.cz }
  | .endCz => t = { s with cz := t.cz }
  | .frRun => t = s
  | .frServe => t = s ∨ t = { s with adp := none, outputs := s.outputs ++ [.adpResponse [] false] }
  | .frSegment => t = s
  | .feRun => t = s
  | .powerOn => True

/-- The event is a reset: a power-on reset, or a CMD write of SESSION_RESET (R341, R440). -/
def isReset (e : Event) : Prop :=
  e = .powerOn ∨ ∃ idx w m, e = .regWrite idx w ∧ regAt idx = some .cmd ∧ decodeCmd w = .instr (.sessionReset m)

/-- The events that are steps of FR or FE. -/
def isAgentStep (e : Event) : Prop := e = .frRun ∨ e = .frServe ∨ e = .frSegment ∨ e = .feRun

/-- Unless the command raised an error, ERR_INFO, the record of FE and the pending request are as before. -/
def keptUnlessRaised (s t : State) : Prop :=
  s.err = none → t.err = none → t.errInfo = s.errInfo ∧ t.fe = s.fe ∧ t.adp = s.adp

end Sys2Proof.Claims

open Sys2Proof Sys2Proof.Machine Sys2Proof.Claims

/-! ### Encoding and dispatch -/

/-- 30_encoding.md R148: one word of each row, written from the map and its worked encodings. -/
def Obligations.WordsOfTheMapDecode : Prop :=
  decode .cmd 0x00000000 = .instr .nop ∧
  decode .cmd 0x01000000 = .instr (.sessionReset .decode) ∧
  decode .cmd 0x01000001 = .instr (.sessionReset .encode) ∧
  decode .cmd 0x10000000 = .instr .crcInit ∧
  decode .cmd 0x11000049 = .instr (.crcByte 0x49) ∧
  decode .cmd 0x20000000 = .instr .frSig ∧
  decode .cmd 0x21000000 = .instr .frStep ∧
  decode .cmd 0x22000000 = .instr .frOpen ∧
  decode .cmd 0x23000000 = .instr .frClose ∧
  decode .cmd 0x30000000 = .instr .fwSig ∧
  decode .cmd 0x31000000 = .instr .fwIhdr ∧
  decode .cmd 0x32000000 = .instr .fwFlush ∧
  decode .cmd 0x33000000 = .instr .fwIend ∧
  decode .cmd 0x40000000 = .instr .feRecon ∧
  decode .cmd 0x41000004 = .instr (.feApply 4) ∧
  decode .adp 0x00000003 = .instr (.adpRead 3)

/-- 30_encoding.md R140, R141, R144, R148: on either port a word decodes to an instruction exactly when it is that
well-formed instruction's word on its port. -/
def Obligations.DecodeInvertsEncode : Prop :=
  ∀ (p : Port) (w : Word) (i : Instr),
    decode p w = .instr i ↔ i.wellFormed = true ∧ i.port = p ∧ encode i = w

/-- 30_encoding.md R145, R148: the CMD rows are disjoint; a word decodes to a command only by the row it selects, and a
rejected word selects no row, or FE_APPLY's with f above 4. -/
def Obligations.MapRowsAreDisjointAndComplete : Prop :=
  (∀ (w : Word) (i : Instr), decodeCmd w = .instr i →
    ∃ r, opcodeRows.filter (selectsRow .cmd w) = [r] ∧ r.mnemonic = i.mnemonic) ∧
  (∀ (w : Word) (why : Reject), decodeCmd w = .reject why →
    opcodeRows.filter (selectsRow .cmd w) = [] ∨
      (∃ r, opcodeRows.filter (selectsRow .cmd w) = [r] ∧ r.mnemonic = "FE_APPLY") ∧ 4 < (w.extractLsb' 0 3).toNat)

/-- 30_encoding.md R142, 41_framer_decode.md R230 and the model's schedule (logs 1 and 2): the step that takes up a word
runs the instruction the word decodes to, and nothing else. A SYS command runs in the CMD write, a command of FR or FE
in the first step of its agent after it was accepted, an ADP request in the step FR takes it up; and a word placed by
withFetchWord runs in the very next step. That FR's taking up a request and its first segment are one step (the frServe
clause and the last one) is the model's reading (log 12). -/
def Obligations.StepRunsTheDecodedInstruction : Prop :=
  (∀ (s : State) (w : Word) (i : Instr) (rest : List Event), s.sched = .regWrite 2 w :: rest →
    decodeCmd w = .instr i → i.target = .sys → step s = exec i { s with sched := rest }) ∧
  (∀ (s : State) (i : Instr) (rest : List Event), s.sched = .frRun :: rest → s.fr = .accepted i →
    step s = exec i { s with sched := rest }) ∧
  (∀ (s : State) (i : Instr) (rest : List Event), s.sched = .feRun :: rest → s.fe = .accepted i →
    step s = exec i { s with sched := rest }) ∧
  (∀ (s : State) (n : Word) (rest : List Event), s.sched = .frServe :: rest → s.fr = .idle → s.adp = some n →
    step s = exec (.adpRead n) { s with sched := rest }) ∧
  (∀ (s : State) (i : Instr), i.wellFormed = true → i.port = .cmd →
    step (s.withFetchWord 32 (encode i).toNat) = exec i (accept i s)) ∧
  (∀ s : State, step (s.withFetchWord 0 0) = exec (.adpRead 0) { s with fr := .idle, adp := some 0 })

/-- 30_encoding.md R145, R142: an illegal word raises IllegalCommand with the word as its detail, or is ignored while the
session is invalid. -/
def Obligations.IllegalWordsAreRecordedNotRun : Prop :=
  ∀ (s : State) (w : Word), (∀ i, decodeCmd w ≠ .instr i) →
    (s.err = none → issue w s = .next (raise .illegalCommand w s) ∧
      (raise .illegalCommand w s).err = some .illegalCommand ∧ (raise .illegalCommand w s).errInfo = w ∧
      (raise .illegalCommand w s).fr = .idle ∧ (raise .illegalCommand w s).fe = .idle) ∧
    (s.err.isSome = true → issue w s = .next s)

/-- 10_state.md R35, 20_memory.md R110, 30_encoding.md R142: a write to CMD issues the word, whatever it is; SYS commands
run at once, whatever is busy and whatever error is recorded; every other command passes the common gate of its agent. -/
def Obligations.CommandsAreDispatchedInOrder : Prop :=
  (∀ (s : State) (w : Word), perform (.regWrite 2 w) s = issue w s) ∧
  (∀ (s : State) (w : Word) (i : Instr), decodeCmd w = .instr i → i.target = .sys → issue w s = exec i s) ∧
  (∀ (w : Word) (i : Instr), decodeCmd w = .instr i → i.target = .fr → FrGate w i) ∧
  (∀ (w : Word) (i : Instr), decodeCmd w = .instr i → i.target = .fe → FeGate w i) ∧
  (∀ (w : Word) (i : Instr), decodeCmd w = .instr i →
    (i.target = .sys ↔ w.extractLsb' 28 4 = 0) ∧ (i.target = .fe ↔ w.extractLsb' 28 4 = 4))

/-- No step of PNGCORE stops: every command, access and stream step answers a next state (60_exceptions.md R401, R407;
93_implementation_defined.md U19). -/
def Obligations.EveryStepAnswersANextState : Prop := ∀ s : State, ∃ t, step s = .next t

/-! ### System -/

/-- 44_system.md R340: NOP changes nothing, busy or not, valid session or not, and every other word with opcode 0x00 is
illegal. -/
def Obligations.NopChangesNothing : Prop :=
  (∀ s : State, exec .nop s = .next s ∧ issue 0x00000000 s = .next s) ∧
  (∀ w : Word, opcOf w = 0x00 → w ≠ 0 → IllegalWord w)

/-- 44_system.md R341: SESSION_RESET m sets every listed piece of state, keeps IDAT_MAX, LEVEL, IRQ_EN and the banks, and
runs in the CMD write step in any state; a word with a 1 in ARG[23:1] is illegal. What STATUS reads is said where no
interrupt is enabled, the model's reading of R341's example (log 17); that the schedule, the draws, the parameter and the
record of outputs are kept is the model's choice (logs 1, 5, 7 and 3). -/
def Obligations.SessionResetStartsANewSession : Prop :=
  (∀ (m : Mode) (s : State), ∃ t, exec (.sessionReset m) s = .next t ∧
    t.fr = .idle ∧ t.fe = .idle ∧ t.adp = none ∧ t.outputs = s.outputs ∧
    t.inp = ⟨[], false⟩ ∧ t.out = ⟨[], false⟩ ∧ t.zin = ⟨[], false⟩ ∧ t.zout = ⟨[], false⟩ ∧ t.cz = ⟨[], false⟩ ∧
    t.mode = m ∧ t.sigOk = false ∧ t.eor = false ∧ t.err = none ∧ t.errInfo = 0 ∧ t.dstage = .start ∧
    t.estage = .start ∧ t.crc = 0xFFFFFFFF ∧ t.chunkLen = 0 ∧ t.chunkTag = 0 ∧ t.idatRemain = 0 ∧ t.width = 0 ∧
    t.height = 0 ∧ t.hdrFmt = 0 ∧ t.hdrIl = 0 ∧ t.rowSize = 0 ∧ t.rowY = 0 ∧ t.bufSel = false ∧ t.frResult = 0 ∧
    t.feResult = 0 ∧ t.seg = [] ∧ t.segMax = 0 ∧ t.idatCount = 0 ∧
    t.idatMax = s.idatMax ∧ t.level = s.level ∧ t.irqEn = s.irqEn ∧ t.mem = s.mem ∧
    t.stageWord = 0 ∧ (s.irqEn = 0 → t.statusWord = if m = .encode then 8 else 0) ∧
    t.params = s.params ∧ t.draws = s.draws ∧ t.sched = s.sched) ∧
  (∀ s : State, issue 0x01000000 s = exec (.sessionReset .decode) s ∧
    issue 0x01000001 s = exec (.sessionReset .encode) s) ∧
  (∀ w : Word, opcOf w = 0x01 → w.extractLsb' 1 23 ≠ 0 → IllegalWord w)

/-! ### CRC -/

/-- 40_crc.md R186: CRC_INIT resets the accumulator, behind the common gate. -/
def Obligations.CrcInitResetsTheAccumulator : Prop :=
  FrGate 0x10000000 .crcInit ∧
  (∀ s : State, exec .crcInit s = .next { s with crc := 0xFFFFFFFF, frResult := 0, fr := .idle }) ∧
  (∀ s t u : State, exec .crcInit s = .next t → exec .crcInit t = .next u → u = t ∧ u.crcValue = 0)

/-- 40_crc.md R187, R182: CRC_BYTE feeds one byte by eight bit steps, behind the common gate; ARG[23:8] must be 0. -/
def Obligations.CrcByteFeedsOneByte : Prop :=
  (∀ b : Byte, FrGate ((0x11 : BitVec 8) ++ (0 : BitVec 16) ++ b : BitVec 32) (.crcByte b)) ∧
  (∀ (b : Byte) (s : State), exec (.crcByte b) s = .next { s with
    crc := (fun r : Word => if r.getLsbD 0 = true then (r >>> 1) ^^^ 0xEDB88320 else r >>> 1)^[8]
      (s.crc ^^^ b.setWidth 32)
    frResult := 0
    fr := .idle }) ∧
  (∀ w : Word, opcOf w = 0x11 → w.extractLsb' 8 16 ≠ 0 → IllegalWord w)

/-- 40_crc.md R189: a change of one byte of a chunk's tag or payload, one bit or more, always changes its CRC, so the
check of R185 fails. -/
def Obligations.CrcDetectsAChangedByte : Prop :=
  (∀ (pre post : List Byte) (x y : Byte) (tag : List Byte), x ≠ y →
    chunkCrc tag (pre ++ x :: post) ≠ chunkCrc tag (pre ++ y :: post)) ∧
  (∀ (pre post : List Byte) (x y : Byte) (payload : List Byte), x ≠ y →
    chunkCrc (pre ++ x :: post) payload ≠ chunkCrc (pre ++ y :: post) payload)

/-! ### Framer, decode side -/

/-- 41_framer_decode.md R220: FR_SIG on every state and every content of IN. -/
def Obligations.FrSigChecksTheSignature : Prop :=
  FrGate 0x20000000 .frSig ∧ ∀ s : State,
    (s.mode ≠ .decode ∨ s.sigOk = true ∨ s.dstage ≠ .start → exec .frSig s = .next (raise .badState 0x20 s)) ∧
    (s.mode = .decode → s.sigOk = false → s.dstage = .start →
      (∀ rest, s.inp.q = [0x89, 0x50, 0x4E, 0x47, 0x0D, 0x0A, 0x1A, 0x0A] ++ rest →
        exec .frSig s = .next { withIn s rest with sigOk := true, frResult := 0, fr := .idle }) ∧
      (∀ b rest, s.inp.q = b ++ rest → b.length = 8 → b ≠ [0x89, 0x50, 0x4E, 0x47, 0x0D, 0x0A, 0x1A, 0x0A] →
        exec .frSig s = .next (raise .notPng 0 (withIn s rest))) ∧
      (s.inp.q.length < 8 → s.inp.eos = true → exec .frSig s = .next (raise .unexpectedEOS 0 (withIn s []))) ∧
      (s.inp.q.length < 8 → s.inp.eos = false → exec .frSig s = .next
        { withIn s [] with fr := .reading (8 - s.inp.q.length) s.inp.q (.sig false) }))

/-- 41_framer_decode.md R221, R204, R201: FR_STEP on a header chunk that passes every check. -/
def Obligations.FrStepAcceptsAHeader : Prop :=
  FrGate 0x21000000 .frStep ∧
  ∀ (s : State) (p rest : List Byte), scanReady s → s.dstage = .start → headerPasses s.params.maxWidth p →
    s.inp.q = chunkBytes tagIhdr p ++ rest →
    exec .frStep s = .next { rowsAccepted (headerRead s p rest) (be32At p 0) with
      dstage := .seenHeader, frResult := 1, fr := .idle }

/-- 41_framer_decode.md R204, 60_exceptions.md R405: the header checks run in their order; the first that fails is
recorded, with the header registers written and the CRC not read; a length other than 13 fails before the payload is
read, and a wrong CRC after all of them. -/
def Obligations.HeaderChecksRunInOrder : Prop :=
  ∀ (s : State) (rest : List Byte), scanReady s → s.dstage = .start →
    (∀ (p : List Byte) (r : Reason) (info : Word), p.length = 13 → headerError s.params.maxWidth p = some (r, info) →
      s.inp.q = [0x00, 0x00, 0x00, 0x0D, 0x49, 0x48, 0x44, 0x52] ++ p ++ rest →
      exec .frStep s = .next (raise r info (headerRead s p rest))) ∧
    (∀ len : Word, len ≠ 13 → s.inp.q = be32Bytes len ++ tagIhdr ++ rest →
      exec .frStep s = .next (raise .badIhdrLength len
        { withIn s rest with chunkLen := len, chunkTag := 0x49484452, crc := 0x575E51F5 })) ∧
    (∀ p c : List Byte, headerPasses s.params.maxWidth p → c.length = 4 → c ≠ be32Bytes (chunkCrc tagIhdr p) →
      s.inp.q = [0x00, 0x00, 0x00, 0x0D, 0x49, 0x48, 0x44, 0x52] ++ p ++ c ++ rest →
      exec .frStep s = .next (raise .checksumMismatch (be32At c 0) (headerRead s p rest)))

/-- 41_framer_decode.md R221: FR_STEP on the first data chunk records its length and starts its CRC over the tag. -/
def Obligations.FrStepFindsTheFirstDataChunk : Prop :=
  ∀ (s : State) (len : Word) (rest : List Byte), scanReady s → s.dstage = .seenHeader →
    s.inp.q = be32Bytes len ++ [0x49, 0x44, 0x41, 0x54] ++ rest →
    exec .frStep s = .next { withIn s rest with
      chunkLen := len, chunkTag := 0x49444154, crc := 0xCA50F9E1, idatRemain := len, dstage := .seenData,
      frResult := 2, fr := .idle }

/-- 41_framer_decode.md R203, R221: FR_STEP skips any other chunk whose CRC agrees, before and after the header chunk; a
CRC that differs and a length above 0x7FFFFFFF are errors. -/
def Obligations.FrStepSkipsAnOtherChunk : Prop :=
  ∀ (s : State) (tag rest : List Byte), scanReady s → tag.length = 4 → tag ≠ tagIhdr → tag ≠ tagIdat →
    tag ≠ tagIend →
    (∀ payload : List Byte, payload.length ≤ 0x7FFFFFFF → s.inp.q = chunkBytes tag payload ++ rest →
      exec .frStep s = .next { withIn s rest with
        chunkLen := BitVec.ofNat 32 payload.length, chunkTag := be32At tag 0
        crc := crcFeed (crcFeed 0xFFFFFFFF tag) payload, frResult := 3, fr := .idle }) ∧
    (∀ payload c : List Byte, payload.length ≤ 0x7FFFFFFF → c.length = 4 → c ≠ be32Bytes (chunkCrc tag payload) →
      s.inp.q = be32Bytes (BitVec.ofNat 32 payload.length) ++ tag ++ payload ++ c ++ rest →
      exec .frStep s = .next (raise .checksumMismatch (be32At c 0) { withIn s rest with
        chunkLen := BitVec.ofNat 32 payload.length, chunkTag := be32At tag 0
        crc := crcFeed (crcFeed 0xFFFFFFFF tag) payload })) ∧
    (∀ len : Word, len.toNat > 0x7FFFFFFF → s.inp.q = be32Bytes len ++ tag ++ rest →
      exec .frStep s = .next (raise .badChunkLength len { withIn s rest with
        chunkLen := len, chunkTag := be32At tag 0, crc := crcFeed 0xFFFFFFFF tag }))

/-- 41_framer_decode.md R223, R221: in `Start` and `SeenHeader` a header chunk after the header, a data chunk before it
and a terminal chunk are out of order; in the other states, and without the signature, FR_STEP is refused. -/
def Obligations.ChunkOrderIsEnforced : Prop :=
  (∀ (s : State) (len : Word) (tag rest : List Byte), scanReady s →
    (tag = tagIhdr ∧ s.dstage = .seenHeader) ∨ (tag = tagIdat ∧ s.dstage = .start) ∨ tag = tagIend →
    s.inp.q = be32Bytes len ++ tag ++ rest →
    exec .frStep s = .next (raise .chunkOrder (be32At tag 0) { withIn s rest with
      chunkLen := len, chunkTag := be32At tag 0, crc := crcFeed 0xFFFFFFFF tag })) ∧
  (∀ s : State, ¬ scanReady s → exec .frStep s = .next (raise .badState 0x21 s))

/-- 41_framer_decode.md R222: FR_OPEN of a file that begins with the signature, a header chunk that passes every check
and the header of a data chunk. -/
def Obligations.FrOpenReachesTheFirstDataChunk : Prop :=
  FrGate 0x22000000 .frOpen ∧
  (∀ (s : State) (p rest : List Byte) (len : Word), s.mode = .decode → s.sigOk = false → s.dstage = .start →
    headerPasses s.params.maxWidth p →
    s.inp.q = sigBytes ++ (chunkBytes tagIhdr p ++ (be32Bytes len ++ tagIdat ++ rest)) →
    exec .frOpen s = .next { rowsAccepted (headerRead s p rest) (be32At p 0) with
      sigOk := true, chunkLen := len, chunkTag := 0x49444154, crc := 0xCA50F9E1, idatRemain := len
      dstage := .seenData, frResult := 2, fr := .idle }) ∧
  (∀ s : State, s.mode ≠ .decode ∨ s.dstage = .seenData ∨ s.dstage = .seenEnd →
    exec .frOpen s = .next (raise .badState 0x22 s))

/-- 41_framer_decode.md R222, 70_reset_and_hazards.md R442 ("`FR_OPEN` may be replaced by `FR_SIG` and then `FR_STEP`
until FR_RESULT = 2"): a step that succeeds can be taken out of FR_OPEN's front without changing what FR_OPEN does, and a
step that ends in an error is FR_OPEN's own end ("Errors: those of `FR_SIG` and `FR_STEP`"). Where FR_OPEN ends in an
error after a body that completed, this says that FR_RESULT keeps what the completed bodies wrote, the model's reading
(log 19). -/
def Obligations.FrOpenIsRepeatedFrStep : Prop :=
  (∀ s t : State, s.fr.serving = false → s.mode = .decode → s.sigOk = false → s.dstage = .start →
    exec .frSig s = .next t → t.fr = .idle → t.err = none → exec .frOpen s = exec .frOpen t) ∧
  (∀ s t : State, s.fr.serving = false → scanReady s → exec .frStep s = .next t → t.fr = .idle → t.err = none →
    (t.dstage = .seenData → exec .frOpen s = .next t) ∧
    (t.dstage ≠ .seenData → exec .frOpen s = exec .frOpen t)) ∧
  (∀ s t : State, s.fr.serving = false → s.err = none → s.mode = .decode → s.sigOk = false → s.dstage = .start →
    exec .frSig s = .next t → t.err ≠ none → exec .frOpen s = .next t) ∧
  (∀ s t : State, s.fr.serving = false → s.err = none → scanReady s → exec .frStep s = .next t → t.err ≠ none →
    exec .frOpen s = .next t)

/-- 41_framer_decode.md R224: FR_CLOSE, its results and its errors, for every content of IN that is long enough. -/
def Obligations.FrCloseChecksTheEnd : Prop :=
  FrGate 0x23000000 .frClose ∧ ∀ s : State,
    (s.mode ≠ .decode ∨ s.dstage = .start ∨ s.dstage = .seenHeader →
      exec .frClose s = .next (raise .badState 0x23 s)) ∧
    (s.mode = .decode → s.dstage = .seenEnd → exec .frClose s = .next { s with frResult := 1, fr := .idle }) ∧
    (s.mode = .decode → s.dstage = .seenData → ∀ c rest : List Byte, c.length = 4 →
      (s.inp.q = c ++ rest → c ≠ be32Bytes s.crcValue →
        exec .frClose s = .next (raise .checksumMismatch (be32At c 0) ((withIn s rest).emit .infClose))) ∧
      (∀ (len : Word) (tag : List Byte), s.inp.q = be32Bytes s.crcValue ++ (be32Bytes len ++ tag ++ rest) →
        tag.length = 4 → len ≠ 0 ∨ tag ≠ tagIend →
        exec .frClose s = .next (raise (if len ≠ 0 then .badIendLength else .notIend)
          (if len ≠ 0 then len else be32At tag 0)
          { (withIn s rest).emit .infClose with
            chunkLen := len, chunkTag := be32At tag 0, crc := crcFeed 0xFFFFFFFF tag })) ∧
      (s.inp.q = be32Bytes s.crcValue ++ ([0x00, 0x00, 0x00, 0x00, 0x49, 0x45, 0x4E, 0x44] ++ c ++ rest) →
        c ≠ [0xAE, 0x42, 0x60, 0x82] →
        exec .frClose s = .next (raise .checksumMismatch (be32At c 0)
          { (withIn s rest).emit .infClose with chunkLen := 0, chunkTag := 0x49454E44, crc := 0x51BD9F7D })) ∧
      (s.inp.q = be32Bytes s.crcValue ++
          ([0x00, 0x00, 0x00, 0x00, 0x49, 0x45, 0x4E, 0x44, 0xAE, 0x42, 0x60, 0x82] ++ rest) →
        exec .frClose s = .next { (withIn s rest).emit .infClose with
          chunkLen := 0, chunkTag := 0x49454E44, crc := 0x51BD9F7D, dstage := .seenEnd, frResult := 0, fr := .idle }))

/-- 41_framer_decode.md R230: the ADP service where the present data chunk has bytes left, and where it does not read IN
at all: the response never crosses the end of the chunk. -/
def Obligations.AdpReadDeliversPayload : Prop :=
  (∀ (n : Word) (s : State), s.err.isSome = true →
    exec (.adpRead n) s = .next { s with
      adp := none, fr := .idle, outputs := s.outputs ++ [.adpResponse [] false] }) ∧
  (∀ (n : Word) (s : State), s.err = none → s.mode ≠ .decode ∨ s.dstage ≠ .seenData →
    exec (.adpRead n) s = .next (raise .badState 0xAD { s with fr := .accepted (.adpRead n) })) ∧
  (∀ s : State, s.err = none → s.mode = .decode → s.dstage = .seenData →
    exec (.adpRead 0) s = .next { s with
      adp := none, fr := .idle, outputs := s.outputs ++ [.adpResponse [] true] }) ∧
  (∀ (n : Word) (s : State) (d rest : List Byte), s.err = none → s.mode = .decode → s.dstage = .seenData → n ≠ 0 →
    s.idatRemain ≠ 0 → s.idatRemain.toNat ≤ 0x7FFFFFFF → d.length = min n.toNat s.idatRemain.toNat →
    s.inp.q = d ++ rest →
    exec (.adpRead n) s = .next { withIn s rest with
      crc := crcFeed s.crc d, idatRemain := BitVec.ofNat 32 (s.idatRemain.toNat - d.length)
      adp := none, fr := .idle, outputs := s.outputs ++ [.adpResponse d true] }) ∧
  (∀ (n : Word) (s : State), s.err = none → s.mode = .decode → s.dstage = .seenData → n ≠ 0 →
    s.idatRemain.toNat > 0x7FFFFFFF →
    exec (.adpRead n) s = .next (raise .idatLengthOverflow s.idatRemain { s with fr := .accepted (.adpRead n) }))

/-- 41_framer_decode.md R230: with the present data chunk exhausted, the service verifies its CRC and enters the next
data chunk, zero-length ones included, and then serves as from that chunk; a wrong CRC and any other chunk are errors,
answered ([], 0). -/
def Obligations.AdpReadCrossesIntoTheNextChunk : Prop :=
  ∀ (n : Word) (s : State) (rest : List Byte), s.err = none → s.mode = .decode → s.dstage = .seenData → n ≠ 0 →
    s.idatRemain = 0 →
    (∀ len : Word, s.inp.q = be32Bytes s.crcValue ++ (be32Bytes len ++ tagIdat ++ rest) →
      exec (.adpRead n) s = exec (.adpRead n) { withIn s rest with
        chunkLen := len, chunkTag := 0x49444154, idatRemain := len, crc := 0xCA50F9E1 }) ∧
    (∀ (len : Word) (tag : List Byte), s.inp.q = be32Bytes s.crcValue ++ (be32Bytes len ++ tag ++ rest) →
      tag.length = 4 → tag ≠ tagIdat →
      exec (.adpRead n) s = .next (raise .notEnoughPixelData (be32At tag 0)
        { withIn s rest with chunkLen := len, chunkTag := be32At tag 0, fr := .accepted (.adpRead n) })) ∧
    (∀ c : List Byte, s.inp.q = c ++ rest → c.length = 4 → c ≠ be32Bytes s.crcValue →
      exec (.adpRead n) s = .next (raise .checksumMismatch (be32At c 0)
        { withIn s rest with fr := .accepted (.adpRead n) }))

/-- 41_framer_decode.md R232: the ADP service and FR commands exclude each other. A serving step that the schedule names
while FR is busy leaves the state as it is (log 1); that taking up a request and its first segment are one step is the
model's reading (log 12). -/
def Obligations.AdpServiceAndCommandsExcludeEachOther : Prop :=
  (∀ s : State, s.fr ≠ .idle → perform .frServe s = .next s) ∧
  (∀ (s : State) (n : Word), s.fr = .idle → s.adp = some n → perform .frServe s = exec (.adpRead n) s) ∧
  (∀ (s : State) (w : Word) (i : Instr), s.err = none → s.fr.serving = true → decodeCmd w = .instr i →
    i.target = .fr → issue w s = .next (raise .agentBusy w s))

/-- 20_memory.md R102, R105: FR in a `ReadIn` of which IN holds too few bytes: on an ended IN it raises UnexpectedEOS
with the bytes taken consumed; on an open one it holds, the bytes taken; holding with nothing new, it has no step. The
same at the first `ReadIn` of FR_STEP, FR_OPEN, FR_CLOSE and the ADP service (FR_SIG's is in FrSigChecksTheSignature).
That a step the schedule gives an agent without one leaves the state as it is is the model's choice (log 1). -/
def Obligations.ReadInHoldsOrEnds : Prop :=
  (∀ (s : State) (need : Nat) (got : List Byte) (p : FrPoint), s.fr = .reading need got p → s.inp.q.length < need →
    (s.inp.eos = true → perform .frRun s = .next (raise .unexpectedEOS 0 (withIn s []))) ∧
    (s.inp.eos = false → perform .frRun s = .next { withIn s [] with
      fr := .reading (need - s.inp.q.length) (got ++ s.inp.q) p }) ∧
    (s.inp.eos = false → s.inp.q = [] → perform .frRun s = .next s)) ∧
  (∀ s : State, scanReady s → s.inp.q.length < 8 →
    exec .frStep s = .next (shortRead 8 (.header false) s) ∧
    exec .frOpen s = .next (shortRead 8 (.header true) s)) ∧
  (∀ s : State, s.mode = .decode → s.sigOk = false → s.dstage = .start → s.inp.q.length < 8 →
    exec .frOpen s = .next (shortRead 8 (.sig true) s)) ∧
  (∀ s : State, s.mode = .decode → s.dstage = .seenData → s.inp.q.length < 4 →
    exec .frClose s = .next (shortRead 4 .closeDataCrc (s.emit .infClose))) ∧
  (∀ (s : State) (n : Word), s.err = none → s.mode = .decode → s.dstage = .seenData → n ≠ 0 →
    (s.idatRemain = 0 → s.inp.q.length < 4 →
      exec (.adpRead n) s = .next (shortRead 4 (.adpCrc n) { s with fr := .accepted (.adpRead n) })) ∧
    (s.idatRemain ≠ 0 → s.idatRemain.toNat ≤ 0x7FFFFFFF → s.inp.q.length < min n.toNat s.idatRemain.toNat →
      exec (.adpRead n) s = .next (shortRead (min n.toNat s.idatRemain.toNat) (.adpData n)
        { s with fr := .accepted (.adpRead n) })))

/-- 20_memory.md R102, R120, R121: how the bytes of IN arrive does not matter. A segment of FR that finds all of `d` in
IN, and one that runs, holds, and goes on after `d` was pushed, end in the same state; and so do the two where IN ends
after `d`, so that every `ReadIn` that an ended IN cuts short (R105) comes to the same from a hold as within a segment.
Where the first run ends the command, the second one finds FR idle and leaves the state as it is (log 1). -/
def Obligations.InputMayArriveInPieces : Prop :=
  ∀ (s : State) (d : List Byte), s.inp.eos = false →
    (∃ need got p, s.fr = .reading need got p) ∨ (∃ i, s.fr = .accepted i ∧ i.target = .fr) →
    runEvents (d.map Event.pushIn ++ [.frRun]) s = runEvents ([.frRun] ++ d.map Event.pushIn ++ [.frRun]) s ∧
    runEvents (d.map Event.pushIn ++ [.endIn, .frRun]) s =
      runEvents ([.frRun] ++ d.map Event.pushIn ++ [.endIn, .frRun]) s

/-! ### Framer, encode side -/

/-- 42_framer_encode.md R270: FW_SIG. -/
def Obligations.FwSigWritesTheSignature : Prop :=
  FrGate 0x30000000 .fwSig ∧ ∀ s : State,
    (s.mode ≠ .encode ∨ s.estage ≠ .start → exec .fwSig s = .next (raise .badState 0x30 s)) ∧
    (s.mode = .encode → s.estage = .start → exec .fwSig s = .next { s with
      out := { s.out with q := s.out.q ++ [0x89, 0x50, 0x4E, 0x47, 0x0D, 0x0A, 0x1A, 0x0A] }
      sigOk := true, estage := .sig, frResult := 0, fr := .idle })

/-- 42_framer_encode.md R271, R260, R261: FW_IHDR, its checks in their order and what it writes. -/
def Obligations.FwIhdrWritesTheHeader : Prop :=
  FrGate 0x31000000 .fwIhdr ∧ ∀ s : State,
    (s.mode ≠ .encode ∨ s.estage ≠ .sig → exec .fwIhdr s = .next (raise .badState 0x31 s)) ∧
    (s.mode = .encode → s.estage = .sig →
      (s.width.toInt ≤ 0 → exec .fwIhdr s = .next (raise .nonPositiveDimension s.width s)) ∧
      (0 < s.width.toInt → s.height.toInt ≤ 0 →
        exec .fwIhdr s = .next (raise .nonPositiveDimension s.height s)) ∧
      (0 < s.width.toInt → 0 < s.height.toInt → s.width.toNat * s.height.toNat * 8 > 2 ^ 63 - 1 →
        exec .fwIhdr s = .next (raise .dimensionOverflow 0 s)) ∧
      (0 < s.width.toInt → 0 < s.height.toInt → s.width.toNat * s.height.toNat * 8 ≤ 2 ^ 63 - 1 →
        s.width.toNat > s.params.maxWidth → exec .fwIhdr s = .next (raise .rowTooWide s.width s)) ∧
      (0 < s.width.toInt → 0 < s.height.toInt → s.width.toNat * s.height.toNat * 8 ≤ 2 ^ 63 - 1 →
        s.width.toNat ≤ s.params.maxWidth → ∀ payload : List Byte,
        payload = be32Bytes s.width ++ be32Bytes s.height ++ [8, 6, 0, 0, 0] →
        exec .fwIhdr s = .next { rowsAccepted s s.width with
          hdrFmt := 0x00000608, hdrIl := 0, chunkLen := 13, chunkTag := 0x49484452
          crc := crcFeed 0x575E51F5 payload
          out := { s.out with q := s.out.q ++ ([0x00, 0x00, 0x00, 0x0D, 0x49, 0x48, 0x44, 0x52] ++ payload ++
            be32Bytes (crcFeed 0x575E51F5 payload ^^^ 0xFFFFFFFF)) }
          segMax := s.idatMax, seg := [], idatCount := 0, estage := .header, frResult := 0, fr := .idle }))

/-- 42_framer_encode.md R271 ("every header the encoder writes is one the decoder accepts"): the chunk FW_IHDR appends to
OUT, put into IN of a decode session of the same hardware, is accepted by FR_STEP with the same dimensions and the same
row geometry. -/
def Obligations.EncodedHeaderIsAccepted : Prop :=
  ∀ (e t d : State) (rest : List Byte), exec .fwIhdr e = .next t → e.mode = .encode → e.estage = .sig →
    t.estage = .header → scanReady d → d.dstage = .start → d.params = e.params →
    (∃ chunk, t.out.q = e.out.q ++ chunk ∧ d.inp.q = chunk ++ rest) →
    ∃ u, exec .frStep d = .next u ∧ u.dstage = .seenHeader ∧ u.frResult = 1 ∧ u.err = d.err ∧ u.inp.q = rest ∧
      u.width = e.width ∧ u.height = e.height ∧ u.rowSize = t.rowSize ∧ u.hdrFmt = t.hdrFmt ∧ u.hdrIl = t.hdrIl ∧
      u.crc = t.crc

/-- 42_framer_encode.md R273, R262, 20_memory.md R102: FW_FLUSH, from its start and from its hold point. With CZ ended,
OUT gains the data chunks of the bytes buffered and the bytes of CZ, in order: every chunk but the last has exactly
SEG_MAX bytes, the last 1 to SEG_MAX, and one empty chunk is written only when the session would have none. With CZ open,
FR holds, and goes on in the same way; holding with no new byte, FR has no step (log 1). -/
def Obligations.FwFlushWritesTheRestOfTheStream : Prop :=
  FrGate 0x32000000 .fwFlush ∧ ∀ s : State,
    (s.mode ≠ .encode ∨ s.estage ≠ .header ∨ s.rowY ≠ s.height → exec .fwFlush s = .next (raise .badState 0x32 s)) ∧
    (s.mode = .encode → s.estage = .header → s.rowY = s.height → s.seg.length < s.segMax.toNat →
      ∃ t, exec .fwFlush s = .next t ∧ FlushSegment (s.emit .defClose) t) ∧
    (s.fr = .flushing → s.seg.length < s.segMax.toNat → ∃ t, perform .frRun s = .next t ∧ FlushSegment s t) ∧
    (s.fr = .flushing → s.cz = ⟨[], false⟩ → perform .frRun s = .next s)

/-- 42_framer_encode.md R272: the segmenter step, where it is enabled and where it is not (there the state stays,
log 1). -/
def Obligations.SegmenterTakesOneByte : Prop :=
  ∀ (s : State) (b : Byte) (q : List Byte),
    (s.fr = .idle → s.mode = .encode → s.estage = .header → s.err = none → s.cz.q = b :: q →
      (s.seg.length + 1 ≠ s.segMax.toNat →
        perform .frSegment s = .next { s with cz := { s.cz with q := q }, seg := s.seg ++ [b] }) ∧
      (s.seg.length + 1 = s.segMax.toNat → s.idatCount ≠ 0xFFFFFFFF →
        perform .frSegment s = .next { s with
          cz := { s.cz with q := q }, seg := []
          out := { s.out with q := s.out.q ++ chunkBytes tagIdat (s.seg ++ [b]) }
          chunkLen := s.segMax, chunkTag := 0x49444154, crc := crcFeed 0xCA50F9E1 (s.seg ++ [b])
          idatCount := s.idatCount + 1 }) ∧
      (s.seg.length + 1 = s.segMax.toNat → s.idatCount = 0xFFFFFFFF →
        perform .frSegment s = .next { s with
          cz := { s.cz with q := q }, seg := []
          out := { s.out with q := s.out.q ++ chunkBytes tagIdat (s.seg ++ [b]) }
          chunkLen := s.segMax, chunkTag := 0x49444154, crc := crcFeed 0xCA50F9E1 (s.seg ++ [b]) })) ∧
    (s.fr ≠ .idle ∨ s.mode ≠ .encode ∨ s.estage ≠ .header ∨ s.err.isSome = true ∨ s.cz.q = [] →
      perform .frSegment s = .next s)

/-- 42_framer_encode.md R272, R273 and program P3 of 95_test_vectors.md ("OUT is the same in every interleaving"): a
segmenter step taken before FW_FLUSH changes nothing of what FW_FLUSH leaves. -/
def Obligations.SegmenterStepBeforeFlushIsInvisible : Prop :=
  ∀ s : State, s.segmenterEnabled = true → s.rowY = s.height → exec .fwFlush (segmenterStep s) = exec .fwFlush s

/-- 42_framer_encode.md R274: FW_IEND. -/
def Obligations.FwIendWritesTheTerminalChunk : Prop :=
  FrGate 0x33000000 .fwIend ∧ ∀ s : State,
    (s.mode ≠ .encode ∨ s.estage ≠ .flushed → exec .fwIend s = .next (raise .badState 0x33 s)) ∧
    (s.mode = .encode → s.estage = .flushed → exec .fwIend s = .next { s with
      chunkLen := 0, chunkTag := 0x49454E44, crc := 0x51BD9F7D
      out := { s.out with q := s.out.q ++
        [0x00, 0x00, 0x00, 0x00, 0x49, 0x45, 0x4E, 0x44, 0xAE, 0x42, 0x60, 0x82] }
      estage := .ended, frResult := 0, fr := .idle })

/-! ### Filter engine -/

/-- 43_filter.md R300, R302, R303: the five tags and their predictors. Average halves the exact sum; Paeth chooses the
neighbour nearest to the exact estimate, ties to `a`, then `b`, then `c`. -/
def Obligations.PredictorsOfTheFiveFilters : Prop :=
  (filterOfTag 0 = some .none ∧ filterOfTag 1 = some .sub ∧ filterOfTag 2 = some .up ∧ filterOfTag 3 = some .average ∧
    filterOfTag 4 = some .paeth ∧ ∀ tag : Byte, 4 < tag.toNat → filterOfTag tag = none) ∧
  ∀ a b c : Byte,
    predict .none a b c = 0 ∧ predict .sub a b c = a ∧ predict .up a b c = b ∧
    (predict .average a b c).toNat = (a.toNat + b.toNat) / 2 ∧
    let p : Int := a.toNat + b.toNat - c.toNat
    (|p - a.toNat| ≤ |p - b.toNat| → |p - a.toNat| ≤ |p - c.toNat| → predict .paeth a b c = a) ∧
    (|p - b.toNat| < |p - a.toNat| → |p - b.toNat| ≤ |p - c.toNat| → predict .paeth a b c = b) ∧
    (|p - c.toNat| < |p - a.toNat| → |p - c.toNat| < |p - b.toNat| → predict .paeth a b c = c)

/-- 43_filter.md R304, R305, R301: each reconstructed byte is its filtered byte plus the prediction from the bytes
already reconstructed and the row above; each filtered byte is its original byte minus the prediction from the original
bytes and the row above. -/
def Obligations.RowsAddAndSubtractThePrediction : Prop :=
  ∀ (f : Filter) (row up : List Byte),
    (recon f row up).length = row.length ∧ (applyFilter f row up).length = row.length ∧
    ∀ (i : Nat) (h : i < row.length),
      (recon f row up)[i]? = some (row[i] +
        predict f (if 4 ≤ i then byteAt (recon f row up) (i - 4) else 0) (byteAt up i)
          (if 4 ≤ i then byteAt up (i - 4) else 0)) ∧
      (applyFilter f row up)[i]? = some (row[i] -
        predict f (if 4 ≤ i then byteAt row (i - 4) else 0) (byteAt up i)
          (if 4 ≤ i then byteAt up (i - 4) else 0))

/-- 43_filter.md R306: reconstruction inverts application, for every filter and every pair of rows. -/
def Obligations.ReconInvertsApply : Prop :=
  ∀ (f : Filter) (orig up : List Byte), orig.length = up.length → recon f (applyFilter f orig up) up = orig

/-- 43_filter.md R310: FE_RECON on every state, for a row whose bytes ZIN holds, for a ZIN that ends or runs dry inside
it, for end-of-rows and for every error. -/
def Obligations.FeReconDeliversARow : Prop :=
  FeGate 0x40000000 .feRecon ∧ ∀ s : State,
    (s.mode ≠ .decode ∨ s.dstage = .start ∨ s.dstage = .seenHeader →
      exec .feRecon s = .next (raise .badState 0x40 s)) ∧
    (s.mode = .decode → s.dstage = .seenData ∨ s.dstage = .seenEnd → s.height.toNat ≤ s.rowY.toNat →
      exec .feRecon s = .next { s with eor := true, feResult := 1, fe := .idle }) ∧
    (s.mode = .decode → s.dstage = .seenEnd → s.rowY.toNat < s.height.toNat →
      exec .feRecon s = .next (raise .badState 0x40 s)) ∧
    (s.mode = .decode → s.dstage = .seenData → s.rowY.toNat < s.height.toNat →
      (∀ (tag : Byte) (data rest : List Byte), s.zin.q = tag :: data ++ rest → 1 + data.length = s.rowSize.toNat →
        (∀ f, filterOfTag tag = some f → ∃ t, exec .feRecon s = .next t ∧
          t = { s with
            zin := { s.zin with q := rest }, mem := t.mem, bufSel := !s.bufSel, rowY := s.rowY + 1
            feResult := 0, fe := .idle } ∧
          t.mem.readByte s.bufSel 0 = tag ∧
          t.mem.readBytes s.bufSel 1 data.length = recon f data (s.mem.readBytes (!s.bufSel) 1 data.length) ∧
          ∀ sel j, sel ≠ s.bufSel ∨ s.rowSize.toNat ≤ j → t.mem.readByte sel j = s.mem.readByte sel j) ∧
        (filterOfTag tag = none → exec .feRecon s = .next (raise .badFilterType (tag.setWidth 32) { s with
          zin := { s.zin with q := rest }, mem := s.mem.writeBytes s.bufSel 0 (tag :: data) }))) ∧
      (s.zin.q.length < s.rowSize.toNat → s.zin.eos = true → s.zin.q.length < 2 ^ 32 →
        exec .feRecon s = .next (raise .notEnoughPixelData (BitVec.ofNat 32 s.zin.q.length) { s with
          zin := { s.zin with q := [] }, mem := s.mem.writeBytes s.bufSel 0 s.zin.q })) ∧
      (s.zin.q.length < s.rowSize.toNat → s.zin.eos = true → ∃ t, exec .feRecon s = .next t ∧
        (s.err = none → t.err = some .notEnoughPixelData) ∧ t.fe = .idle) ∧
      (s.zin.q.length < s.rowSize.toNat → s.zin.eos = false →
        exec .feRecon s = .next { s with
          zin := { s.zin with q := [] }, mem := s.mem.writeBytes s.bufSel 0 s.zin.q
          fe := .row s.rowSize.toNat s.zin.q.length }))

/-- 43_filter.md R310, 20_memory.md R102, R105, R120: how the bytes of ZIN arrive does not matter to FE_RECON, on a ZIN that
stays open and on one that ends after them: with FeReconDeliversARow this says what FE does from a hold once ZIN has
ended, as the last clauses say of every hold. Where the first run ends the command, the second one finds FE idle and
leaves the state as it is (log 1). -/
def Obligations.RowMayArriveInPieces : Prop :=
  (∀ (s : State) (d : List Byte), s.zin.eos = false → (∃ n k, s.fe = .row n k) ∨ s.fe = .accepted .feRecon →
    runEvents (d.map Event.pushZin ++ [.feRun]) s = runEvents ([.feRun] ++ d.map Event.pushZin ++ [.feRun]) s ∧
    runEvents (d.map Event.pushZin ++ [.endZin, .feRun]) s =
      runEvents ([.feRun] ++ d.map Event.pushZin ++ [.endZin, .feRun]) s) ∧
  (∀ (s : State) (n k : Nat), s.fe = .row n k → s.zin.eos = true → k + s.zin.q.length < n → n ≤ 2 ^ 32 →
    perform .feRun s = .next (raise .notEnoughPixelData (BitVec.ofNat 32 (k + s.zin.q.length)) { s with
      zin := { s.zin with q := [] }, mem := s.mem.writeBytes s.bufSel k s.zin.q })) ∧
  (∀ (s : State) (n k : Nat) (data rest : List Byte) (m : Memory), s.fe = .row n k → s.zin.q = data ++ rest →
    k + data.length = n → m = s.mem.writeBytes s.bufSel k data →
    (∀ f, filterOfTag (m.readByte s.bufSel 0) = some f → perform .feRun s = .next { s with
      zin := { s.zin with q := rest }
      mem := m.writeBytes s.bufSel 1
        (recon f (m.readBytes s.bufSel 1 (n - 1)) (m.readBytes (!s.bufSel) 1 (n - 1)))
      bufSel := !s.bufSel, rowY := s.rowY + 1, feResult := 0, fe := .idle }) ∧
    (filterOfTag (m.readByte s.bufSel 0) = none → perform .feRun s = .next (raise .badFilterType
      ((m.readByte s.bufSel 0).setWidth 32) { s with zin := { s.zin with q := rest }, mem := m })))

/-- 43_filter.md R311: FE_APPLY with each of its five filters. -/
def Obligations.FeApplyFiltersARow : Prop :=
  (∀ f : BitVec 3, f.toNat ≤ 4 → FeGate ((0x41 : BitVec 8) ++ (0 : BitVec 21) ++ f : BitVec 32) (.feApply f)) ∧
  (∀ w : Word, opcOf w = 0x41 → w.extractLsb' 3 21 ≠ 0 ∨ 4 < (w.extractLsb' 0 3).toNat → IllegalWord w) ∧
  ∀ (s : State) (f : BitVec 3) (flt : Filter), filterOfTag (f.setWidth 8) = some flt →
    (s.mode ≠ .encode ∨ s.estage ≠ .header ∨ s.height.toNat ≤ s.rowY.toNat →
      exec (.feApply f) s = .next (raise .badState 0x41 s)) ∧
    (s.mode = .encode → s.estage = .header → s.rowY.toNat < s.height.toNat →
      exec (.feApply f) s = .next { s with
        zout := ⟨s.zout.q ++ f.setWidth 8 :: applyFilter flt (s.mem.readBytes s.bufSel 1 (s.rowSize.toNat - 1))
          (s.mem.readBytes (!s.bufSel) 1 (s.rowSize.toNat - 1)), s.zout.eos⟩
        mem := s.mem.writeByte s.bufSel 0 (f.setWidth 8)
        bufSel := !s.bufSel, rowY := s.rowY + 1, feResult := 0, fe := .idle })

/-- 43_filter.md R305, R306, R310, R311 and property S5 of 95_test_vectors.md: a row filtered by FE_APPLY with any filter
and then decoded by FE_RECON over the same row above is the original row, its tag recorded. -/
def Obligations.FilteredRowDecodesToTheOriginal : Prop :=
  ∀ (e e2 d : State) (f : BitVec 3) (rest : List Byte), f.toNat ≤ 4 → e.mode = .encode → e.estage = .header →
    e.rowY.toNat < e.height.toNat → 1 ≤ e.rowSize.toNat → exec (.feApply f) e = .next e2 →
    d.mode = .decode → d.dstage = .seenData → d.rowY.toNat < d.height.toNat → d.rowSize = e.rowSize →
    d.mem.readBytes (!d.bufSel) 1 (e.rowSize.toNat - 1) = e.mem.readBytes (!e.bufSel) 1 (e.rowSize.toNat - 1) →
    (∃ row, e2.zout.q = e.zout.q ++ row ∧ d.zin.q = row ++ rest) →
    ∃ d2, exec .feRecon d = .next d2 ∧ d2.zin.q = rest ∧ d2.rowY = d.rowY + 1 ∧ d2.bufSel = !d.bufSel ∧
      d2.mem.readByte (!d2.bufSel) 0 = f.setWidth 8 ∧
      d2.mem.readBytes (!d2.bufSel) 1 (e.rowSize.toNat - 1) = e.mem.readBytes e.bufSel 1 (e.rowSize.toNat - 1)

/-! ### Host ports -/

/-- 20_memory.md R111: the row-buffer port, for every index, with FE busy and with FE idle. The byte of a read while FE
is busy is free: some byte, with no error (log 5). That an index at or above ROWBUF_BYTES is looked at before FE_BUSY, so
that the first clause holds with FE busy too, is the model's reading (log 16). -/
def Obligations.RowPortFollowsItsRules : Prop :=
  ∀ (s : State) (v : View) (i : BitVec 34) (b : Byte),
    (1 + 4 * s.params.maxWidth ≤ i.toNat →
      perform (.rowRead v i) s = .next { s with outputs := s.outputs ++ [.rowValue v i 0] } ∧
      perform (.rowWrite v i b) s = .next s) ∧
    (i.toNat < 1 + 4 * s.params.maxWidth → s.fe ≠ .idle →
      (∃ x n, perform (.rowRead v i) s = .next { s with draws := n, outputs := s.outputs ++ [.rowValue v i x] }) ∧
      perform (.rowWrite v i b) s = .next (raise .busyWrite
        (BitVec.ofBool (decide (v = .prev)) ++ i.extractLsb' 0 31) s)) ∧
    (i.toNat < 1 + 4 * s.params.maxWidth → s.fe = .idle → ∀ sel, sel = (if v = .cur then s.bufSel else !s.bufSel) →
      perform (.rowRead v i) s = .next { s with
        outputs := s.outputs ++ [.rowValue v i (s.mem.readByte sel i.toNat)] } ∧
      ∃ t, perform (.rowWrite v i b) s = .next t ∧ t = { s with mem := t.mem } ∧ t.mem.readByte sel i.toNat = b ∧
        ∀ sel' j, sel' ≠ sel ∨ j ≠ i.toNat → t.mem.readByte sel' j = s.mem.readByte sel' j)

/-- 10_state.md R57, 41_framer_decode.md R204, 42_framer_encode.md R271: after a header of width `w` is accepted, bytes
0..4·w of both banks are 0 and every other byte is as before. -/
def Obligations.AcceptedHeaderZeroesBothBanks : Prop :=
  ∀ (s : State) (w : Word) (sel : Bool) (i : Nat),
    (rowsAccepted s w).mem.readByte sel i = if i ≤ 4 * w.toNat then 0 else s.mem.readByte sel i

/-- 10_state.md R33 to R53; 20_memory.md R110: what a read of each register gives, and that a read changes
nothing but hands the host the value. -/
def Obligations.RegisterReadsShowTheState : Prop :=
  ∀ s : State,
    (∀ idx, perform (.regRead idx) s = .next { s with outputs := s.outputs ++ [.regValue idx (s.regRead idx)] }) ∧
    s.regRead 0 = 0x504E4743 ∧ s.regRead 1 = 0x00010000 ∧ s.regRead 2 = 0 ∧ s.regRead 3 = s.statusWord ∧
    (s.err = none → s.regRead 4 = 0) ∧ (∀ r, s.err = some r → s.regRead 4 = (r.code ++ r.kind).setWidth 32) ∧
    s.regRead 5 = s.errInfo ∧ s.regRead 6 = s.stageWord ∧ s.regRead 7 = s.crc ^^^ 0xFFFFFFFF ∧ s.regRead 8 = s.crc ∧ s.regRead 9 = s.chunkLen ∧
    s.regRead 10 = s.chunkTag ∧ s.regRead 11 = s.idatRemain ∧ s.regRead 12 = s.width ∧ s.regRead 13 = s.height ∧
    s.regRead 14 = s.hdrFmt ∧ s.regRead 15 = s.hdrIl ∧ s.regRead 17 ++ s.regRead 16 = s.rowSize ∧
    s.regRead 18 = s.rowY ∧ s.regRead 19 = (BitVec.ofBool s.bufSel).setWidth 32 ∧ s.regRead 20 = s.frResult ∧
    s.regRead 21 = s.feResult ∧ s.regRead 22 = s.idatMax ∧ s.regRead 23 = s.level.setWidth 32 ∧
    s.regRead 24 = BitVec.ofNat 32 s.seg.length ∧ s.regRead 25 = s.segMax ∧ s.regRead 26 = s.idatCount ∧
    s.regRead 27 = s.irqEn.setWidth 32

/-- 10_state.md R54: "Offsets 0x070..0xFFC are reserved. A read returns 0 and a write is ignored, with no error." -/
def Obligations.ReservedOffsetsReadZeroAndIgnoreWrites : Prop :=
  ∀ (s : State) (idx : BitVec 10) (w : Word), 0x070 ≤ 4 * idx.toNat →
    s.regRead idx = 0 ∧ perform (.regWrite idx w) s = .next s

/-- 10_state.md R33, R42, R49, R50, R53: what a write stores in each register but CMD; a read-only register ignores it. -/
def Obligations.RegisterWritesStoreLegalValues : Prop :=
  ∀ (s : State) (w : Word),
    (∀ idx : BitVec 10, idx.toNat ∉ [2, 12, 13, 22, 23, 27] → perform (.regWrite idx w) s = .next s) ∧
    (s.mode = .encode ∧ (s.estage = .start ∨ s.estage = .sig) →
      perform (.regWrite 12 w) s = .next { s with width := w } ∧
      perform (.regWrite 13 w) s = .next { s with height := w }) ∧
    (¬ (s.mode = .encode ∧ (s.estage = .start ∨ s.estage = .sig)) →
      perform (.regWrite 12 w) s = .next s ∧ perform (.regWrite 13 w) s = .next s) ∧
    (1 ≤ w.toNat ∧ w.toNat ≤ 65536 → perform (.regWrite 22 w) s = .next { s with idatMax := w }) ∧
    (w.toNat = 0 ∨ 65536 < w.toNat → perform (.regWrite 22 w) s = .next s) ∧
    (w.extractLsb' 0 2 = 3 → perform (.regWrite 23 w) s = .next s) ∧
    (w.extractLsb' 0 2 ≠ 3 → perform (.regWrite 23 w) s = .next { s with level := w.extractLsb' 0 2 }) ∧
    perform (.regWrite 27 w) s = .next { s with irqEn := w.extractLsb' 0 3 }

/-- 10_state.md R36, R39; 60_exceptions.md R412: the bits of STATUS and the fields of STAGE. -/
def Obligations.StatusAndStageShowTheFields : Prop :=
  ∀ s : State,
    (s.statusWord.getLsbD 0 = true ↔ s.fr ≠ .idle) ∧ (s.statusWord.getLsbD 1 = true ↔ s.fe ≠ .idle) ∧
    (s.statusWord.getLsbD 2 = true ↔ s.err ≠ none) ∧ (s.statusWord.getLsbD 3 = true ↔ s.mode = .encode) ∧
    s.statusWord.getLsbD 4 = s.sigOk ∧ s.statusWord.getLsbD 5 = s.eor ∧ s.statusWord.getLsbD 6 = s.irq ∧
    (∀ i, 7 ≤ i → s.statusWord.getLsbD i = false) ∧
    (s.stageWord.extractLsb' 0 2 = match s.dstage with | .start => 0 | .seenHeader => 1 | .seenData => 2 | .seenEnd => 3) ∧
    (s.stageWord.extractLsb' 4 3 =
      match s.estage with | .start => 0 | .sig => 1 | .header => 2 | .flushed => 3 | .ended => 4) ∧
    s.stageWord.extractLsb' 2 2 = 0 ∧ s.stageWord.extractLsb' 7 25 = 0

/-- 60_exceptions.md R412: the interrupt output is the level of its three sources, and STATUS.IRQ shows it. -/
def Obligations.InterruptIsALevelOfThreeSources : Prop :=
  ∀ s : State, s.statusWord.getLsbD 6 = s.irq ∧ (s.irq = true ↔
    (s.irqEn.getLsbD 0 = true ∧ s.fr = .idle) ∨ (s.irqEn.getLsbD 1 = true ∧ s.fe = .idle) ∨
      (s.irqEn.getLsbD 2 = true ∧ s.err ≠ none))

/-- 20_memory.md R104: the stream steps of HOST, INF and DEF. -/
def Obligations.StreamStepsOfTheOutside : Prop :=
  ∀ (s : State) (b : Byte) (n : Word),
    perform (.pushIn b) s = .next (if s.inp.eos then s else { s with inp := ⟨s.inp.q ++ [b], false⟩ }) ∧
    perform .endIn s = .next { s with inp := ⟨s.inp.q, true⟩ } ∧
    perform (.pushZin b) s = .next (if s.zin.eos then s else { s with zin := ⟨s.zin.q ++ [b], false⟩ }) ∧
    perform .endZin s = .next { s with zin := ⟨s.zin.q, true⟩ } ∧
    perform (.pushCz b) s = .next (if s.cz.eos then s else { s with cz := ⟨s.cz.q ++ [b], false⟩ }) ∧
    perform .endCz s = .next { s with cz := ⟨s.cz.q, true⟩ } ∧
    (s.adp = none → perform (.request n) s = .next { s with adp := some n }) ∧
    (s.adp ≠ none → perform (.request n) s = .next s) ∧
    (s.out.q = [] → perform .takeOut s = .next s) ∧
    (∀ q, s.out.q = b :: q → perform .takeOut s = .next { s with
      out := ⟨q, s.out.eos⟩, outputs := s.outputs ++ [.outByte b] }) ∧
    (s.zout.q = [] → perform .takeZout s = .next s) ∧
    (∀ q, s.zout.q = b :: q → perform .takeZout s = .next { s with
      zout := ⟨q, s.zout.eos⟩, outputs := s.outputs ++ [.zoutByte b] })

/-! ### Errors -/

/-- 60_exceptions.md R401: what a raise does, and that it does nothing else. -/
def Obligations.RaiseRecordsTheFirstError : Prop :=
  ∀ (r : Reason) (info : Word) (s : State),
    (s.err = none → (raise r info s).err = some r ∧ (raise r info s).errInfo = info) ∧
    (s.err ≠ none → (raise r info s).err = s.err ∧ (raise r info s).errInfo = s.errInfo) ∧
    (raise r info s).fr = .idle ∧ (raise r info s).fe = .idle ∧
    (s.fr.serving = true → (raise r info s).adp = none ∧
      (raise r info s).outputs = s.outputs ++ [.adpResponse [] false]) ∧
    (s.fr.serving = false → (raise r info s).adp = s.adp ∧ (raise r info s).outputs = s.outputs) ∧
    raise r info s = { s with
      err := (raise r info s).err, errInfo := (raise r info s).errInfo, fr := .idle, fe := .idle
      adp := (raise r info s).adp, outputs := (raise r info s).outputs }

/-- 60_exceptions.md R400, R402; 10_state.md R37: the ERR word of every reason, CODE in [15:8] and KIND in [7:0], and 0
for none. -/
def Obligations.ErrorWordsOfTheTable : Prop :=
  errWord none = 0 ∧
  ∀ r e, (r, e) ∈ ([(.notPng, 0x0101), (.chunkOrder, 0x0201), (.checksumMismatch, 0x0301), (.badChunkLength, 0x0401),
    (.badIhdrLength, 0x0501), (.nonPositiveDimension, 0x0601), (.notEnoughPixelData, 0x0701), (.badFilterType, 0x0801),
    (.badIendLength, 0x0901), (.notIend, 0x0A01), (.compressionMethod, 0x0102), (.filterMethod, 0x0202),
    (.dimensionOverflow, 0x0302), (.depthType, 0x0402), (.idatLengthOverflow, 0x0502), (.interlace, 0x0602),
    (.rowTooWide, 0x0702), (.unexpectedEOS, 0x0003), (.illegalCommand, 0x0104), (.badState, 0x0204),
    (.agentBusy, 0x0304), (.busyWrite, 0x0404)] : List (Reason × Word)) → errWord (some r) = e

/-- 60_exceptions.md R403, R408: while an error is recorded, no step but a reset changes the error record, the mode, the
stages, or anything a command could change. Only host accesses, stream steps and the empty answer to INF go on, each
changing only its own port's state: no step of FR or FE changes anything but the pending request and its answer, and a
bank byte changes only where the host writes it. That a step of an idle agent leaves the state as it is, and that a
request still pending is answered in the invalid session, are logs 1 and 9. -/
def Obligations.InvalidSessionIsFrozenUntilReset : Prop :=
  ∀ (s t : State) (e : Event) (rest : List Event), s.Inv → s.err ≠ none → s.sched = e :: rest → ¬ isReset e →
    step s = .next t → FrozenStep e { s with sched := rest } t

/-! ### The whole machine -/

/-- Every step keeps the invariant of the machine (Safety.lean, `State.Inv`): the canonical form of the row-buffer bytes,
and what 10_state.md, 43_filter.md and 60_exceptions.md say of every state of a session. -/
def Obligations.StepKeepsTheInvariant : Prop := ∀ s t : State, s.Inv → step s = .next t → t.Inv

/-- The state after power-on reset meets the invariant. -/
def Obligations.ResetMeetsTheInvariant : Prop := State.reset.Inv

/-- 10_state.md R39, 41_framer_decode.md R223, 42_framer_encode.md R275: without a reset DSTAGE never falls and ESTAGE
stays or moves to the next value, and MODE, LEVEL's legality apart, only a reset changes (R36, R341). -/
def Obligations.StagesOnlyMoveForward : Prop :=
  ∀ (s t : State) (e : Event) (rest : List Event), s.Inv → s.sched = e :: rest → ¬ isReset e → step s = .next t →
    t.mode = s.mode ∧ s.dstage.num ≤ t.dstage.num ∧
      (t.estage.num = s.estage.num ∨ t.estage.num = s.estage.num + 1)

/-- 10_state.md R45, R46: ROW_Y and BUF_SEL change only when a header is accepted, which sets both to 0, and by one row
of FE, which adds 1 to ROW_Y and inverts BUF_SEL. -/
def Obligations.RowCounterCountsRows : Prop :=
  ∀ (s t : State) (e : Event) (rest : List Event), s.Inv → s.sched = e :: rest → ¬ isReset e → step s = .next t →
    (t.rowY = s.rowY ∧ t.bufSel = s.bufSel) ∨ (t.rowY = 0 ∧ t.bufSel = false ∧ ¬ s.hasHeader ∧ t.hasHeader) ∨
      (e = .feRun ∧ t.rowY = s.rowY + 1 ∧ t.bufSel = !s.bufSel)

/-- 10_state.md R57: "Bytes at index ROW_SIZE and above are never read or written by a command": the write half, for
every step of FR and FE. -/
def Obligations.AgentsKeepBytesBeyondTheRow : Prop :=
  ∀ (s t : State) (e : Event), s.Inv → isAgentStep e → perform e s = .next t →
    ∀ (sel : Bool) (j : Nat), t.rowSize.toNat ≤ j → t.mem.readByte sel j = s.mem.readByte sel j

/-- 41_framer_decode.md R220 to R222: the frame of the chunk scan. FR_SIG, FR_STEP and FR_OPEN write the listed fields
only, and a bank byte only where a header was accepted, below ROW_SIZE, with 0. -/
def Obligations.ChunkScanFrame : Prop :=
  ∀ (i : Instr) (s t : State), i ∈ [Instr.frSig, .frStep, .frOpen] → s.fr.serving = false → exec i s = .next t →
    t = { s with
      sigOk := t.sigOk, frResult := t.frResult, chunkLen := t.chunkLen, chunkTag := t.chunkTag, crc := t.crc
      idatRemain := t.idatRemain, width := t.width, height := t.height, hdrFmt := t.hdrFmt, hdrIl := t.hdrIl
      rowSize := t.rowSize, rowY := t.rowY, bufSel := t.bufSel, mem := t.mem, dstage := t.dstage
      inp := ⟨t.inp.q, s.inp.eos⟩, err := t.err, errInfo := t.errInfo, fr := t.fr, fe := t.fe } ∧
    keptUnlessRaised s t ∧
    ∀ (sel : Bool) (j : Nat), t.mem.readByte sel j = s.mem.readByte sel j ∨
      (s.dstage = .start ∧ t.dstage ≠ .start ∧ j < t.rowSize.toNat ∧ t.mem.readByte sel j = 0)

/-- 41_framer_decode.md R224, R230: the frame of FR_CLOSE and of the ADP service: no bank byte, no header register, no
row geometry; the service never writes FR_RESULT or DSTAGE, and FR_CLOSE never IDAT_REMAIN; ERR_INFO and FE's record change
only where an error is recorded. -/
def Obligations.CloseAndAdpFrame : Prop :=
  (∀ s t : State, s.fr.serving = false → exec .frClose s = .next t →
    t = { s with
      chunkLen := t.chunkLen, chunkTag := t.chunkTag, crc := t.crc, dstage := t.dstage, frResult := t.frResult
      inp := ⟨t.inp.q, s.inp.eos⟩, outputs := t.outputs, err := t.err, errInfo := t.errInfo, fr := t.fr
      fe := t.fe } ∧
    keptUnlessRaised s t ∧ (t.outputs = s.outputs ∨ t.outputs = s.outputs ++ [.infClose])) ∧
  (∀ (n : Word) (s t : State), exec (.adpRead n) s = .next t →
    t = { s with
      chunkLen := t.chunkLen, chunkTag := t.chunkTag, crc := t.crc, idatRemain := t.idatRemain
      inp := ⟨t.inp.q, s.inp.eos⟩, adp := t.adp, outputs := t.outputs, err := t.err, errInfo := t.errInfo, fr := t.fr
      fe := t.fe } ∧
    (t.err = s.err → t.errInfo = s.errInfo ∧ t.fe = s.fe) ∧
    (t.fr = .idle → t.adp = none ∧ ∃ d ok, t.outputs = s.outputs ++ [.adpResponse d ok] ∧ d.length ≤ n.toNat ∧
      (ok = false → d = [])) ∧
    (t.fr ≠ .idle → t.adp = s.adp ∧ t.outputs = s.outputs))

/-- 10_state.md R64, 70_reset_and_hazards.md R440: the state after power-on reset, every row of the table; and that a
power-on reset at any time gives that state, the bank bytes unspecified. The order of the schedule, the parameter and
the model's other fields are the model's choice (logs 1, 3, 5, 7, 10). -/
def Obligations.PowerOnResetValues : Prop :=
  (∀ s : State, s = State.reset ∨ (∃ u, perform .powerOn u = .next s) →
    s.fr = .idle ∧ s.fe = .idle ∧ s.mode = .decode ∧ s.sigOk = false ∧ s.eor = false ∧ s.err = none ∧ s.errInfo = 0 ∧
    s.dstage = .start ∧ s.estage = .start ∧ s.crc = 0xFFFFFFFF ∧ s.crcValue = 0 ∧ s.chunkLen = 0 ∧ s.chunkTag = 0 ∧
    s.idatRemain = 0 ∧ s.width = 0 ∧ s.height = 0 ∧ s.hdrFmt = 0 ∧ s.hdrIl = 0 ∧ s.rowSize = 0 ∧ s.rowY = 0 ∧
    s.bufSel = false ∧ s.frResult = 0 ∧ s.feResult = 0 ∧ s.idatMax = 32768 ∧ s.level = 0 ∧ s.irqEn = 0 ∧ s.seg = [] ∧
    s.segMax = 0 ∧ s.idatCount = 0 ∧ s.inp = ⟨[], false⟩ ∧ s.out = ⟨[], false⟩ ∧ s.zin = ⟨[], false⟩ ∧
    s.zout = ⟨[], false⟩ ∧ s.cz = ⟨[], false⟩ ∧ s.adp = none ∧ s.irq = false ∧ s.statusWord = 0 ∧
    (s.mem.bank0).read = (fun _ => none) ∧ (s.mem.bank1).read = (fun _ => none)) ∧
  (∀ u : State, ∃ s, perform .powerOn u = .next s)

/-- 41_framer_decode.md R205: DimOverflow is true exactly when w·h·8 > 2^63 - 1, that is when w·h ≥ 2^60. -/
def Obligations.DimensionOverflowThreshold : Prop :=
  ∀ w h : Word, (dimOverflow w h = true ↔ w.toNat * h.toNat * 8 > 2 ^ 63 - 1) ∧
    (dimOverflow w h = true ↔ 2 ^ 60 ≤ w.toNat * h.toNat)
end

