-- ==== Sys2Proof/Laws/Bytes.lean ====
section
/-! SUPPORT. The laws of the big-endian words (00_scope.md R9), and the CRC of the three tags. -/

namespace Sys2Proof.Machine

/-- BE32 of the four bytes of a word is the word (R9). -/
theorem be32_extract (w : Word) :
    be32 (w.extractLsb' 24 8) (w.extractLsb' 16 8) (w.extractLsb' 8 8) (w.extractLsb' 0 8) = w := by
  unfold be32
  rw [BitVec.extractLsb'_append_extractLsb'_eq_extractLsb' (by rfl),
    BitVec.extractLsb'_append_extractLsb'_eq_extractLsb' (by rfl),
    BitVec.extractLsb'_append_extractLsb'_eq_extractLsb' (by rfl)]
  exact BitVec.extractLsb'_eq_self

/-- The four bytes of BE32 of four bytes are those bytes (R9). -/
theorem be32Bytes_be32 (a b c d : Byte) : be32Bytes (be32 a b c d) = [a, b, c, d] := by
  unfold be32Bytes be32
  simp only [List.cons.injEq, and_true]
  have ha := a.isLt
  have hb := b.isLt
  have hc := c.isLt
  have hd := d.isLt
  refine ⟨?_, ?_, ?_, ?_⟩ <;>
    (apply BitVec.eq_of_toNat_eq
     rw [BitVec.extractLsb'_toNat, BitVec.toNat_append, BitVec.toNat_append, BitVec.toNat_append,
       ← Nat.shiftLeft_add_eq_or_of_lt hd, ← Nat.shiftLeft_add_eq_or_of_lt hc, ← Nat.shiftLeft_add_eq_or_of_lt hb]
     simp [Nat.shiftRight_eq_div_pow, Nat.shiftLeft_eq]
     omega)

@[simp] theorem be32Bytes_length (w : Word) : (be32Bytes w).length = 4 := rfl

/-- The word that begins a sequence which begins with the bytes of `w` is `w`. -/
@[simp] theorem be32At_be32Bytes_append (w : Word) (d : List Byte) : be32At (be32Bytes w ++ d) 0 = w := be32_extract w

@[simp] theorem be32At_be32Bytes (w : Word) : be32At (be32Bytes w) 0 = w := be32_extract w

/-- Four bytes are the bytes of the word they give. -/
theorem eq_be32Bytes {c : List Byte} (h : c.length = 4) : c = be32Bytes (be32At c 0) := by
  match c, h with
  | [a, b, c, d], _ => exact (be32Bytes_be32 a b c d).symm

/-- Four bytes give the word `w` exactly when they are its bytes. -/
theorem be32At_eq_iff {c : List Byte} (h : c.length = 4) (w : Word) : be32At c 0 = w ↔ c = be32Bytes w := by
  constructor
  · intro e
    rw [← e]
    exact eq_be32Bytes h
  · intro e
    rw [e, be32At_be32Bytes]

/-- The register after `CrcInit(); CrcFeed(TAG_IHDR)`. -/
theorem crcFeed_tagIhdr : crcFeed crcStart tagIhdr = 0x575E51F5 := by decide +kernel

/-- The register after `CrcInit(); CrcFeed(TAG_IDAT)` (41_framer_decode.md R222's example). -/
theorem crcFeed_tagIdat : crcFeed crcStart tagIdat = 0xCA50F9E1 := by decide +kernel

/-- The register after `CrcInit(); CrcFeed(TAG_IEND)` (41_framer_decode.md R224's example). -/
theorem crcFeed_tagIend : crcFeed crcStart tagIend = 0x51BD9F7D := by decide +kernel

end Sys2Proof.Machine
end

