-- ==== Sys2Proof/Laws/Memory.lean ====
section
/-! SUPPORT. The laws of the row-buffer bytes: what a read gives after each operation, and that every operation keeps
the canonical form. -/

namespace Sys2Proof.Machine

/-! ### The cell list -/

theorem cellsFind_cons (c : Host.Cell) (cs : List Host.Cell) (i : Nat) :
    cellsFind (c :: cs) i = if c.1 = i then some c.2 else cellsFind cs i := rfl

theorem cellsFind_put_same (cs : List Host.Cell) (i : Nat) (v : Byte) : cellsFind (cellsPut cs i v) i = some v := by
  induction cs with
  | nil => simp [cellsPut, cellsFind]
  | cons c cs ih =>
    unfold cellsPut
    split
    · simp [cellsFind_cons]
    · split
      · simp [cellsFind_cons]
      · rename_i h1 h2
        rw [cellsFind_cons, if_neg (fun h => h2 h.symm), ih]

theorem cellsFind_put_other (cs : List Host.Cell) (i j : Nat) (v : Byte) (h : j ≠ i) :
    cellsFind (cellsPut cs i v) j = cellsFind cs j := by
  induction cs with
  | nil => simp [cellsPut, cellsFind, h.symm]
  | cons c cs ih =>
    unfold cellsPut
    split
    · simp [cellsFind_cons, h.symm]
    · split
      · rename_i h1 h2
        simp [cellsFind_cons, ← h2, h.symm]
      · simp [cellsFind_cons, ih]

theorem cellsFind_filter_keep (p : Host.Cell → Bool) (cs : List Host.Cell) (j : Nat)
    (hp : ∀ c : Host.Cell, c.1 = j → p c = true) : cellsFind (cs.filter p) j = cellsFind cs j := by
  induction cs with
  | nil => rfl
  | cons c cs ih =>
    rw [List.filter_cons]
    split
    · simp [cellsFind_cons, ih]
    · rename_i hc
      rw [ih, cellsFind_cons, if_neg (fun h => hc (hp c h))]

theorem cellsFind_filter_drop (p : Host.Cell → Bool) (cs : List Host.Cell) (j : Nat)
    (hp : ∀ c : Host.Cell, c.1 = j → p c = false) : cellsFind (cs.filter p) j = none := by
  induction cs with
  | nil => rfl
  | cons c cs ih =>
    rw [List.filter_cons]
    split
    · rename_i hc
      rw [cellsFind_cons, if_neg (fun h => by simp [hp c h] at hc), ih]
    · exact ih

theorem cellsRising_iff_pairwise (cs : List Host.Cell) :
    cellsRising cs = true ↔ cs.Pairwise (fun c d => c.1 < d.1) := by
  induction cs with
  | nil => simp [cellsRising]
  | cons c cs ih =>
    cases cs with
    | nil => simp [cellsRising]
    | cons d cs =>
      rw [cellsRising, Bool.and_eq_true, decide_eq_true_iff, ih, List.pairwise_cons (a := c)]
      constructor
      · rintro ⟨hcd, hp⟩
        refine ⟨?_, hp⟩
        intro x hx
        rcases List.mem_cons.mp hx with rfl | hx
        · exact hcd
        · exact hcd.trans ((List.pairwise_cons.mp hp).1 x hx)
      · rintro ⟨hall, hp⟩
        exact ⟨hall d (by simp), hp⟩

theorem mem_cellsPut {c : Host.Cell} {cs : List Host.Cell} {i : Nat} {v : Byte} (h : c ∈ cellsPut cs i v) :
    c = (i, v) ∨ c ∈ cs := by
  induction cs with
  | nil => simpa [cellsPut] using h
  | cons d cs ih =>
    unfold cellsPut at h
    split at h
    · simpa using h
    · split at h
      · rcases List.mem_cons.mp h with h | h
        · exact .inl h
        · exact .inr (List.mem_cons_of_mem _ h)
      · rcases List.mem_cons.mp h with h | h
        · exact .inr (h ▸ List.mem_cons_self)
        · exact (ih h).imp id (List.mem_cons_of_mem _)

theorem cellsPut_pairwise {cs : List Host.Cell} (i : Nat) (v : Byte) (h : cs.Pairwise (fun c d => c.1 < d.1)) :
    (cellsPut cs i v).Pairwise (fun c d => c.1 < d.1) := by
  induction cs with
  | nil => simp [cellsPut]
  | cons d cs ih =>
    have hd := List.pairwise_cons.mp h
    unfold cellsPut
    split
    · rename_i hlt
      refine List.pairwise_cons.mpr ⟨?_, h⟩
      intro x hx
      rcases List.mem_cons.mp hx with rfl | hx
      · exact hlt
      · exact Nat.lt_trans hlt (hd.1 x hx)
    · split
      · rename_i heq
        exact List.pairwise_cons.mpr ⟨fun x hx => by simpa [heq] using hd.1 x hx, hd.2⟩
      · rename_i h1 h2
        refine List.pairwise_cons.mpr ⟨?_, ih hd.2⟩
        intro x hx
        rcases mem_cellsPut hx with rfl | hx
        · simp only; omega
        · exact hd.1 x hx

/-! ### Banks -/

@[simp] theorem Bank.write_zeroed (b : Bank) (i : Nat) (v : Byte) : (b.write i v).zeroed = b.zeroed := by
  unfold Bank.write; split <;> rfl

@[simp] theorem Bank.write_unlisted (b : Bank) (i j : Nat) (v : Byte) : (b.write i v).unlisted j = b.unlisted j := by
  simp [Bank.unlisted]

/-- A read after a write to the same index gives the byte written. -/
theorem Bank.read_write_same (b : Bank) (i : Nat) (v : Byte) : (b.write i v).read i = some v := by
  unfold Bank.read
  rw [Bank.write_unlisted]
  unfold Bank.write
  split
  · rename_i h
    rw [cellsFind_filter_drop _ _ _ (by simp), h, Option.none_or]
  · rw [cellsFind_put_same, Option.some_or]

/-- A write leaves every other byte as it was. -/
theorem Bank.read_write_other (b : Bank) (i j : Nat) (v : Byte) (h : j ≠ i) : (b.write i v).read j = b.read j := by
  unfold Bank.read
  rw [Bank.write_unlisted]
  unfold Bank.write
  split
  · rw [cellsFind_filter_keep _ _ _ (fun c hc => by simp [hc, h])]
  · rw [cellsFind_put_other _ _ _ _ h]

/-- A byte below the zeroed length reads 0. -/
theorem Bank.read_zero_below (b : Bank) (n i : Nat) (h : i < n) : (b.zero n).read i = some 0 := by
  unfold Bank.read Bank.zero
  rw [cellsFind_filter_drop _ _ _ (fun c hc => by simp [hc, h])]
  simp [Bank.unlisted, h]

/-- Zeroing leaves every byte at or above the length as it was. -/
theorem Bank.read_zero_above (b : Bank) (n i : Nat) (h : n ≤ i) : (b.zero n).read i = b.read i := by
  unfold Bank.read Bank.zero
  rw [cellsFind_filter_keep _ _ _ (fun c hc => by simp [hc, h])]
  simp [Bank.unlisted, Nat.not_lt.mpr h]

/-- Where a bank has been zeroed every byte has a value the spec gives. -/
theorem Bank.read_isSome_of_lt (b : Bank) (i : Nat) (h : i < b.zeroed) : (b.read i).isSome = true := by
  unfold Bank.read Bank.unlisted
  cases cellsFind b.cells i <;> simp [h]

theorem Bank.wf_iff (b : Bank) : b.wf = true ↔
    b.cells.Pairwise (fun c d => c.1 < d.1) ∧ ∀ c ∈ b.cells, b.unlisted c.1 ≠ some c.2 := by
  simp [Bank.wf, cellsRising_iff_pairwise]

theorem Bank.wf_write {b : Bank} (h : b.wf = true) (i : Nat) (v : Byte) : (b.write i v).wf = true := by
  rw [Bank.wf_iff] at h ⊢
  simp only [Bank.write_unlisted]
  unfold Bank.write
  split
  · exact ⟨h.1.filter _, fun c hc => h.2 c (List.mem_of_mem_filter hc)⟩
  · rename_i hne
    refine ⟨cellsPut_pairwise i v h.1, fun c hc => ?_⟩
    rcases mem_cellsPut hc with rfl | hc
    · exact hne
    · exact h.2 c hc

theorem Bank.wf_zero {b : Bank} (h : b.wf = true) (n : Nat) : (b.zero n).wf = true := by
  rw [Bank.wf_iff] at h ⊢
  refine ⟨h.1.filter _, fun c hc => ?_⟩
  have hm := List.mem_filter.mp hc
  have hn : n ≤ c.1 := by simpa using hm.2
  have := h.2 c hm.1
  simpa [Bank.unlisted, Bank.zero, Nat.not_lt.mpr hn] using this

theorem Bank.wf_unspecified : Bank.unspecified.wf = true := by decide

/-! ### The memory -/

@[simp] theorem Memory.setBank_epoch (m : Memory) (sel : Bool) (b : Bank) : (m.setBank sel b).epoch = m.epoch := by
  cases sel <;> rfl

theorem Memory.bank_setBank (m : Memory) (sel sel' : Bool) (b : Bank) :
    (m.setBank sel b).bank sel' = if sel' = sel then b else m.bank sel' := by
  cases sel <;> cases sel' <;> rfl

theorem Memory.readByte_writeByte (m : Memory) (sel sel' : Bool) (i j : Nat) (v : Byte) :
    (m.writeByte sel i v).readByte sel' j = if sel' = sel ∧ j = i then v else m.readByte sel' j := by
  unfold Memory.readByte Memory.writeByte
  rw [Memory.bank_setBank, Memory.setBank_epoch]
  by_cases hs : sel' = sel
  · subst hs
    by_cases hj : j = i
    · subst hj; simp [Bank.read_write_same]
    · simp [Bank.read_write_other _ _ _ _ hj, hj]
  · simp [hs]

theorem Memory.readByte_zeroBoth (m : Memory) (sel : Bool) (n i : Nat) :
    (m.zeroBoth n).readByte sel i = if i < n then 0 else m.readByte sel i := by
  unfold Memory.readByte Memory.zeroBoth
  by_cases h : i < n
  · cases sel <;> simp [Memory.bank, Bank.read_zero_below _ _ _ h, h]
  · cases sel <;> simp [Memory.bank, Bank.read_zero_above _ _ _ (Nat.le_of_not_lt h), h]

/-- Writing a sequence leaves every byte outside it as it was. -/
theorem Memory.readByte_writeBytes_outside (d : List Byte) (m : Memory) (sel sel' : Bool) (i j : Nat)
    (h : sel' ≠ sel ∨ j < i ∨ i + d.length ≤ j) : (m.writeBytes sel i d).readByte sel' j = m.readByte sel' j := by
  induction d generalizing m i with
  | nil => rfl
  | cons v d ih =>
    rw [Memory.writeBytes, ih, Memory.readByte_writeByte, if_neg]
    · rintro ⟨rfl, rfl⟩
      simp at h
    · simp only [List.length_cons] at h
      rcases h with h | h | h
      · exact .inl h
      · exact .inr (.inl (by omega))
      · exact .inr (.inr (by omega))

/-- Writing a sequence stores its bytes in order. -/
theorem Memory.readByte_writeBytes_inside (d : List Byte) (m : Memory) (sel : Bool) (i k : Nat) (h : k < d.length) :
    (m.writeBytes sel i d).readByte sel (i + k) = d[k] := by
  induction d generalizing m i k with
  | nil => simp at h
  | cons v d ih =>
    rw [Memory.writeBytes]
    cases k with
    | zero =>
      rw [Memory.readByte_writeBytes_outside _ _ _ _ _ _ (by omega), Memory.readByte_writeByte]
      simp
    | succ k =>
      have := ih (m.writeByte sel i v) (i + 1) k (by simpa using h)
      simpa [Nat.add_assoc, Nat.add_comm 1 k] using this

theorem Memory.wf_iff (m : Memory) : m.wf = true ↔ m.bank0.wf = true ∧ m.bank1.wf = true := by
  simp [Memory.wf]

theorem Memory.wf_writeByte {m : Memory} (h : m.wf = true) (sel : Bool) (i : Nat) (v : Byte) :
    (m.writeByte sel i v).wf = true := by
  rw [Memory.wf_iff] at h ⊢
  cases sel
  · exact ⟨Bank.wf_write h.1 i v, h.2⟩
  · exact ⟨h.1, Bank.wf_write h.2 i v⟩

theorem Memory.wf_writeBytes (d : List Byte) {m : Memory} (h : m.wf = true) (sel : Bool) (i : Nat) :
    (m.writeBytes sel i d).wf = true := by
  induction d generalizing m i with
  | nil => exact h
  | cons v d ih => exact ih (Memory.wf_writeByte h sel i v) (i + 1)

theorem Memory.wf_zeroBoth {m : Memory} (h : m.wf = true) (n : Nat) : (m.zeroBoth n).wf = true := by
  rw [Memory.wf_iff] at h ⊢
  exact ⟨Bank.wf_zero h.1 n, Bank.wf_zero h.2 n⟩

theorem reset_mem_wf : State.reset.mem.wf = true := by decide

@[simp] theorem Memory.writeByte_zeroed0 (m : Memory) (sel : Bool) (i : Nat) (v : Byte) :
    (m.writeByte sel i v).bank0.zeroed = m.bank0.zeroed := by
  cases sel <;> simp [Memory.writeByte, Memory.setBank, Memory.bank]

@[simp] theorem Memory.writeByte_zeroed1 (m : Memory) (sel : Bool) (i : Nat) (v : Byte) :
    (m.writeByte sel i v).bank1.zeroed = m.bank1.zeroed := by
  cases sel <;> simp [Memory.writeByte, Memory.setBank, Memory.bank]

@[simp] theorem Memory.writeBytes_zeroed0 (d : List Byte) (m : Memory) (sel : Bool) (i : Nat) :
    (m.writeBytes sel i d).bank0.zeroed = m.bank0.zeroed := by
  induction d generalizing m i with
  | nil => rfl
  | cons v d ih => rw [Memory.writeBytes, ih, Memory.writeByte_zeroed0]

@[simp] theorem Memory.writeBytes_zeroed1 (d : List Byte) (m : Memory) (sel : Bool) (i : Nat) :
    (m.writeBytes sel i d).bank1.zeroed = m.bank1.zeroed := by
  induction d generalizing m i with
  | nil => rfl
  | cons v d ih => rw [Memory.writeBytes, ih, Memory.writeByte_zeroed1]

end Sys2Proof.Machine
end

