-- ==== Sys2Proof/Laws/PerInstr.lean ====
section
/-! SUPPORT. The statements made per instruction: for each family a Statement about an instruction as syntax, and one
lemma per constructor. -/

namespace Sys2Proof.Laws.WordSelectsRow

/-- The word of a well-formed instruction selects the row of its mnemonic in the opcode map (30_encoding.md R148). -/
def Statement (i : Instr) : Prop :=
  i.wellFormed = true → ∃ r ∈ opcodeRows, r.mnemonic = i.mnemonic ∧ selectsRow i.port (encode i) r = true

theorem nop : Statement .nop := fun _ => ⟨⟨"NOP", .cmd, 0x00000000, 0xFFFFFFFF⟩, by decide⟩

theorem sessionReset (m : Mode) : Statement (.sessionReset m) := fun _ =>
  ⟨⟨"SESSION_RESET", .cmd, 0x01000000, 0xFFFFFFFE⟩, by cases m <;> decide⟩

theorem crcInit : Statement .crcInit := fun _ => ⟨⟨"CRC_INIT", .cmd, 0x10000000, 0xFFFFFFFF⟩, by decide⟩

theorem crcByte (b : Byte) : Statement (.crcByte b) := fun _ =>
  ⟨⟨"CRC_BYTE", .cmd, 0x11000000, 0xFFFFFF00⟩, by decide, rfl, by revert b; decide +kernel⟩

theorem frSig : Statement .frSig := fun _ => ⟨⟨"FR_SIG", .cmd, 0x20000000, 0xFFFFFFFF⟩, by decide⟩

theorem frStep : Statement .frStep := fun _ => ⟨⟨"FR_STEP", .cmd, 0x21000000, 0xFFFFFFFF⟩, by decide⟩

theorem frOpen : Statement .frOpen := fun _ => ⟨⟨"FR_OPEN", .cmd, 0x22000000, 0xFFFFFFFF⟩, by decide⟩

theorem frClose : Statement .frClose := fun _ => ⟨⟨"FR_CLOSE", .cmd, 0x23000000, 0xFFFFFFFF⟩, by decide⟩

theorem fwSig : Statement .fwSig := fun _ => ⟨⟨"FW_SIG", .cmd, 0x30000000, 0xFFFFFFFF⟩, by decide⟩

theorem fwIhdr : Statement .fwIhdr := fun _ => ⟨⟨"FW_IHDR", .cmd, 0x31000000, 0xFFFFFFFF⟩, by decide⟩

theorem fwFlush : Statement .fwFlush := fun _ => ⟨⟨"FW_FLUSH", .cmd, 0x32000000, 0xFFFFFFFF⟩, by decide⟩

theorem fwIend : Statement .fwIend := fun _ => ⟨⟨"FW_IEND", .cmd, 0x33000000, 0xFFFFFFFF⟩, by decide⟩

theorem feRecon : Statement .feRecon := fun _ => ⟨⟨"FE_RECON", .cmd, 0x40000000, 0xFFFFFFFF⟩, by decide⟩

theorem feApply (f : BitVec 3) : Statement (.feApply f) := fun _ =>
  ⟨⟨"FE_APPLY", .cmd, 0x41000000, 0xFFFFFFF8⟩, by decide, rfl, by revert f; decide +kernel⟩

theorem adpRead (n : Word) : Statement (.adpRead n) := fun _ =>
  ⟨⟨"ADP_READ", .adp, 0x00000000, 0x00000000⟩, by decide, rfl, by
    have h : encode (.adpRead n) &&& 0#32 = 0#32 := BitVec.and_zero
    rw [selectsRow, Bool.and_eq_true]
    exact ⟨rfl, decide_eq_true h⟩⟩

end Sys2Proof.Laws.WordSelectsRow
end

