-- ==== Sys2Proof/Laws/State.lean ====
section
/-! SUPPORT. The small lemmas of the named updates of State: for each update, one lemma per field, what the field is
after it. They are true by unfolding, and simp uses them so that no proof unfolds an update. -/

namespace Sys2Proof.Machine


/-! ### raise -/

@[simp] theorem raise_mode (r : Reason) (info : Word) (s : State) : (raise r info s).mode = s.mode := rfl
@[simp] theorem raise_sigOk (r : Reason) (info : Word) (s : State) : (raise r info s).sigOk = s.sigOk := rfl
@[simp] theorem raise_eor (r : Reason) (info : Word) (s : State) : (raise r info s).eor = s.eor := rfl
@[simp] theorem raise_err (r : Reason) (info : Word) (s : State) : (raise r info s).err = some (s.err.getD r) := rfl
@[simp] theorem raise_errInfo (r : Reason) (info : Word) (s : State) : (raise r info s).errInfo = if s.err.isNone then info else s.errInfo := rfl
@[simp] theorem raise_dstage (r : Reason) (info : Word) (s : State) : (raise r info s).dstage = s.dstage := rfl
@[simp] theorem raise_estage (r : Reason) (info : Word) (s : State) : (raise r info s).estage = s.estage := rfl
@[simp] theorem raise_crc (r : Reason) (info : Word) (s : State) : (raise r info s).crc = s.crc := rfl
@[simp] theorem raise_chunkLen (r : Reason) (info : Word) (s : State) : (raise r info s).chunkLen = s.chunkLen := rfl
@[simp] theorem raise_chunkTag (r : Reason) (info : Word) (s : State) : (raise r info s).chunkTag = s.chunkTag := rfl
@[simp] theorem raise_idatRemain (r : Reason) (info : Word) (s : State) : (raise r info s).idatRemain = s.idatRemain := rfl
@[simp] theorem raise_width (r : Reason) (info : Word) (s : State) : (raise r info s).width = s.width := rfl
@[simp] theorem raise_height (r : Reason) (info : Word) (s : State) : (raise r info s).height = s.height := rfl
@[simp] theorem raise_hdrFmt (r : Reason) (info : Word) (s : State) : (raise r info s).hdrFmt = s.hdrFmt := rfl
@[simp] theorem raise_hdrIl (r : Reason) (info : Word) (s : State) : (raise r info s).hdrIl = s.hdrIl := rfl
@[simp] theorem raise_rowSize (r : Reason) (info : Word) (s : State) : (raise r info s).rowSize = s.rowSize := rfl
@[simp] theorem raise_rowY (r : Reason) (info : Word) (s : State) : (raise r info s).rowY = s.rowY := rfl
@[simp] theorem raise_bufSel (r : Reason) (info : Word) (s : State) : (raise r info s).bufSel = s.bufSel := rfl
@[simp] theorem raise_frResult (r : Reason) (info : Word) (s : State) : (raise r info s).frResult = s.frResult := rfl
@[simp] theorem raise_feResult (r : Reason) (info : Word) (s : State) : (raise r info s).feResult = s.feResult := rfl
@[simp] theorem raise_idatMax (r : Reason) (info : Word) (s : State) : (raise r info s).idatMax = s.idatMax := rfl
@[simp] theorem raise_level (r : Reason) (info : Word) (s : State) : (raise r info s).level = s.level := rfl
@[simp] theorem raise_seg (r : Reason) (info : Word) (s : State) : (raise r info s).seg = s.seg := rfl
@[simp] theorem raise_segMax (r : Reason) (info : Word) (s : State) : (raise r info s).segMax = s.segMax := rfl
@[simp] theorem raise_idatCount (r : Reason) (info : Word) (s : State) : (raise r info s).idatCount = s.idatCount := rfl
@[simp] theorem raise_irqEn (r : Reason) (info : Word) (s : State) : (raise r info s).irqEn = s.irqEn := rfl
@[simp] theorem raise_inp (r : Reason) (info : Word) (s : State) : (raise r info s).inp = s.inp := rfl
@[simp] theorem raise_out (r : Reason) (info : Word) (s : State) : (raise r info s).out = s.out := rfl
@[simp] theorem raise_zin (r : Reason) (info : Word) (s : State) : (raise r info s).zin = s.zin := rfl
@[simp] theorem raise_zout (r : Reason) (info : Word) (s : State) : (raise r info s).zout = s.zout := rfl
@[simp] theorem raise_cz (r : Reason) (info : Word) (s : State) : (raise r info s).cz = s.cz := rfl
@[simp] theorem raise_adp (r : Reason) (info : Word) (s : State) : (raise r info s).adp = if s.fr.serving then none else s.adp := rfl
@[simp] theorem raise_fr (r : Reason) (info : Word) (s : State) : (raise r info s).fr = .idle := rfl
@[simp] theorem raise_fe (r : Reason) (info : Word) (s : State) : (raise r info s).fe = .idle := rfl
@[simp] theorem raise_mem (r : Reason) (info : Word) (s : State) : (raise r info s).mem = s.mem := rfl
@[simp] theorem raise_params (r : Reason) (info : Word) (s : State) : (raise r info s).params = s.params := rfl
@[simp] theorem raise_draws (r : Reason) (info : Word) (s : State) : (raise r info s).draws = s.draws := rfl
@[simp] theorem raise_outputs (r : Reason) (info : Word) (s : State) : (raise r info s).outputs = if s.fr.serving then s.outputs ++ [.adpResponse [] false] else s.outputs := rfl
@[simp] theorem raise_sched (r : Reason) (info : Word) (s : State) : (raise r info s).sched = s.sched := rfl

/-! ### emit -/

@[simp] theorem emit_mode (s : State) (o : Output) : (s.emit o).mode = s.mode := rfl
@[simp] theorem emit_sigOk (s : State) (o : Output) : (s.emit o).sigOk = s.sigOk := rfl
@[simp] theorem emit_eor (s : State) (o : Output) : (s.emit o).eor = s.eor := rfl
@[simp] theorem emit_err (s : State) (o : Output) : (s.emit o).err = s.err := rfl
@[simp] theorem emit_errInfo (s : State) (o : Output) : (s.emit o).errInfo = s.errInfo := rfl
@[simp] theorem emit_dstage (s : State) (o : Output) : (s.emit o).dstage = s.dstage := rfl
@[simp] theorem emit_estage (s : State) (o : Output) : (s.emit o).estage = s.estage := rfl
@[simp] theorem emit_crc (s : State) (o : Output) : (s.emit o).crc = s.crc := rfl
@[simp] theorem emit_chunkLen (s : State) (o : Output) : (s.emit o).chunkLen = s.chunkLen := rfl
@[simp] theorem emit_chunkTag (s : State) (o : Output) : (s.emit o).chunkTag = s.chunkTag := rfl
@[simp] theorem emit_idatRemain (s : State) (o : Output) : (s.emit o).idatRemain = s.idatRemain := rfl
@[simp] theorem emit_width (s : State) (o : Output) : (s.emit o).width = s.width := rfl
@[simp] theorem emit_height (s : State) (o : Output) : (s.emit o).height = s.height := rfl
@[simp] theorem emit_hdrFmt (s : State) (o : Output) : (s.emit o).hdrFmt = s.hdrFmt := rfl
@[simp] theorem emit_hdrIl (s : State) (o : Output) : (s.emit o).hdrIl = s.hdrIl := rfl
@[simp] theorem emit_rowSize (s : State) (o : Output) : (s.emit o).rowSize = s.rowSize := rfl
@[simp] theorem emit_rowY (s : State) (o : Output) : (s.emit o).rowY = s.rowY := rfl
@[simp] theorem emit_bufSel (s : State) (o : Output) : (s.emit o).bufSel = s.bufSel := rfl
@[simp] theorem emit_frResult (s : State) (o : Output) : (s.emit o).frResult = s.frResult := rfl
@[simp] theorem emit_feResult (s : State) (o : Output) : (s.emit o).feResult = s.feResult := rfl
@[simp] theorem emit_idatMax (s : State) (o : Output) : (s.emit o).idatMax = s.idatMax := rfl
@[simp] theorem emit_level (s : State) (o : Output) : (s.emit o).level = s.level := rfl
@[simp] theorem emit_seg (s : State) (o : Output) : (s.emit o).seg = s.seg := rfl
@[simp] theorem emit_segMax (s : State) (o : Output) : (s.emit o).segMax = s.segMax := rfl
@[simp] theorem emit_idatCount (s : State) (o : Output) : (s.emit o).idatCount = s.idatCount := rfl
@[simp] theorem emit_irqEn (s : State) (o : Output) : (s.emit o).irqEn = s.irqEn := rfl
@[simp] theorem emit_inp (s : State) (o : Output) : (s.emit o).inp = s.inp := rfl
@[simp] theorem emit_out (s : State) (o : Output) : (s.emit o).out = s.out := rfl
@[simp] theorem emit_zin (s : State) (o : Output) : (s.emit o).zin = s.zin := rfl
@[simp] theorem emit_zout (s : State) (o : Output) : (s.emit o).zout = s.zout := rfl
@[simp] theorem emit_cz (s : State) (o : Output) : (s.emit o).cz = s.cz := rfl
@[simp] theorem emit_adp (s : State) (o : Output) : (s.emit o).adp = s.adp := rfl
@[simp] theorem emit_fr (s : State) (o : Output) : (s.emit o).fr = s.fr := rfl
@[simp] theorem emit_fe (s : State) (o : Output) : (s.emit o).fe = s.fe := rfl
@[simp] theorem emit_mem (s : State) (o : Output) : (s.emit o).mem = s.mem := rfl
@[simp] theorem emit_params (s : State) (o : Output) : (s.emit o).params = s.params := rfl
@[simp] theorem emit_draws (s : State) (o : Output) : (s.emit o).draws = s.draws := rfl
@[simp] theorem emit_outputs (s : State) (o : Output) : (s.emit o).outputs = s.outputs ++ [o] := rfl
@[simp] theorem emit_sched (s : State) (o : Output) : (s.emit o).sched = s.sched := rfl

/-! ### frDone -/

@[simp] theorem frDone_mode (s : State) (v : Word) : (s.frDone v).mode = s.mode := rfl
@[simp] theorem frDone_sigOk (s : State) (v : Word) : (s.frDone v).sigOk = s.sigOk := rfl
@[simp] theorem frDone_eor (s : State) (v : Word) : (s.frDone v).eor = s.eor := rfl
@[simp] theorem frDone_err (s : State) (v : Word) : (s.frDone v).err = s.err := rfl
@[simp] theorem frDone_errInfo (s : State) (v : Word) : (s.frDone v).errInfo = s.errInfo := rfl
@[simp] theorem frDone_dstage (s : State) (v : Word) : (s.frDone v).dstage = s.dstage := rfl
@[simp] theorem frDone_estage (s : State) (v : Word) : (s.frDone v).estage = s.estage := rfl
@[simp] theorem frDone_crc (s : State) (v : Word) : (s.frDone v).crc = s.crc := rfl
@[simp] theorem frDone_chunkLen (s : State) (v : Word) : (s.frDone v).chunkLen = s.chunkLen := rfl
@[simp] theorem frDone_chunkTag (s : State) (v : Word) : (s.frDone v).chunkTag = s.chunkTag := rfl
@[simp] theorem frDone_idatRemain (s : State) (v : Word) : (s.frDone v).idatRemain = s.idatRemain := rfl
@[simp] theorem frDone_width (s : State) (v : Word) : (s.frDone v).width = s.width := rfl
@[simp] theorem frDone_height (s : State) (v : Word) : (s.frDone v).height = s.height := rfl
@[simp] theorem frDone_hdrFmt (s : State) (v : Word) : (s.frDone v).hdrFmt = s.hdrFmt := rfl
@[simp] theorem frDone_hdrIl (s : State) (v : Word) : (s.frDone v).hdrIl = s.hdrIl := rfl
@[simp] theorem frDone_rowSize (s : State) (v : Word) : (s.frDone v).rowSize = s.rowSize := rfl
@[simp] theorem frDone_rowY (s : State) (v : Word) : (s.frDone v).rowY = s.rowY := rfl
@[simp] theorem frDone_bufSel (s : State) (v : Word) : (s.frDone v).bufSel = s.bufSel := rfl
@[simp] theorem frDone_frResult (s : State) (v : Word) : (s.frDone v).frResult = v := rfl
@[simp] theorem frDone_feResult (s : State) (v : Word) : (s.frDone v).feResult = s.feResult := rfl
@[simp] theorem frDone_idatMax (s : State) (v : Word) : (s.frDone v).idatMax = s.idatMax := rfl
@[simp] theorem frDone_level (s : State) (v : Word) : (s.frDone v).level = s.level := rfl
@[simp] theorem frDone_seg (s : State) (v : Word) : (s.frDone v).seg = s.seg := rfl
@[simp] theorem frDone_segMax (s : State) (v : Word) : (s.frDone v).segMax = s.segMax := rfl
@[simp] theorem frDone_idatCount (s : State) (v : Word) : (s.frDone v).idatCount = s.idatCount := rfl
@[simp] theorem frDone_irqEn (s : State) (v : Word) : (s.frDone v).irqEn = s.irqEn := rfl
@[simp] theorem frDone_inp (s : State) (v : Word) : (s.frDone v).inp = s.inp := rfl
@[simp] theorem frDone_out (s : State) (v : Word) : (s.frDone v).out = s.out := rfl
@[simp] theorem frDone_zin (s : State) (v : Word) : (s.frDone v).zin = s.zin := rfl
@[simp] theorem frDone_zout (s : State) (v : Word) : (s.frDone v).zout = s.zout := rfl
@[simp] theorem frDone_cz (s : State) (v : Word) : (s.frDone v).cz = s.cz := rfl
@[simp] theorem frDone_adp (s : State) (v : Word) : (s.frDone v).adp = s.adp := rfl
@[simp] theorem frDone_fr (s : State) (v : Word) : (s.frDone v).fr = .idle := rfl
@[simp] theorem frDone_fe (s : State) (v : Word) : (s.frDone v).fe = s.fe := rfl
@[simp] theorem frDone_mem (s : State) (v : Word) : (s.frDone v).mem = s.mem := rfl
@[simp] theorem frDone_params (s : State) (v : Word) : (s.frDone v).params = s.params := rfl
@[simp] theorem frDone_draws (s : State) (v : Word) : (s.frDone v).draws = s.draws := rfl
@[simp] theorem frDone_outputs (s : State) (v : Word) : (s.frDone v).outputs = s.outputs := rfl
@[simp] theorem frDone_sched (s : State) (v : Word) : (s.frDone v).sched = s.sched := rfl

/-! ### feDone -/

@[simp] theorem feDone_mode (s : State) (v : Word) : (s.feDone v).mode = s.mode := rfl
@[simp] theorem feDone_sigOk (s : State) (v : Word) : (s.feDone v).sigOk = s.sigOk := rfl
@[simp] theorem feDone_eor (s : State) (v : Word) : (s.feDone v).eor = s.eor := rfl
@[simp] theorem feDone_err (s : State) (v : Word) : (s.feDone v).err = s.err := rfl
@[simp] theorem feDone_errInfo (s : State) (v : Word) : (s.feDone v).errInfo = s.errInfo := rfl
@[simp] theorem feDone_dstage (s : State) (v : Word) : (s.feDone v).dstage = s.dstage := rfl
@[simp] theorem feDone_estage (s : State) (v : Word) : (s.feDone v).estage = s.estage := rfl
@[simp] theorem feDone_crc (s : State) (v : Word) : (s.feDone v).crc = s.crc := rfl
@[simp] theorem feDone_chunkLen (s : State) (v : Word) : (s.feDone v).chunkLen = s.chunkLen := rfl
@[simp] theorem feDone_chunkTag (s : State) (v : Word) : (s.feDone v).chunkTag = s.chunkTag := rfl
@[simp] theorem feDone_idatRemain (s : State) (v : Word) : (s.feDone v).idatRemain = s.idatRemain := rfl
@[simp] theorem feDone_width (s : State) (v : Word) : (s.feDone v).width = s.width := rfl
@[simp] theorem feDone_height (s : State) (v : Word) : (s.feDone v).height = s.height := rfl
@[simp] theorem feDone_hdrFmt (s : State) (v : Word) : (s.feDone v).hdrFmt = s.hdrFmt := rfl
@[simp] theorem feDone_hdrIl (s : State) (v : Word) : (s.feDone v).hdrIl = s.hdrIl := rfl
@[simp] theorem feDone_rowSize (s : State) (v : Word) : (s.feDone v).rowSize = s.rowSize := rfl
@[simp] theorem feDone_rowY (s : State) (v : Word) : (s.feDone v).rowY = s.rowY := rfl
@[simp] theorem feDone_bufSel (s : State) (v : Word) : (s.feDone v).bufSel = s.bufSel := rfl
@[simp] theorem feDone_frResult (s : State) (v : Word) : (s.feDone v).frResult = s.frResult := rfl
@[simp] theorem feDone_feResult (s : State) (v : Word) : (s.feDone v).feResult = v := rfl
@[simp] theorem feDone_idatMax (s : State) (v : Word) : (s.feDone v).idatMax = s.idatMax := rfl
@[simp] theorem feDone_level (s : State) (v : Word) : (s.feDone v).level = s.level := rfl
@[simp] theorem feDone_seg (s : State) (v : Word) : (s.feDone v).seg = s.seg := rfl
@[simp] theorem feDone_segMax (s : State) (v : Word) : (s.feDone v).segMax = s.segMax := rfl
@[simp] theorem feDone_idatCount (s : State) (v : Word) : (s.feDone v).idatCount = s.idatCount := rfl
@[simp] theorem feDone_irqEn (s : State) (v : Word) : (s.feDone v).irqEn = s.irqEn := rfl
@[simp] theorem feDone_inp (s : State) (v : Word) : (s.feDone v).inp = s.inp := rfl
@[simp] theorem feDone_out (s : State) (v : Word) : (s.feDone v).out = s.out := rfl
@[simp] theorem feDone_zin (s : State) (v : Word) : (s.feDone v).zin = s.zin := rfl
@[simp] theorem feDone_zout (s : State) (v : Word) : (s.feDone v).zout = s.zout := rfl
@[simp] theorem feDone_cz (s : State) (v : Word) : (s.feDone v).cz = s.cz := rfl
@[simp] theorem feDone_adp (s : State) (v : Word) : (s.feDone v).adp = s.adp := rfl
@[simp] theorem feDone_fr (s : State) (v : Word) : (s.feDone v).fr = s.fr := rfl
@[simp] theorem feDone_fe (s : State) (v : Word) : (s.feDone v).fe = .idle := rfl
@[simp] theorem feDone_mem (s : State) (v : Word) : (s.feDone v).mem = s.mem := rfl
@[simp] theorem feDone_params (s : State) (v : Word) : (s.feDone v).params = s.params := rfl
@[simp] theorem feDone_draws (s : State) (v : Word) : (s.feDone v).draws = s.draws := rfl
@[simp] theorem feDone_outputs (s : State) (v : Word) : (s.feDone v).outputs = s.outputs := rfl
@[simp] theorem feDone_sched (s : State) (v : Word) : (s.feDone v).sched = s.sched := rfl

/-! ### respond -/

@[simp] theorem respond_mode (s : State) (d : List Byte) (ok : Bool) : (s.respond d ok).mode = s.mode := rfl
@[simp] theorem respond_sigOk (s : State) (d : List Byte) (ok : Bool) : (s.respond d ok).sigOk = s.sigOk := rfl
@[simp] theorem respond_eor (s : State) (d : List Byte) (ok : Bool) : (s.respond d ok).eor = s.eor := rfl
@[simp] theorem respond_err (s : State) (d : List Byte) (ok : Bool) : (s.respond d ok).err = s.err := rfl
@[simp] theorem respond_errInfo (s : State) (d : List Byte) (ok : Bool) : (s.respond d ok).errInfo = s.errInfo := rfl
@[simp] theorem respond_dstage (s : State) (d : List Byte) (ok : Bool) : (s.respond d ok).dstage = s.dstage := rfl
@[simp] theorem respond_estage (s : State) (d : List Byte) (ok : Bool) : (s.respond d ok).estage = s.estage := rfl
@[simp] theorem respond_crc (s : State) (d : List Byte) (ok : Bool) : (s.respond d ok).crc = s.crc := rfl
@[simp] theorem respond_chunkLen (s : State) (d : List Byte) (ok : Bool) : (s.respond d ok).chunkLen = s.chunkLen := rfl
@[simp] theorem respond_chunkTag (s : State) (d : List Byte) (ok : Bool) : (s.respond d ok).chunkTag = s.chunkTag := rfl
@[simp] theorem respond_idatRemain (s : State) (d : List Byte) (ok : Bool) : (s.respond d ok).idatRemain = s.idatRemain := rfl
@[simp] theorem respond_width (s : State) (d : List Byte) (ok : Bool) : (s.respond d ok).width = s.width := rfl
@[simp] theorem respond_height (s : State) (d : List Byte) (ok : Bool) : (s.respond d ok).height = s.height := rfl
@[simp] theorem respond_hdrFmt (s : State) (d : List Byte) (ok : Bool) : (s.respond d ok).hdrFmt = s.hdrFmt := rfl
@[simp] theorem respond_hdrIl (s : State) (d : List Byte) (ok : Bool) : (s.respond d ok).hdrIl = s.hdrIl := rfl
@[simp] theorem respond_rowSize (s : State) (d : List Byte) (ok : Bool) : (s.respond d ok).rowSize = s.rowSize := rfl
@[simp] theorem respond_rowY (s : State) (d : List Byte) (ok : Bool) : (s.respond d ok).rowY = s.rowY := rfl
@[simp] theorem respond_bufSel (s : State) (d : List Byte) (ok : Bool) : (s.respond d ok).bufSel = s.bufSel := rfl
@[simp] theorem respond_frResult (s : State) (d : List Byte) (ok : Bool) : (s.respond d ok).frResult = s.frResult := rfl
@[simp] theorem respond_feResult (s : State) (d : List Byte) (ok : Bool) : (s.respond d ok).feResult = s.feResult := rfl
@[simp] theorem respond_idatMax (s : State) (d : List Byte) (ok : Bool) : (s.respond d ok).idatMax = s.idatMax := rfl
@[simp] theorem respond_level (s : State) (d : List Byte) (ok : Bool) : (s.respond d ok).level = s.level := rfl
@[simp] theorem respond_seg (s : State) (d : List Byte) (ok : Bool) : (s.respond d ok).seg = s.seg := rfl
@[simp] theorem respond_segMax (s : State) (d : List Byte) (ok : Bool) : (s.respond d ok).segMax = s.segMax := rfl
@[simp] theorem respond_idatCount (s : State) (d : List Byte) (ok : Bool) : (s.respond d ok).idatCount = s.idatCount := rfl
@[simp] theorem respond_irqEn (s : State) (d : List Byte) (ok : Bool) : (s.respond d ok).irqEn = s.irqEn := rfl
@[simp] theorem respond_inp (s : State) (d : List Byte) (ok : Bool) : (s.respond d ok).inp = s.inp := rfl
@[simp] theorem respond_out (s : State) (d : List Byte) (ok : Bool) : (s.respond d ok).out = s.out := rfl
@[simp] theorem respond_zin (s : State) (d : List Byte) (ok : Bool) : (s.respond d ok).zin = s.zin := rfl
@[simp] theorem respond_zout (s : State) (d : List Byte) (ok : Bool) : (s.respond d ok).zout = s.zout := rfl
@[simp] theorem respond_cz (s : State) (d : List Byte) (ok : Bool) : (s.respond d ok).cz = s.cz := rfl
@[simp] theorem respond_adp (s : State) (d : List Byte) (ok : Bool) : (s.respond d ok).adp = none := rfl
@[simp] theorem respond_fr (s : State) (d : List Byte) (ok : Bool) : (s.respond d ok).fr = .idle := rfl
@[simp] theorem respond_fe (s : State) (d : List Byte) (ok : Bool) : (s.respond d ok).fe = s.fe := rfl
@[simp] theorem respond_mem (s : State) (d : List Byte) (ok : Bool) : (s.respond d ok).mem = s.mem := rfl
@[simp] theorem respond_params (s : State) (d : List Byte) (ok : Bool) : (s.respond d ok).params = s.params := rfl
@[simp] theorem respond_draws (s : State) (d : List Byte) (ok : Bool) : (s.respond d ok).draws = s.draws := rfl
@[simp] theorem respond_outputs (s : State) (d : List Byte) (ok : Bool) : (s.respond d ok).outputs = s.outputs ++ [.adpResponse d ok] := rfl
@[simp] theorem respond_sched (s : State) (d : List Byte) (ok : Bool) : (s.respond d ok).sched = s.sched := rfl

/-! ### writeChunk -/

@[simp] theorem writeChunk_mode (s : State) (tag d : List Byte) : (s.writeChunk tag d).mode = s.mode := rfl
@[simp] theorem writeChunk_sigOk (s : State) (tag d : List Byte) : (s.writeChunk tag d).sigOk = s.sigOk := rfl
@[simp] theorem writeChunk_eor (s : State) (tag d : List Byte) : (s.writeChunk tag d).eor = s.eor := rfl
@[simp] theorem writeChunk_err (s : State) (tag d : List Byte) : (s.writeChunk tag d).err = s.err := rfl
@[simp] theorem writeChunk_errInfo (s : State) (tag d : List Byte) : (s.writeChunk tag d).errInfo = s.errInfo := rfl
@[simp] theorem writeChunk_dstage (s : State) (tag d : List Byte) : (s.writeChunk tag d).dstage = s.dstage := rfl
@[simp] theorem writeChunk_estage (s : State) (tag d : List Byte) : (s.writeChunk tag d).estage = s.estage := rfl
@[simp] theorem writeChunk_crc (s : State) (tag d : List Byte) : (s.writeChunk tag d).crc = crcFeed (crcFeed crcStart tag) d := rfl
@[simp] theorem writeChunk_chunkLen (s : State) (tag d : List Byte) : (s.writeChunk tag d).chunkLen = BitVec.ofNat 32 d.length := rfl
@[simp] theorem writeChunk_chunkTag (s : State) (tag d : List Byte) : (s.writeChunk tag d).chunkTag = be32At tag 0 := rfl
@[simp] theorem writeChunk_idatRemain (s : State) (tag d : List Byte) : (s.writeChunk tag d).idatRemain = s.idatRemain := rfl
@[simp] theorem writeChunk_width (s : State) (tag d : List Byte) : (s.writeChunk tag d).width = s.width := rfl
@[simp] theorem writeChunk_height (s : State) (tag d : List Byte) : (s.writeChunk tag d).height = s.height := rfl
@[simp] theorem writeChunk_hdrFmt (s : State) (tag d : List Byte) : (s.writeChunk tag d).hdrFmt = s.hdrFmt := rfl
@[simp] theorem writeChunk_hdrIl (s : State) (tag d : List Byte) : (s.writeChunk tag d).hdrIl = s.hdrIl := rfl
@[simp] theorem writeChunk_rowSize (s : State) (tag d : List Byte) : (s.writeChunk tag d).rowSize = s.rowSize := rfl
@[simp] theorem writeChunk_rowY (s : State) (tag d : List Byte) : (s.writeChunk tag d).rowY = s.rowY := rfl
@[simp] theorem writeChunk_bufSel (s : State) (tag d : List Byte) : (s.writeChunk tag d).bufSel = s.bufSel := rfl
@[simp] theorem writeChunk_frResult (s : State) (tag d : List Byte) : (s.writeChunk tag d).frResult = s.frResult := rfl
@[simp] theorem writeChunk_feResult (s : State) (tag d : List Byte) : (s.writeChunk tag d).feResult = s.feResult := rfl
@[simp] theorem writeChunk_idatMax (s : State) (tag d : List Byte) : (s.writeChunk tag d).idatMax = s.idatMax := rfl
@[simp] theorem writeChunk_level (s : State) (tag d : List Byte) : (s.writeChunk tag d).level = s.level := rfl
@[simp] theorem writeChunk_seg (s : State) (tag d : List Byte) : (s.writeChunk tag d).seg = s.seg := rfl
@[simp] theorem writeChunk_segMax (s : State) (tag d : List Byte) : (s.writeChunk tag d).segMax = s.segMax := rfl
@[simp] theorem writeChunk_idatCount (s : State) (tag d : List Byte) : (s.writeChunk tag d).idatCount = s.idatCount := rfl
@[simp] theorem writeChunk_irqEn (s : State) (tag d : List Byte) : (s.writeChunk tag d).irqEn = s.irqEn := rfl
@[simp] theorem writeChunk_inp (s : State) (tag d : List Byte) : (s.writeChunk tag d).inp = s.inp := rfl
@[simp] theorem writeChunk_out (s : State) (tag d : List Byte) : (s.writeChunk tag d).out = s.out.append (chunkBytes tag d) := rfl
@[simp] theorem writeChunk_zin (s : State) (tag d : List Byte) : (s.writeChunk tag d).zin = s.zin := rfl
@[simp] theorem writeChunk_zout (s : State) (tag d : List Byte) : (s.writeChunk tag d).zout = s.zout := rfl
@[simp] theorem writeChunk_cz (s : State) (tag d : List Byte) : (s.writeChunk tag d).cz = s.cz := rfl
@[simp] theorem writeChunk_adp (s : State) (tag d : List Byte) : (s.writeChunk tag d).adp = s.adp := rfl
@[simp] theorem writeChunk_fr (s : State) (tag d : List Byte) : (s.writeChunk tag d).fr = s.fr := rfl
@[simp] theorem writeChunk_fe (s : State) (tag d : List Byte) : (s.writeChunk tag d).fe = s.fe := rfl
@[simp] theorem writeChunk_mem (s : State) (tag d : List Byte) : (s.writeChunk tag d).mem = s.mem := rfl
@[simp] theorem writeChunk_params (s : State) (tag d : List Byte) : (s.writeChunk tag d).params = s.params := rfl
@[simp] theorem writeChunk_draws (s : State) (tag d : List Byte) : (s.writeChunk tag d).draws = s.draws := rfl
@[simp] theorem writeChunk_outputs (s : State) (tag d : List Byte) : (s.writeChunk tag d).outputs = s.outputs := rfl
@[simp] theorem writeChunk_sched (s : State) (tag d : List Byte) : (s.writeChunk tag d).sched = s.sched := rfl

/-! ### emitIdat -/

@[simp] theorem emitIdat_mode (s : State) : (s.emitIdat).mode = s.mode := rfl
@[simp] theorem emitIdat_sigOk (s : State) : (s.emitIdat).sigOk = s.sigOk := rfl
@[simp] theorem emitIdat_eor (s : State) : (s.emitIdat).eor = s.eor := rfl
@[simp] theorem emitIdat_err (s : State) : (s.emitIdat).err = s.err := rfl
@[simp] theorem emitIdat_errInfo (s : State) : (s.emitIdat).errInfo = s.errInfo := rfl
@[simp] theorem emitIdat_dstage (s : State) : (s.emitIdat).dstage = s.dstage := rfl
@[simp] theorem emitIdat_estage (s : State) : (s.emitIdat).estage = s.estage := rfl
@[simp] theorem emitIdat_crc (s : State) : (s.emitIdat).crc = crcFeed (crcFeed crcStart tagIdat) s.seg := rfl
@[simp] theorem emitIdat_chunkLen (s : State) : (s.emitIdat).chunkLen = BitVec.ofNat 32 s.seg.length := rfl
@[simp] theorem emitIdat_chunkTag (s : State) : (s.emitIdat).chunkTag = be32At tagIdat 0 := rfl
@[simp] theorem emitIdat_idatRemain (s : State) : (s.emitIdat).idatRemain = s.idatRemain := rfl
@[simp] theorem emitIdat_width (s : State) : (s.emitIdat).width = s.width := rfl
@[simp] theorem emitIdat_height (s : State) : (s.emitIdat).height = s.height := rfl
@[simp] theorem emitIdat_hdrFmt (s : State) : (s.emitIdat).hdrFmt = s.hdrFmt := rfl
@[simp] theorem emitIdat_hdrIl (s : State) : (s.emitIdat).hdrIl = s.hdrIl := rfl
@[simp] theorem emitIdat_rowSize (s : State) : (s.emitIdat).rowSize = s.rowSize := rfl
@[simp] theorem emitIdat_rowY (s : State) : (s.emitIdat).rowY = s.rowY := rfl
@[simp] theorem emitIdat_bufSel (s : State) : (s.emitIdat).bufSel = s.bufSel := rfl
@[simp] theorem emitIdat_frResult (s : State) : (s.emitIdat).frResult = s.frResult := rfl
@[simp] theorem emitIdat_feResult (s : State) : (s.emitIdat).feResult = s.feResult := rfl
@[simp] theorem emitIdat_idatMax (s : State) : (s.emitIdat).idatMax = s.idatMax := rfl
@[simp] theorem emitIdat_level (s : State) : (s.emitIdat).level = s.level := rfl
@[simp] theorem emitIdat_seg (s : State) : (s.emitIdat).seg = [] := rfl
@[simp] theorem emitIdat_segMax (s : State) : (s.emitIdat).segMax = s.segMax := rfl
@[simp] theorem emitIdat_idatCount (s : State) : (s.emitIdat).idatCount = saturatingSucc s.idatCount := rfl
@[simp] theorem emitIdat_irqEn (s : State) : (s.emitIdat).irqEn = s.irqEn := rfl
@[simp] theorem emitIdat_inp (s : State) : (s.emitIdat).inp = s.inp := rfl
@[simp] theorem emitIdat_out (s : State) : (s.emitIdat).out = s.out.append (chunkBytes tagIdat s.seg) := rfl
@[simp] theorem emitIdat_zin (s : State) : (s.emitIdat).zin = s.zin := rfl
@[simp] theorem emitIdat_zout (s : State) : (s.emitIdat).zout = s.zout := rfl
@[simp] theorem emitIdat_cz (s : State) : (s.emitIdat).cz = s.cz := rfl
@[simp] theorem emitIdat_adp (s : State) : (s.emitIdat).adp = s.adp := rfl
@[simp] theorem emitIdat_fr (s : State) : (s.emitIdat).fr = s.fr := rfl
@[simp] theorem emitIdat_fe (s : State) : (s.emitIdat).fe = s.fe := rfl
@[simp] theorem emitIdat_mem (s : State) : (s.emitIdat).mem = s.mem := rfl
@[simp] theorem emitIdat_params (s : State) : (s.emitIdat).params = s.params := rfl
@[simp] theorem emitIdat_draws (s : State) : (s.emitIdat).draws = s.draws := rfl
@[simp] theorem emitIdat_outputs (s : State) : (s.emitIdat).outputs = s.outputs := rfl
@[simp] theorem emitIdat_sched (s : State) : (s.emitIdat).sched = s.sched := rfl

/-! ### acceptRows -/

@[simp] theorem acceptRows_mode (s : State) (w : Word) : (s.acceptRows w).mode = s.mode := rfl
@[simp] theorem acceptRows_sigOk (s : State) (w : Word) : (s.acceptRows w).sigOk = s.sigOk := rfl
@[simp] theorem acceptRows_eor (s : State) (w : Word) : (s.acceptRows w).eor = s.eor := rfl
@[simp] theorem acceptRows_err (s : State) (w : Word) : (s.acceptRows w).err = s.err := rfl
@[simp] theorem acceptRows_errInfo (s : State) (w : Word) : (s.acceptRows w).errInfo = s.errInfo := rfl
@[simp] theorem acceptRows_dstage (s : State) (w : Word) : (s.acceptRows w).dstage = s.dstage := rfl
@[simp] theorem acceptRows_estage (s : State) (w : Word) : (s.acceptRows w).estage = s.estage := rfl
@[simp] theorem acceptRows_crc (s : State) (w : Word) : (s.acceptRows w).crc = s.crc := rfl
@[simp] theorem acceptRows_chunkLen (s : State) (w : Word) : (s.acceptRows w).chunkLen = s.chunkLen := rfl
@[simp] theorem acceptRows_chunkTag (s : State) (w : Word) : (s.acceptRows w).chunkTag = s.chunkTag := rfl
@[simp] theorem acceptRows_idatRemain (s : State) (w : Word) : (s.acceptRows w).idatRemain = s.idatRemain := rfl
@[simp] theorem acceptRows_width (s : State) (w : Word) : (s.acceptRows w).width = s.width := rfl
@[simp] theorem acceptRows_height (s : State) (w : Word) : (s.acceptRows w).height = s.height := rfl
@[simp] theorem acceptRows_hdrFmt (s : State) (w : Word) : (s.acceptRows w).hdrFmt = s.hdrFmt := rfl
@[simp] theorem acceptRows_hdrIl (s : State) (w : Word) : (s.acceptRows w).hdrIl = s.hdrIl := rfl
@[simp] theorem acceptRows_rowSize (s : State) (w : Word) : (s.acceptRows w).rowSize = rowSizeOf w := rfl
@[simp] theorem acceptRows_rowY (s : State) (w : Word) : (s.acceptRows w).rowY = 0 := rfl
@[simp] theorem acceptRows_bufSel (s : State) (w : Word) : (s.acceptRows w).bufSel = false := rfl
@[simp] theorem acceptRows_frResult (s : State) (w : Word) : (s.acceptRows w).frResult = s.frResult := rfl
@[simp] theorem acceptRows_feResult (s : State) (w : Word) : (s.acceptRows w).feResult = s.feResult := rfl
@[simp] theorem acceptRows_idatMax (s : State) (w : Word) : (s.acceptRows w).idatMax = s.idatMax := rfl
@[simp] theorem acceptRows_level (s : State) (w : Word) : (s.acceptRows w).level = s.level := rfl
@[simp] theorem acceptRows_seg (s : State) (w : Word) : (s.acceptRows w).seg = s.seg := rfl
@[simp] theorem acceptRows_segMax (s : State) (w : Word) : (s.acceptRows w).segMax = s.segMax := rfl
@[simp] theorem acceptRows_idatCount (s : State) (w : Word) : (s.acceptRows w).idatCount = s.idatCount := rfl
@[simp] theorem acceptRows_irqEn (s : State) (w : Word) : (s.acceptRows w).irqEn = s.irqEn := rfl
@[simp] theorem acceptRows_inp (s : State) (w : Word) : (s.acceptRows w).inp = s.inp := rfl
@[simp] theorem acceptRows_out (s : State) (w : Word) : (s.acceptRows w).out = s.out := rfl
@[simp] theorem acceptRows_zin (s : State) (w : Word) : (s.acceptRows w).zin = s.zin := rfl
@[simp] theorem acceptRows_zout (s : State) (w : Word) : (s.acceptRows w).zout = s.zout := rfl
@[simp] theorem acceptRows_cz (s : State) (w : Word) : (s.acceptRows w).cz = s.cz := rfl
@[simp] theorem acceptRows_adp (s : State) (w : Word) : (s.acceptRows w).adp = s.adp := rfl
@[simp] theorem acceptRows_fr (s : State) (w : Word) : (s.acceptRows w).fr = s.fr := rfl
@[simp] theorem acceptRows_fe (s : State) (w : Word) : (s.acceptRows w).fe = s.fe := rfl
@[simp] theorem acceptRows_mem (s : State) (w : Word) : (s.acceptRows w).mem = s.mem.zeroBoth (rowSizeOf w).toNat := rfl
@[simp] theorem acceptRows_params (s : State) (w : Word) : (s.acceptRows w).params = s.params := rfl
@[simp] theorem acceptRows_draws (s : State) (w : Word) : (s.acceptRows w).draws = s.draws := rfl
@[simp] theorem acceptRows_outputs (s : State) (w : Word) : (s.acceptRows w).outputs = s.outputs := rfl
@[simp] theorem acceptRows_sched (s : State) (w : Word) : (s.acceptRows w).sched = s.sched := rfl

/-! ### chunkHeader -/

@[simp] theorem chunkHeader_mode (h : List Byte) (s : State) : (chunkHeader h s).mode = s.mode := rfl
@[simp] theorem chunkHeader_sigOk (h : List Byte) (s : State) : (chunkHeader h s).sigOk = s.sigOk := rfl
@[simp] theorem chunkHeader_eor (h : List Byte) (s : State) : (chunkHeader h s).eor = s.eor := rfl
@[simp] theorem chunkHeader_err (h : List Byte) (s : State) : (chunkHeader h s).err = s.err := rfl
@[simp] theorem chunkHeader_errInfo (h : List Byte) (s : State) : (chunkHeader h s).errInfo = s.errInfo := rfl
@[simp] theorem chunkHeader_dstage (h : List Byte) (s : State) : (chunkHeader h s).dstage = s.dstage := rfl
@[simp] theorem chunkHeader_estage (h : List Byte) (s : State) : (chunkHeader h s).estage = s.estage := rfl
@[simp] theorem chunkHeader_crc (h : List Byte) (s : State) : (chunkHeader h s).crc = crcFeed crcStart (h.drop 4) := rfl
@[simp] theorem chunkHeader_chunkLen (h : List Byte) (s : State) : (chunkHeader h s).chunkLen = be32At h 0 := rfl
@[simp] theorem chunkHeader_chunkTag (h : List Byte) (s : State) : (chunkHeader h s).chunkTag = be32At h 4 := rfl
@[simp] theorem chunkHeader_idatRemain (h : List Byte) (s : State) : (chunkHeader h s).idatRemain = s.idatRemain := rfl
@[simp] theorem chunkHeader_width (h : List Byte) (s : State) : (chunkHeader h s).width = s.width := rfl
@[simp] theorem chunkHeader_height (h : List Byte) (s : State) : (chunkHeader h s).height = s.height := rfl
@[simp] theorem chunkHeader_hdrFmt (h : List Byte) (s : State) : (chunkHeader h s).hdrFmt = s.hdrFmt := rfl
@[simp] theorem chunkHeader_hdrIl (h : List Byte) (s : State) : (chunkHeader h s).hdrIl = s.hdrIl := rfl
@[simp] theorem chunkHeader_rowSize (h : List Byte) (s : State) : (chunkHeader h s).rowSize = s.rowSize := rfl
@[simp] theorem chunkHeader_rowY (h : List Byte) (s : State) : (chunkHeader h s).rowY = s.rowY := rfl
@[simp] theorem chunkHeader_bufSel (h : List Byte) (s : State) : (chunkHeader h s).bufSel = s.bufSel := rfl
@[simp] theorem chunkHeader_frResult (h : List Byte) (s : State) : (chunkHeader h s).frResult = s.frResult := rfl
@[simp] theorem chunkHeader_feResult (h : List Byte) (s : State) : (chunkHeader h s).feResult = s.feResult := rfl
@[simp] theorem chunkHeader_idatMax (h : List Byte) (s : State) : (chunkHeader h s).idatMax = s.idatMax := rfl
@[simp] theorem chunkHeader_level (h : List Byte) (s : State) : (chunkHeader h s).level = s.level := rfl
@[simp] theorem chunkHeader_seg (h : List Byte) (s : State) : (chunkHeader h s).seg = s.seg := rfl
@[simp] theorem chunkHeader_segMax (h : List Byte) (s : State) : (chunkHeader h s).segMax = s.segMax := rfl
@[simp] theorem chunkHeader_idatCount (h : List Byte) (s : State) : (chunkHeader h s).idatCount = s.idatCount := rfl
@[simp] theorem chunkHeader_irqEn (h : List Byte) (s : State) : (chunkHeader h s).irqEn = s.irqEn := rfl
@[simp] theorem chunkHeader_inp (h : List Byte) (s : State) : (chunkHeader h s).inp = s.inp := rfl
@[simp] theorem chunkHeader_out (h : List Byte) (s : State) : (chunkHeader h s).out = s.out := rfl
@[simp] theorem chunkHeader_zin (h : List Byte) (s : State) : (chunkHeader h s).zin = s.zin := rfl
@[simp] theorem chunkHeader_zout (h : List Byte) (s : State) : (chunkHeader h s).zout = s.zout := rfl
@[simp] theorem chunkHeader_cz (h : List Byte) (s : State) : (chunkHeader h s).cz = s.cz := rfl
@[simp] theorem chunkHeader_adp (h : List Byte) (s : State) : (chunkHeader h s).adp = s.adp := rfl
@[simp] theorem chunkHeader_fr (h : List Byte) (s : State) : (chunkHeader h s).fr = s.fr := rfl
@[simp] theorem chunkHeader_fe (h : List Byte) (s : State) : (chunkHeader h s).fe = s.fe := rfl
@[simp] theorem chunkHeader_mem (h : List Byte) (s : State) : (chunkHeader h s).mem = s.mem := rfl
@[simp] theorem chunkHeader_params (h : List Byte) (s : State) : (chunkHeader h s).params = s.params := rfl
@[simp] theorem chunkHeader_draws (h : List Byte) (s : State) : (chunkHeader h s).draws = s.draws := rfl
@[simp] theorem chunkHeader_outputs (h : List Byte) (s : State) : (chunkHeader h s).outputs = s.outputs := rfl
@[simp] theorem chunkHeader_sched (h : List Byte) (s : State) : (chunkHeader h s).sched = s.sched := rfl

/-! ### setCur -/

@[simp] theorem setCur_mode (s : State) (i : Nat) (b : Byte) : (s.setCur i b).mode = s.mode := rfl
@[simp] theorem setCur_sigOk (s : State) (i : Nat) (b : Byte) : (s.setCur i b).sigOk = s.sigOk := rfl
@[simp] theorem setCur_eor (s : State) (i : Nat) (b : Byte) : (s.setCur i b).eor = s.eor := rfl
@[simp] theorem setCur_err (s : State) (i : Nat) (b : Byte) : (s.setCur i b).err = s.err := rfl
@[simp] theorem setCur_errInfo (s : State) (i : Nat) (b : Byte) : (s.setCur i b).errInfo = s.errInfo := rfl
@[simp] theorem setCur_dstage (s : State) (i : Nat) (b : Byte) : (s.setCur i b).dstage = s.dstage := rfl
@[simp] theorem setCur_estage (s : State) (i : Nat) (b : Byte) : (s.setCur i b).estage = s.estage := rfl
@[simp] theorem setCur_crc (s : State) (i : Nat) (b : Byte) : (s.setCur i b).crc = s.crc := rfl
@[simp] theorem setCur_chunkLen (s : State) (i : Nat) (b : Byte) : (s.setCur i b).chunkLen = s.chunkLen := rfl
@[simp] theorem setCur_chunkTag (s : State) (i : Nat) (b : Byte) : (s.setCur i b).chunkTag = s.chunkTag := rfl
@[simp] theorem setCur_idatRemain (s : State) (i : Nat) (b : Byte) : (s.setCur i b).idatRemain = s.idatRemain := rfl
@[simp] theorem setCur_width (s : State) (i : Nat) (b : Byte) : (s.setCur i b).width = s.width := rfl
@[simp] theorem setCur_height (s : State) (i : Nat) (b : Byte) : (s.setCur i b).height = s.height := rfl
@[simp] theorem setCur_hdrFmt (s : State) (i : Nat) (b : Byte) : (s.setCur i b).hdrFmt = s.hdrFmt := rfl
@[simp] theorem setCur_hdrIl (s : State) (i : Nat) (b : Byte) : (s.setCur i b).hdrIl = s.hdrIl := rfl
@[simp] theorem setCur_rowSize (s : State) (i : Nat) (b : Byte) : (s.setCur i b).rowSize = s.rowSize := rfl
@[simp] theorem setCur_rowY (s : State) (i : Nat) (b : Byte) : (s.setCur i b).rowY = s.rowY := rfl
@[simp] theorem setCur_bufSel (s : State) (i : Nat) (b : Byte) : (s.setCur i b).bufSel = s.bufSel := rfl
@[simp] theorem setCur_frResult (s : State) (i : Nat) (b : Byte) : (s.setCur i b).frResult = s.frResult := rfl
@[simp] theorem setCur_feResult (s : State) (i : Nat) (b : Byte) : (s.setCur i b).feResult = s.feResult := rfl
@[simp] theorem setCur_idatMax (s : State) (i : Nat) (b : Byte) : (s.setCur i b).idatMax = s.idatMax := rfl
@[simp] theorem setCur_level (s : State) (i : Nat) (b : Byte) : (s.setCur i b).level = s.level := rfl
@[simp] theorem setCur_seg (s : State) (i : Nat) (b : Byte) : (s.setCur i b).seg = s.seg := rfl
@[simp] theorem setCur_segMax (s : State) (i : Nat) (b : Byte) : (s.setCur i b).segMax = s.segMax := rfl
@[simp] theorem setCur_idatCount (s : State) (i : Nat) (b : Byte) : (s.setCur i b).idatCount = s.idatCount := rfl
@[simp] theorem setCur_irqEn (s : State) (i : Nat) (b : Byte) : (s.setCur i b).irqEn = s.irqEn := rfl
@[simp] theorem setCur_inp (s : State) (i : Nat) (b : Byte) : (s.setCur i b).inp = s.inp := rfl
@[simp] theorem setCur_out (s : State) (i : Nat) (b : Byte) : (s.setCur i b).out = s.out := rfl
@[simp] theorem setCur_zin (s : State) (i : Nat) (b : Byte) : (s.setCur i b).zin = s.zin := rfl
@[simp] theorem setCur_zout (s : State) (i : Nat) (b : Byte) : (s.setCur i b).zout = s.zout := rfl
@[simp] theorem setCur_cz (s : State) (i : Nat) (b : Byte) : (s.setCur i b).cz = s.cz := rfl
@[simp] theorem setCur_adp (s : State) (i : Nat) (b : Byte) : (s.setCur i b).adp = s.adp := rfl
@[simp] theorem setCur_fr (s : State) (i : Nat) (b : Byte) : (s.setCur i b).fr = s.fr := rfl
@[simp] theorem setCur_fe (s : State) (i : Nat) (b : Byte) : (s.setCur i b).fe = s.fe := rfl
@[simp] theorem setCur_mem (s : State) (i : Nat) (b : Byte) : (s.setCur i b).mem = s.mem.writeByte s.bufSel i b := rfl
@[simp] theorem setCur_params (s : State) (i : Nat) (b : Byte) : (s.setCur i b).params = s.params := rfl
@[simp] theorem setCur_draws (s : State) (i : Nat) (b : Byte) : (s.setCur i b).draws = s.draws := rfl
@[simp] theorem setCur_outputs (s : State) (i : Nat) (b : Byte) : (s.setCur i b).outputs = s.outputs := rfl
@[simp] theorem setCur_sched (s : State) (i : Nat) (b : Byte) : (s.setCur i b).sched = s.sched := rfl

/-! ### rowDone -/

@[simp] theorem rowDone_mode (s : State) : (s.rowDone).mode = s.mode := rfl
@[simp] theorem rowDone_sigOk (s : State) : (s.rowDone).sigOk = s.sigOk := rfl
@[simp] theorem rowDone_eor (s : State) : (s.rowDone).eor = s.eor := rfl
@[simp] theorem rowDone_err (s : State) : (s.rowDone).err = s.err := rfl
@[simp] theorem rowDone_errInfo (s : State) : (s.rowDone).errInfo = s.errInfo := rfl
@[simp] theorem rowDone_dstage (s : State) : (s.rowDone).dstage = s.dstage := rfl
@[simp] theorem rowDone_estage (s : State) : (s.rowDone).estage = s.estage := rfl
@[simp] theorem rowDone_crc (s : State) : (s.rowDone).crc = s.crc := rfl
@[simp] theorem rowDone_chunkLen (s : State) : (s.rowDone).chunkLen = s.chunkLen := rfl
@[simp] theorem rowDone_chunkTag (s : State) : (s.rowDone).chunkTag = s.chunkTag := rfl
@[simp] theorem rowDone_idatRemain (s : State) : (s.rowDone).idatRemain = s.idatRemain := rfl
@[simp] theorem rowDone_width (s : State) : (s.rowDone).width = s.width := rfl
@[simp] theorem rowDone_height (s : State) : (s.rowDone).height = s.height := rfl
@[simp] theorem rowDone_hdrFmt (s : State) : (s.rowDone).hdrFmt = s.hdrFmt := rfl
@[simp] theorem rowDone_hdrIl (s : State) : (s.rowDone).hdrIl = s.hdrIl := rfl
@[simp] theorem rowDone_rowSize (s : State) : (s.rowDone).rowSize = s.rowSize := rfl
@[simp] theorem rowDone_rowY (s : State) : (s.rowDone).rowY = s.rowY + 1 := rfl
@[simp] theorem rowDone_bufSel (s : State) : (s.rowDone).bufSel = !s.bufSel := rfl
@[simp] theorem rowDone_frResult (s : State) : (s.rowDone).frResult = s.frResult := rfl
@[simp] theorem rowDone_feResult (s : State) : (s.rowDone).feResult = 0 := rfl
@[simp] theorem rowDone_idatMax (s : State) : (s.rowDone).idatMax = s.idatMax := rfl
@[simp] theorem rowDone_level (s : State) : (s.rowDone).level = s.level := rfl
@[simp] theorem rowDone_seg (s : State) : (s.rowDone).seg = s.seg := rfl
@[simp] theorem rowDone_segMax (s : State) : (s.rowDone).segMax = s.segMax := rfl
@[simp] theorem rowDone_idatCount (s : State) : (s.rowDone).idatCount = s.idatCount := rfl
@[simp] theorem rowDone_irqEn (s : State) : (s.rowDone).irqEn = s.irqEn := rfl
@[simp] theorem rowDone_inp (s : State) : (s.rowDone).inp = s.inp := rfl
@[simp] theorem rowDone_out (s : State) : (s.rowDone).out = s.out := rfl
@[simp] theorem rowDone_zin (s : State) : (s.rowDone).zin = s.zin := rfl
@[simp] theorem rowDone_zout (s : State) : (s.rowDone).zout = s.zout := rfl
@[simp] theorem rowDone_cz (s : State) : (s.rowDone).cz = s.cz := rfl
@[simp] theorem rowDone_adp (s : State) : (s.rowDone).adp = s.adp := rfl
@[simp] theorem rowDone_fr (s : State) : (s.rowDone).fr = s.fr := rfl
@[simp] theorem rowDone_fe (s : State) : (s.rowDone).fe = .idle := rfl
@[simp] theorem rowDone_mem (s : State) : (s.rowDone).mem = s.mem := rfl
@[simp] theorem rowDone_params (s : State) : (s.rowDone).params = s.params := rfl
@[simp] theorem rowDone_draws (s : State) : (s.rowDone).draws = s.draws := rfl
@[simp] theorem rowDone_outputs (s : State) : (s.rowDone).outputs = s.outputs := rfl
@[simp] theorem rowDone_sched (s : State) : (s.rowDone).sched = s.sched := rfl

end Sys2Proof.Machine
end

