-- ==== Sys2Proof/Laws/Reads.lean ====
section
/-! SUPPORT. The laws of the three segment loops: what `readLoop`, `flushLoop` and `rowLoop` do with the bytes a stream
holds. Each is stated once, so that a proof about a command never unfolds a loop. -/

namespace Sys2Proof.Machine

/-! ### Reading IN -/

@[simp] theorem runGo_ended (s : State) : runGo (.ended s) = s := rfl

@[simp] theorem runGo_read (k : Nat) (p : FrPoint) (s : State) : runGo (.read k p s) = readIn k p s := rfl

theorem runGo_ite (c : Prop) [Decidable c] (g h : Go) : runGo (if c then g else h) = if c then runGo g else runGo h :=
  apply_ite runGo c g h

/-- `P` holds of the state a piece of pseudocode passes on to its next `ReadIn`. -/
def Go.ReadAll (P : Nat → FrPoint → State → Prop) : Go → Prop
  | .ended _ => True
  | .read k p s => P k p s

theorem goReadAll_ite {P : Nat → FrPoint → State → Prop} {c : Prop} [Decidable c] {g h : Go} (hg : g.ReadAll P)
    (hh : h.ReadAll P) : (if c then g else h).ReadAll P := by
  split <;> assumption

/-- Every `ReadIn` a piece of pseudocode calls asks for at least one byte, and the piece before it has left IN, the
in-progress records, MODE, ERR and the pending request alone. -/
def ReadsOn (s : State) (k : Nat) (_ : FrPoint) (t : State) : Prop :=
  1 ≤ k ∧ t.inp = s.inp ∧ t.fr = s.fr ∧ t.fe = s.fe ∧ t.mode = s.mode ∧ t.err = s.err ∧ t.adp = s.adp ∧
    t.outputs = s.outputs

theorem afterChunk_reads {s t : State} (o : Bool) (h : t.inp = s.inp ∧ t.fr = s.fr ∧ t.fe = s.fe ∧ t.mode = s.mode ∧
    t.err = s.err ∧ t.adp = s.adp ∧ t.outputs = s.outputs) : (afterChunk o t).ReadAll (ReadsOn s) := by
  unfold afterChunk
  split
  · split
    · trivial
    · exact ⟨by decide, h⟩
  · trivial

theorem skipNext_reads {s t : State} (o : Bool) (n : Nat) (h : t.inp = s.inp ∧ t.fr = s.fr ∧ t.fe = s.fe ∧
    t.mode = s.mode ∧ t.err = s.err ∧ t.adp = s.adp ∧ t.outputs = s.outputs) :
    (skipNext o n t).ReadAll (ReadsOn s) := by
  unfold skipNext
  split <;> exact ⟨by decide, h⟩

theorem verifyChecksum_reads {s t : State} (c : List Byte) {g : Go} (h : g.ReadAll (ReadsOn s)) :
    (verifyChecksum c t g).ReadAll (ReadsOn s) := by
  unfold verifyChecksum
  split
  · exact h
  · trivial

theorem adpNext_reads {s t : State} (n : Word) (hn : n ≠ 0) (h : t.inp = s.inp ∧ t.fr = s.fr ∧ t.fe = s.fe ∧
    t.mode = s.mode ∧ t.err = s.err ∧ t.adp = s.adp ∧ t.outputs = s.outputs) :
    (adpNext n t).ReadAll (ReadsOn s) := by
  unfold adpNext
  split
  · exact ⟨by decide, h⟩
  · split
    · trivial
    · refine ⟨?_, h⟩
      rename_i h0 _
      have h1 : n.toNat ≠ 0 := fun e => hn (BitVec.eq_of_toNat_eq e)
      have h2 : t.idatRemain.toNat ≠ 0 := fun e => h0 (BitVec.eq_of_toNat_eq e)
      omega

/-- The request a point serves, if it serves one, asks for at least one byte. -/
def FrPoint.asksBytes : FrPoint → Prop
  | .adpCrc n => n ≠ 0
  | .adpHeader n => n ≠ 0
  | .adpData n => n ≠ 0
  | _ => True

theorem afterRead_reads (p : FrPoint) (hp : p.asksBytes) (d : List Byte) (s : State) :
    (afterRead p d s).ReadAll (ReadsOn s) := by
  have hs : s.inp = s.inp ∧ s.fr = s.fr ∧ s.fe = s.fe ∧ s.mode = s.mode ∧ s.err = s.err ∧ s.adp = s.adp ∧
    s.outputs = s.outputs := ⟨rfl, rfl, rfl, rfl, rfl, rfl, rfl⟩
  cases p with
  | sig o =>
    refine goReadAll_ite ?_ trivial
    exact goReadAll_ite (afterChunk_reads true hs) trivial
  | header o =>
    refine goReadAll_ite ?_ (goReadAll_ite ?_ (goReadAll_ite trivial ?_))
    · exact goReadAll_ite trivial (goReadAll_ite trivial ⟨by decide, hs⟩)
    · exact goReadAll_ite trivial (afterChunk_reads o hs)
    · exact goReadAll_ite trivial (skipNext_reads o _ hs)
  | ihdr o =>
    unfold afterRead afterIhdr
    simp only
    split
    · trivial
    · exact ⟨by decide, hs⟩
  | ihdrCrc o => exact verifyChecksum_reads d (afterChunk_reads o hs)
  | skip o n => exact skipNext_reads o n hs
  | skipCrc o => exact verifyChecksum_reads d (afterChunk_reads o hs)
  | closeDataCrc => exact verifyChecksum_reads d ⟨by decide, hs⟩
  | closeHeader => exact goReadAll_ite trivial (goReadAll_ite trivial ⟨by decide, hs⟩)
  | closeIendCrc => exact verifyChecksum_reads d trivial
  | adpCrc n => exact verifyChecksum_reads d ⟨by decide, hs⟩
  | adpHeader n => exact goReadAll_ite trivial (adpNext_reads n hp hs)
  | adpData n => trivial

/-- Every piece of pseudocode leaves IN alone on its way to the next `ReadIn`. -/
theorem afterRead_keeps_inp {p : FrPoint} {d : List Byte} {s t : State} {k : Nat} {p2 : FrPoint}
    (h : afterRead p d s = .read k p2 t) : t.inp = s.inp := by
  have key : ∀ q : FrPoint, (afterRead q d s).ReadAll (fun _ _ t => t.inp = s.inp) := by
    have keep : ∀ o (t : State), t.inp = s.inp → (afterChunk o t).ReadAll (fun _ _ t => t.inp = s.inp) := by
      intro o t ht
      unfold afterChunk
      exact goReadAll_ite (goReadAll_ite trivial ht) trivial
    have keepSkip : ∀ o n (t : State), t.inp = s.inp → (skipNext o n t).ReadAll (fun _ _ t => t.inp = s.inp) := by
      intro o n t ht
      unfold skipNext
      exact goReadAll_ite ht ht
    have keepAdp : ∀ n (t : State), t.inp = s.inp → (adpNext n t).ReadAll (fun _ _ t => t.inp = s.inp) := by
      intro n t ht
      unfold adpNext
      exact goReadAll_ite ht (goReadAll_ite trivial ht)
    intro q
    cases q with
    | sig o => exact goReadAll_ite (goReadAll_ite (keep _ _ rfl) trivial) trivial
    | header o =>
      refine goReadAll_ite ?_ (goReadAll_ite ?_ (goReadAll_ite trivial ?_))
      · exact goReadAll_ite trivial (goReadAll_ite trivial rfl)
      · exact goReadAll_ite trivial (keep _ _ rfl)
      · exact goReadAll_ite trivial (keepSkip _ _ _ rfl)
    | ihdr o =>
      unfold afterRead afterIhdr
      simp only
      split
      · trivial
      · exact rfl
    | ihdrCrc o => exact goReadAll_ite (keep _ _ rfl) trivial
    | skip o n => exact keepSkip _ _ _ rfl
    | skipCrc o => exact goReadAll_ite (keep _ _ rfl) trivial
    | closeDataCrc => exact goReadAll_ite rfl trivial
    | closeHeader => exact goReadAll_ite trivial (goReadAll_ite trivial rfl)
    | closeIendCrc => exact goReadAll_ite trivial trivial
    | adpCrc n => exact goReadAll_ite rfl trivial
    | adpHeader n => exact goReadAll_ite trivial (keepAdp _ _ rfl)
    | adpData n => trivial
  have := key p
  rw [h] at this
  exact this

/-- One byte of IN at a point that needs only one more. -/
theorem readLoop_last (b : Byte) (q : List Byte) (need : Nat) (got : List Byte) (p : FrPoint) (s : State)
    (h : need ≤ 1) : readLoop (b :: q) need got p s =
      runGo (afterRead p (got ++ [b]) { s with inp := { s.inp with q := q } }) := by
  rw [readLoop, if_pos h]
  cases hg : afterRead p (got ++ [b]) { s with inp := { s.inp with q := q } } with
  | ended t => rfl
  | read k p2 t =>
    have ht := afterRead_keeps_inp hg
    simp [readIn, ht]

/-- A `ReadIn` that finds all its bytes: the pseudocode goes on with them, the rest of IN behind. -/
theorem readLoop_enough (d q : List Byte) (need : Nat) (got : List Byte) (p : FrPoint) (s : State)
    (hlen : d.length = need) (hpos : 1 ≤ need) : readLoop (d ++ q) need got p s =
      runGo (afterRead p (got ++ d) { s with inp := { s.inp with q := q } }) := by
  induction d generalizing need got s with
  | nil => simp at hlen; omega
  | cons b d ih =>
    simp only [List.length_cons] at hlen
    by_cases h1 : need ≤ 1
    · have hd : d = [] := List.length_eq_zero_iff.mp (by omega)
      subst hd
      exact readLoop_last b q need got p s h1
    · rw [List.cons_append, readLoop, if_neg h1, ih _ _ _ (by omega) (by omega)]
      simp

/-- A `ReadIn` that IN runs dry on: UnexpectedEOS on an ended IN, a hold on an open one; the bytes are taken. -/
theorem readLoop_short (d : List Byte) (need : Nat) (got : List Byte) (p : FrPoint) (s : State)
    (hq : s.inp.q = d) (hlen : d.length < need) : readLoop d need got p s =
      if s.inp.eos then raise .unexpectedEOS 0 { s with inp := { s.inp with q := [] } }
      else { s with inp := { s.inp with q := [] }, fr := .reading (need - d.length) (got ++ d) p } := by
  induction d generalizing need got s with
  | nil =>
    have : s = { s with inp := { s.inp with q := [] } } := by rw [← hq]
    rw [readLoop]
    simp [← this]
    split
    · rfl
    · rw [← hq]
  | cons b d ih =>
    simp only [List.length_cons] at hlen
    rw [readLoop, if_neg (by omega), ih _ _ _ rfl (by omega)]
    have : need - 1 - d.length = need - (b :: d).length := by simp only [List.length_cons]; omega
    simp [this]

/-- `ReadIn(k)` with its bytes at the head of IN. -/
theorem readIn_enough {d q : List Byte} {k : Nat} {p : FrPoint} {s : State} (hq : s.inp.q = d ++ q)
    (hlen : d.length = k) (hpos : 1 ≤ k) :
    readIn k p s = runGo (afterRead p d { s with inp := { s.inp with q := q } }) := by
  rw [readIn, hq, readLoop_enough d q k [] p s hlen hpos, List.nil_append]

/-- `ReadIn(k)` with fewer bytes in IN. -/
theorem readIn_short {k : Nat} {p : FrPoint} {s : State} (hlen : s.inp.q.length < k) :
    readIn k p s = if s.inp.eos then raise .unexpectedEOS 0 { s with inp := { s.inp with q := [] } }
      else { s with inp := { s.inp with q := [] }, fr := .reading (k - s.inp.q.length) s.inp.q p } := by
  rw [readIn, readLoop_short s.inp.q k [] p s rfl hlen, List.nil_append]

/-! ### What a segment of FR does not depend on -/

/-- A point that serves an ADP request. -/
def FrPoint.servs : FrPoint → Bool
  | .adpCrc _ => true
  | .adpHeader _ => true
  | .adpData _ => true
  | _ => false

theorem serving_reading (n : Nat) (g : List Byte) (p : FrPoint) :
    (FrActivity.reading n g p).serving = p.servs := by
  cases p <;> rfl

/-- The same end of a piece of pseudocode, over another IN and, where it goes on, under another record of FR. -/
def Go.mapIf (i : Fifo) (f : FrActivity) : Go → Go
  | .ended t => .ended { t with inp := i }
  | .read k p t => .read k p { t with inp := i, fr := f }

theorem mapIf_ite (i f) (c : Prop) [Decidable c] (a b : Go) : (if c then a else b).mapIf i f = if c then a.mapIf i f else b.mapIf i f := by
  split <;> rfl

theorem raise_congr (r info) (s : State) (i f) (h : f.serving = s.fr.serving) : raise r info { s with inp := i, fr := f } = { raise r info s with inp := i } := by
  simp [raise, h]

theorem goRaise_congr (r info) (s : State) (i f) (h : f.serving = s.fr.serving) : goRaise r info { s with inp := i, fr := f } = (goRaise r info s).mapIf i f := by
  simp only [goRaise, Go.mapIf, raise_congr r info s i f h]

theorem afterChunk_congr (o : Bool) (s : State) (i f) : afterChunk o { s with inp := i, fr := f } = (afterChunk o s).mapIf i f := by
  unfold afterChunk; split
  · dsimp only; split <;> rfl
  · rfl

theorem skipNext_congr (o : Bool) (n) (s : State) (i f) : skipNext o n { s with inp := i, fr := f } = (skipNext o n s).mapIf i f := by
  unfold skipNext; split <;> rfl

theorem adpNext_congr (n) (s : State) (i f) (h : f.serving = s.fr.serving) : adpNext n { s with inp := i, fr := f } = (adpNext n s).mapIf i f := by
  unfold adpNext; dsimp only; split
  · rfl
  · split
    · exact goRaise_congr _ _ _ _ _ h
    · rfl

theorem verifyChecksum_congr (c) (s : State) (i f) (h : f.serving = s.fr.serving) (g g' : Go) (hg : g' = g.mapIf i f) : verifyChecksum c { s with inp := i, fr := f } g' = (verifyChecksum c s g).mapIf i f := by
  unfold verifyChecksum
  rw [mapIf_ite, ← goRaise_congr _ _ _ _ _ h, hg]; rfl

/-- What a piece of pseudocode does with its bytes depends on IN not at all, and on FR's record only by whether it serves
a request. -/
theorem afterRead_congr (p : FrPoint) (d : List Byte) (s : State) (i : Fifo) (f : FrActivity) (h : f.serving = s.fr.serving) :
    afterRead p d { s with inp := i, fr := f } = (afterRead p d s).mapIf i f := by
  cases p with
  | sig o =>
    simp only [afterRead, afterSig, mapIf_ite]
    split
    · split
      · exact afterChunk_congr true { s with sigOk := true, frResult := 0 } i f
      · rfl
    · exact goRaise_congr _ _ _ _ _ h
  | header o =>
    simp only [afterRead, afterHeader, mapIf_ite]
    refine ite_congr rfl (fun _ => ite_congr rfl (fun _ => ?_) (fun _ => ite_congr rfl (fun _ => ?_) (fun _ => ?_)))
      (fun _ => ite_congr rfl (fun _ => ite_congr rfl (fun _ => ?_) (fun _ => ?_)) (fun _ => ite_congr rfl (fun _ => ?_) (fun _ => ?_)))
    · exact goRaise_congr _ _ (chunkHeader d s) _ _ h
    · exact goRaise_congr _ _ (chunkHeader d s) _ _ h
    · rfl
    · exact goRaise_congr _ _ (chunkHeader d s) _ _ h
    · exact afterChunk_congr o { chunkHeader d s with idatRemain := be32At d 0, dstage := .seenData, frResult := 2 } i f
    · exact goRaise_congr _ _ (chunkHeader d s) _ _ h
    · unfold skipChunk
      rw [mapIf_ite]
      refine ite_congr rfl (fun _ => ?_) (fun _ => ?_)
      · exact goRaise_congr _ _ (chunkHeader d s) _ _ h
      · exact skipNext_congr o _ (chunkHeader d s) i f
  | ihdr o =>
    simp only [afterRead, afterIhdr]
    split
    · exact goRaise_congr _ _ { s with crc := crcFeed s.crc d, width := be32At d 0, height := be32At d 4, hdrFmt := hdrFmtOf d, hdrIl := (byteAt d 12).setWidth 32 } _ _ h
    · rfl
  | ihdrCrc o =>
    exact verifyChecksum_congr d s i f h _ _ (afterChunk_congr o { s.acceptRows s.width with dstage := .seenHeader, frResult := 1 } i f)
  | skip o n => exact skipNext_congr o n { s with crc := crcFeed s.crc d } i f
  | skipCrc o => exact verifyChecksum_congr d s i f h _ _ (afterChunk_congr o { s with frResult := 3 } i f)
  | closeDataCrc => exact verifyChecksum_congr d s i f h _ _ rfl
  | closeHeader =>
    simp only [afterRead, afterCloseHeader, mapIf_ite]
    refine ite_congr rfl (fun _ => ?_) (fun _ => ite_congr rfl (fun _ => ?_) (fun _ => ?_))
    · exact goRaise_congr _ _ (chunkHeader d s) _ _ h
    · exact goRaise_congr _ _ (chunkHeader d s) _ _ h
    · rfl
  | closeIendCrc => exact verifyChecksum_congr d s i f h _ _ rfl
  | adpCrc n => exact verifyChecksum_congr d s i f h _ _ rfl
  | adpHeader n =>
    simp only [afterRead, afterAdpHeader, mapIf_ite]
    split
    · exact goRaise_congr _ _ { s with chunkLen := be32At d 0, chunkTag := be32At d 4 } _ _ h
    · exact adpNext_congr n { s with chunkLen := be32At d 0, chunkTag := be32At d 4, idatRemain := be32At d 0, crc := crcFeed crcStart (d.drop 4) } i f h
  | adpData n => rfl

/-- A piece of pseudocode that ends leaves FR idle, and one that goes on stays in its command or service. -/
def Go.StaysIn (b : Bool) : Go → Prop
  | .ended t => t.fr = .idle
  | .read _ p _ => p.servs = b

theorem staysIn_ite {b} {c : Prop} [Decidable c] {g h : Go} (hg : Go.StaysIn b g) (hh : Go.StaysIn b h) : Go.StaysIn b (if c then g else h) := by split <;> assumption

theorem staysIn_raise (b r i s) : Go.StaysIn b (goRaise r i s) := rfl

theorem staysIn_afterChunk (o s) : Go.StaysIn false (afterChunk o s) := by
  unfold afterChunk; exact staysIn_ite (staysIn_ite rfl rfl) rfl

theorem staysIn_skipNext (o n s) : Go.StaysIn false (skipNext o n s) := by
  unfold skipNext; exact staysIn_ite rfl rfl

theorem staysIn_adpNext (n s) : Go.StaysIn true (adpNext n s) := by
  unfold adpNext; exact staysIn_ite rfl (staysIn_ite rfl rfl)

theorem staysIn_verifyChecksum {b c s g} (h : Go.StaysIn b g) : Go.StaysIn b (verifyChecksum c s g) := staysIn_ite h (staysIn_raise ..)

theorem staysIn_afterRead (p d s) : Go.StaysIn p.servs (afterRead p d s) := by
  cases p with
  | sig o => exact staysIn_ite (staysIn_ite (staysIn_afterChunk ..) rfl) rfl
  | header o => exact staysIn_ite (staysIn_ite rfl (staysIn_ite rfl rfl)) (staysIn_ite (staysIn_ite rfl (staysIn_afterChunk ..)) (staysIn_ite rfl (staysIn_ite rfl (staysIn_skipNext ..))))
  | ihdr o => simp only [afterRead, afterIhdr]; split <;> rfl
  | ihdrCrc o => exact staysIn_verifyChecksum (staysIn_afterChunk ..)
  | skip o n => exact staysIn_skipNext ..
  | skipCrc o => exact staysIn_verifyChecksum (staysIn_afterChunk ..)
  | closeDataCrc => exact staysIn_verifyChecksum rfl
  | closeHeader => exact staysIn_ite rfl (staysIn_ite rfl rfl)
  | closeIendCrc => exact staysIn_verifyChecksum rfl
  | adpCrc n => exact staysIn_verifyChecksum rfl
  | adpHeader n => exact staysIn_ite rfl (staysIn_adpNext ..)
  | adpData n => rfl

theorem afterRead_self (p d) (s : State) : afterRead p d s = (afterRead p d s).mapIf s.inp s.fr := by
  have := afterRead_congr p d s s.inp s.fr rfl
  exact this

/-- A piece of pseudocode that ends leaves IN alone, and FR idle. -/
theorem afterRead_ended {p d} {s t : State} (h : afterRead p d s = .ended t) : t.inp = s.inp ∧ t.fr = .idle := by
  have h1 := afterRead_self p d s
  have h2 := staysIn_afterRead p d s
  rw [h] at h1 h2
  simp only [Go.mapIf, Go.ended.injEq] at h1
  exact ⟨by rw [h1], h2⟩

/-- A piece of pseudocode that goes on leaves IN and FR's record alone, and stays in its command or service. -/
theorem afterRead_goes_on {p d} {s t : State} {k p2} (h : afterRead p d s = .read k p2 t) : t.inp = s.inp ∧ t.fr = s.fr ∧ p2.servs = p.servs := by
  have h1 := afterRead_self p d s
  have h2 := staysIn_afterRead p d s
  rw [h] at h1 h2
  simp only [Go.mapIf, Go.read.injEq, true_and] at h1
  exact ⟨by rw [h1], by rw [h1], h2⟩

theorem update_inp_same {t : State} {i} (h : t.inp = i) : { t with inp := i } = t := by subst h; rfl

theorem update_inp_fr_same {t : State} {i f} (h : t.inp = i) : { t with inp := i, fr := f } = { t with fr := f } := by subst h; rfl

theorem update_fr_inp_same {t : State} {i f} (h : t.fr = f) : { t with inp := i, fr := f } = { t with inp := i } := by subst h; rfl

/-- A segment of FR does not depend on the record FR had, but by whether it serves a request. -/
theorem readLoop_fr_irrelevant (q : List Byte) (need got p) (s : State) (f) (h : f.serving = s.fr.serving) :
   readLoop q need got p { s with fr := f } = readLoop q need got p s := by
  induction q generalizing need got p s with
  | nil =>
    simp only [readLoop]; split
    · exact raise_congr _ _ s s.inp f h
    · rfl
  | cons b q ih =>
    simp only [readLoop]
    split
    · have := afterRead_congr p (got ++ [b]) { s with inp := { s.inp with q := q } } { s.inp with q := q } f h
      dsimp only at this; rw [this]
      cases hg : afterRead p (got ++ [b]) { s with inp := { s.inp with q := q } } with
      | ended t => 
        have := afterRead_ended hg
        simp only [Go.mapIf]; exact update_inp_same this.1
      | read k p2 t =>
        have := afterRead_goes_on hg
        simp only [Go.mapIf]; rw [update_inp_fr_same this.1]
        exact ih _ _ _ t (by rw [this.2.1]; exact h)
    · exact ih _ _ _ { s with inp := { s.inp with q := q } } h

/-- A segment of FR over `q ++ d`, the end-of-stream bit being `e`: the segment over `q` on an open IN, and, where that one
holds, the segment over `d` from there with the bit `e`. -/
theorem readLoop_append (q d : List Byte) (e : Bool) (need got p) (s : State) (hs : p.servs = s.fr.serving) :
    readLoop (q ++ d) need got p { s with inp := ⟨q ++ d, e⟩ } =
      match (readLoop q need got p { s with inp := ⟨q, false⟩ }).fr with
      | .reading n g p' =>
        readLoop d n g p' { readLoop q need got p { s with inp := ⟨q, false⟩ } with inp := ⟨d, e⟩ }
      | _ => { readLoop q need got p { s with inp := ⟨q, false⟩ } with
          inp := ⟨(readLoop q need got p { s with inp := ⟨q, false⟩ }).inp.q ++ d, e⟩ } := by
  induction q generalizing need got p s with
  | nil =>
    rw [List.nil_append, readLoop, if_neg Bool.false_ne_true]
    exact (readLoop_fr_irrelevant d need got p { s with inp := ⟨d, e⟩ } (.reading need got p)
      (by rw [serving_reading]; exact hs)).symm
  | cons b q ih =>
    simp only [List.cons_append, readLoop]
    by_cases hn : need ≤ 1
    · simp only [if_pos hn]
      have := afterRead_congr p (got ++ [b]) { s with inp := ⟨q, false⟩ } ⟨q ++ d, e⟩ s.fr rfl
      dsimp only at this; rw [this]
      cases hg : afterRead p (got ++ [b]) { s with inp := ⟨q, false⟩ } with
      | ended t =>
        have := afterRead_ended hg
        simp only [Go.mapIf, this.2, this.1]
      | read k p2 t =>
        have := afterRead_goes_on hg
        have h2 := ih k [] p2 t (by rw [this.2.2, this.2.1, hs])
        have e1 : { t with inp := ⟨q, false⟩ } = t := update_inp_same this.1
        have e2 : ({ t with inp := ⟨q ++ d, e⟩, fr := s.fr } : State) = { t with inp := ⟨q ++ d, e⟩ } :=
          update_fr_inp_same this.2.1
        simp only [Go.mapIf]
        rw [e2, h2, e1]
    · simp only [if_neg hn]
      exact ih _ _ _ s hs

/-- The one induction over a segment of FR: `I` holds at every byte it takes, `Q` of the state it ends in. -/
theorem readLoop_induct {I : Nat → List Byte → FrPoint → State → Prop} {Q : State → Prop}
    (hEos : ∀ need got p s, I need got p s → s.inp.q = [] → s.inp.eos = true → Q (raise .unexpectedEOS 0 s))
    (hHold : ∀ need got p s, I need got p s → s.inp.q = [] → s.inp.eos = false →
      Q { s with fr := .reading need got p })
    (hTake : ∀ need got p s b q, I need got p s → s.inp.q = b :: q → 1 < need →
      I (need - 1) (got ++ [b]) p { s with inp := { s.inp with q := q } })
    (hEnd : ∀ need got p s b q t, I need got p s → s.inp.q = b :: q → need ≤ 1 →
      afterRead p (got ++ [b]) { s with inp := { s.inp with q := q } } = .ended t → Q t)
    (hRead : ∀ need got p s b q k p2 t, I need got p s → s.inp.q = b :: q → need ≤ 1 →
      afterRead p (got ++ [b]) { s with inp := { s.inp with q := q } } = .read k p2 t → I k [] p2 t) :
    ∀ q need got p s, s.inp.q = q → I need got p s → Q (readLoop q need got p s) := by
  intro q
  induction q with
  | nil =>
    intro need got p s hq hI
    rw [readLoop]
    cases he : s.inp.eos
    · exact hHold _ _ _ _ hI hq he
    · exact hEos _ _ _ _ hI hq he
  | cons b q ih =>
    intro need got p s hq hI
    rw [readLoop]
    split
    · rename_i h1
      split
      · rename_i t ht; exact hEnd _ _ _ _ _ _ _ hI hq h1 ht
      · rename_i k p2 t ht
        refine ih _ _ _ _ ?_ (hRead _ _ _ _ _ _ _ _ _ hI hq h1 ht)
        have := afterRead_keeps_inp ht
        simp [this]
    · rename_i h1
      exact ih _ _ _ _ rfl (hTake _ _ _ _ _ _ hI hq (by omega))

/-- A segment of FR ends with FR idle, or holding with IN drained. -/
theorem readLoop_idle_or_holding (q : List Byte) (need got p) (s : State) (hq : s.inp.q = q) :
   (readLoop q need got p s).fr = .idle ∨ ∃ n g p', (readLoop q need got p s).fr = .reading n g p' ∧ (readLoop q need got p s).inp.q = [] := by
  refine readLoop_induct (I := fun _ _ _ _ => True) (Q := fun t => t.fr = .idle ∨ ∃ n g p', t.fr = .reading n g p' ∧ t.inp.q = []) ?_ ?_ ?_ ?_ ?_ q need got p s hq trivial
  · intros; left; rfl
  · intro need got p s _ hq _; right; exact ⟨_, _, _, rfl, hq⟩
  · intros; trivial
  · intro need got p s b q t _ _ _ h; exact .inl (afterRead_ended h).2
  · intros; trivial

/-- A segment of FR never changes the end-of-stream bit of IN. -/
theorem readLoop_eos (q : List Byte) (need got p) (s : State) (hq : s.inp.q = q) : (readLoop q need got p s).inp.eos = s.inp.eos := by
  have : ∀ e, s.inp.eos = e → (readLoop q need got p s).inp.eos = e := by
    intro e he
    refine readLoop_induct (I := fun _ _ _ s => s.inp.eos = e) (Q := fun t => t.inp.eos = e) ?_ ?_ ?_ ?_ ?_ q need got p s hq he
    · intros; assumption
    · intros; assumption
    · intros; assumption
    · intro need got p s b q t h _ _ ht; rw [(afterRead_ended ht).1]; exact h
    · intro need got p s b q k p2 t h _ _ ht; rw [(afterRead_goes_on ht).1]; exact h
  exact this _ rfl

/-! ### Taking from CZ -/

/-- FW_FLUSH takes a first part of CZ and then the rest. -/
theorem flushLoop_cons (b : Byte) (q : List Byte) (s : State) :
    flushLoop (b :: q) s = flushLoop q ({ s with cz := { s.cz with q := q } }.segPush b) := rfl

theorem flushLoop_nil (s : State) :
    flushLoop [] s = if s.cz.eos then flushEnd s else { s with fr := .flushing } := rfl

/-- The saturating count as a minimum (42_framer_encode.md R262). -/
theorem saturatingSucc_eq (w : Word) : saturatingSucc w = BitVec.ofNat 32 (min (w.toNat + 1) 0xFFFFFFFF) := by
  have := w.isLt
  unfold saturatingSucc
  split
  · rename_i h
    subst h
    decide
  · rename_i h
    have h' : w.toNat ≠ 0xFFFFFFFF := fun e => h (BitVec.eq_of_toNat_eq (by simpa using e))
    apply BitVec.eq_of_toNat_eq
    rw [BitVec.toNat_add, BitVec.toNat_ofNat]
    simp
    omega

/-- The loop of FW_FLUSH: it takes every byte of CZ into a state `u`, and writes the full chunks `cs`; the bytes it took
and the bytes that were buffered are the payloads of `cs` and what `u` buffers; the chunk registers and the CRC show the
last of `cs`. -/
theorem flushLoop_takes (q : List Byte) (s : State) (hq : s.cz.q = q) (hseg : s.seg.length < s.segMax.toNat) :
    ∃ (u : State) (cs : List (List Byte)),
      flushLoop q s = (if s.cz.eos then flushEnd u else { u with fr := .flushing }) ∧
      u.cz = { s.cz with q := [] } ∧ cs.flatten ++ u.seg = s.seg ++ q ∧ (∀ c ∈ cs, c.length = s.segMax.toNat) ∧
      u.seg.length < s.segMax.toNat ∧
      ((u.chunkLen, u.chunkTag, u.crc) = match cs.getLast? with
        | none => (s.chunkLen, s.chunkTag, s.crc)
        | some c => (BitVec.ofNat 32 c.length, be32At tagIdat 0, crcFeed (crcFeed crcStart tagIdat) c)) ∧
      u = { s with
        cz := u.cz
        seg := u.seg
        out := { s.out with q := s.out.q ++ (cs.map (chunkBytes tagIdat)).flatten }
        idatCount := BitVec.ofNat 32 (min (s.idatCount.toNat + cs.length) 0xFFFFFFFF)
        chunkLen := u.chunkLen
        chunkTag := u.chunkTag
        crc := u.crc } := by
  induction q generalizing s with
  | nil =>
    have hc : BitVec.ofNat 32 (min s.idatCount.toNat 0xFFFFFFFF) = s.idatCount := by
      have := s.idatCount.isLt
      apply BitVec.eq_of_toNat_eq
      rw [BitVec.toNat_ofNat]
      omega
    refine ⟨s, [], rfl, by rw [← hq], by simp, by simp, hseg, rfl, ?_⟩
    simp [hc]
  | cons b q ih =>
    rw [flushLoop_cons]
    unfold State.segPush
    simp only
    split
    · rename_i hfull
      obtain ⟨u, cs, h1, h2, h3, h4, h5, hr, h6⟩ :=
        ih (State.emitIdat { s with cz := { s.cz with q := q }, seg := s.seg ++ [b] }) rfl
          (by simp [State.emitIdat]; omega)
      refine ⟨u, (s.seg ++ [b]) :: cs, by rw [h1]; rfl, by rw [h2]; rfl, by simp [h3, State.emitIdat], ?_, h5, ?_, ?_⟩
      · intro c hc
        rcases List.mem_cons.mp hc with rfl | hc
        · simpa using hfull
        · exact h4 c hc
      · rw [hr, List.getLast?_cons]
        cases cs.getLast? <;> rfl
      · rw [h6]
        simp only [State.emitIdat, State.writeChunk, Fifo.append, State.mk.injEq, List.map_cons, List.flatten_cons,
          List.append_assoc, true_and, and_true, saturatingSucc_eq, List.length_cons]
        congr 1
        have := s.idatCount.isLt
        rw [BitVec.toNat_ofNat]
        omega
    · rename_i hfull
      obtain ⟨u, cs, h1, h2, h3, h4, h5, hr, h6⟩ :=
        ih { s with cz := { s.cz with q := q }, seg := s.seg ++ [b] } rfl (by simp at hfull ⊢; omega)
      exact ⟨u, cs, h1, h2, by simpa using h3, h4, h5, hr, h6⟩

/-! ### Reading a row from ZIN -/

/-- A row whose bytes ZIN holds: all are stored in CUR and the row is reconstructed. -/
theorem rowLoop_enough (d q : List Byte) (n k : Nat) (s : State) (hq : s.zin.q = d ++ q) (hlen : k + d.length = n) :
    rowLoop (d ++ q) n k s =
      reconRow n { s with zin := { s.zin with q := q }, mem := s.mem.writeBytes s.bufSel k d } := by
  induction d generalizing k s with
  | nil =>
    have hk : n ≤ k := by simp at hlen; omega
    have hs : s = { s with zin := { s.zin with q := q }, mem := s.mem.writeBytes s.bufSel k [] } := by
      have : s.zin = { s.zin with q := q } := by
        have : s.zin.q = q := by simpa using hq
        rw [← this]
      rw [← this]
      rfl
    rw [← hs]
    cases q with
    | nil => simp [rowLoop, hk]
    | cons b q => simp [rowLoop, hk]
  | cons b d ih =>
    simp only [List.length_cons] at hlen
    rw [List.cons_append, rowLoop, if_neg (by omega), ih _ _ rfl (by omega)]
    rfl

/-- A row that ZIN runs dry on: NotEnoughPixelData on an ended ZIN, a hold on an open one; the bytes are in CUR. -/
theorem rowLoop_short (d : List Byte) (n k : Nat) (s : State) (hq : s.zin.q = d) (hlen : k + d.length < n) :
    rowLoop d n k s =
      if s.zin.eos then raise .notEnoughPixelData (rowCountInfo (k + d.length))
        { s with zin := { s.zin with q := [] }, mem := s.mem.writeBytes s.bufSel k d }
      else { s with
        zin := { s.zin with q := [] }
        mem := s.mem.writeBytes s.bufSel k d
        fe := .row n (k + d.length) } := by
  induction d generalizing k s with
  | nil =>
    have hs : { s with zin := { s.zin with q := [] }, mem := s.mem.writeBytes s.bufSel k [] } = s := by
      have : s.zin = { s.zin with q := [] } := by rw [← hq]
      rw [← this]
      rfl
    have hk : ¬ n ≤ k := by simp at hlen; omega
    rw [rowLoop, if_neg hk, hs]
    simp only [List.length_nil, Nat.add_zero]
    split
    · rfl
    · have hz : s.zin = { s.zin with q := [] } := by rw [← hq]
      rw [← hz]
      rfl
  | cons b d ih =>
    simp only [List.length_cons] at hlen
    rw [rowLoop, if_neg (by omega), ih _ _ rfl (by omega)]
    have : k + 1 + d.length = k + (b :: d).length := by simp only [List.length_cons]; omega
    rw [this]
    rfl

/-- The end of a row does not look at ZIN. -/
theorem reconRow_zin (n : Nat) (s : State) (z : Fifo) : reconRow n { s with zin := z } = { reconRow n s with zin := z } := by
  simp only [reconRow, State.curByte, State.curData, State.prevData]
  split <;> rfl

/-- The end of a row does not look at the record FE had. -/
theorem reconRow_fe (n : Nat) (s : State) (f : FeActivity) : reconRow n { s with fe := f } = reconRow n s := by
  simp only [reconRow, State.curByte, State.curData, State.prevData]
  split <;> rfl

/-- The end of a row leaves FE idle. -/
@[simp] theorem reconRow_idle (n : Nat) (s : State) : (reconRow n s).fe = .idle := by
  simp only [reconRow]
  split <;> rfl

/-- A segment of FE does not depend on the record FE had. -/
theorem rowLoop_fe_irrelevant (q : List Byte) (n k : Nat) (s : State) (f : FeActivity) :
    rowLoop q n k { s with fe := f } = rowLoop q n k s := by
  induction q generalizing k s with
  | nil =>
    simp only [rowLoop, reconRow_fe]
    rfl
  | cons b q ih =>
    simp only [rowLoop, reconRow_fe]
    split
    · rfl
    · exact ih (k + 1) ({ s with zin := { s.zin with q := q } }.setCur k b)

/-- A segment of FE over `q ++ d`, the end-of-stream bit being `e`: the segment over `q` on an open ZIN, and, where that
one holds, the segment over `d` from there with the bit `e`. -/
theorem rowLoop_append (q d : List Byte) (e : Bool) (n k : Nat) (s : State) :
    rowLoop (q ++ d) n k { s with zin := ⟨q ++ d, e⟩ } =
      match (rowLoop q n k { s with zin := ⟨q, false⟩ }).fe with
      | .row n' k' => rowLoop d n' k' { rowLoop q n k { s with zin := ⟨q, false⟩ } with zin := ⟨d, e⟩ }
      | _ => { rowLoop q n k { s with zin := ⟨q, false⟩ } with
          zin := ⟨(rowLoop q n k { s with zin := ⟨q, false⟩ }).zin.q ++ d, e⟩ } := by
  induction q generalizing k s with
  | nil =>
    by_cases hk : n ≤ k
    · have hr : rowLoop [] n k { s with zin := ⟨[], false⟩ } = { reconRow n s with zin := ⟨[], false⟩ } := by
        rw [rowLoop, if_pos hk, reconRow_zin]
      have hl : rowLoop ([] ++ d) n k { s with zin := ⟨[] ++ d, e⟩ } = { reconRow n s with zin := ⟨d, e⟩ } := by
        cases d <;> simp [rowLoop, hk, reconRow_zin]
      rw [hr, hl]
      simp
    · rw [rowLoop, if_neg hk, if_neg Bool.false_ne_true]
      exact (rowLoop_fe_irrelevant d n k { s with zin := ⟨d, e⟩ } (.row n k)).symm
  | cons b q ih =>
    simp only [List.cons_append, rowLoop]
    by_cases hk : n ≤ k
    · simp [if_pos hk, reconRow_zin]
    · simp only [if_neg hk]
      exact ih (k + 1) (s.setCur k b)

end Sys2Proof.Machine
end

