-- ==== Sys2Proof/Laws/Safety.lean ====
section
/-! SUPPORT. The small laws of the invariant: which fields it reads, so that a step that changes none of them keeps it. -/

namespace Sys2Proof.Machine

/-- What holds at a point of FR depends on nine fields. -/
theorem FrPoint.holds_of_agree (p : FrPoint) {s t : State} (h1 : t.sigOk = s.sigOk) (h2 : t.dstage = s.dstage)
    (h3 : t.adp = s.adp) (h4 : t.idatRemain = s.idatRemain) (h5 : t.params = s.params) (h6 : t.width = s.width)
    (h7 : t.height = s.height) (h8 : t.hdrFmt = s.hdrFmt) (h9 : t.hdrIl = s.hdrIl) (h : p.holds s) : p.holds t := by
  cases p <;> simp only [FrPoint.holds, State.DimsAccepted, h1, h2, h3, h4, h5, h6, h7, h8, h9] at h ⊢ <;> exact h

/-- The fields the invariant does not read may change. -/
theorem State.Inv.of_agree {s t : State} (h : s.Inv) (e : t = { s with
    inp := t.inp, zin := t.zin, cz := t.cz, out := ⟨t.out.q, s.out.eos⟩, zout := ⟨t.zout.q, s.zout.eos⟩
    draws := t.draws, outputs := t.outputs, sched := t.sched, irqEn := t.irqEn, crc := t.crc
    chunkLen := t.chunkLen, chunkTag := t.chunkTag, frResult := t.frResult, feResult := t.feResult }) : t.Inv := by
  rw [e]
  refine ⟨h.1, h.2, h.3, h.4, h.5, h.6, h.7, h.8, h.9, h.10, h.11, h.12, h.13, h.14, h.15, h.16, h.17, h.18, ?_, h.20,
    h.21, h.22⟩
  intro a b p hp
  obtain ⟨q1, q2, q3, q4⟩ := h.19 a b p hp
  exact ⟨q1, q2, q3, p.holds_of_agree rfl rfl rfl rfl rfl rfl rfl rfl rfl q4⟩

/-- FR's record may change to one that meets its own clauses of the invariant. -/
theorem State.Inv.set_fr {s : State} (h : s.Inv) (f : FrActivity) (h0 : s.err = none ∨ f = .idle)
    (h1 : ∀ i, f = .accepted i → i.target = .fr ∧ i.port = .cmd)
    (h2 : ∀ need got p, f = .reading need got p →
      s.mode = .decode ∧ 1 ≤ need ∧ need + got.length = p.size s.idatRemain ∧ p.holds s)
    (h3 : f = .flushing → s.mode = .encode ∧ s.estage = .header ∧ s.rowY = s.height) :
    ({ s with fr := f }).Inv := by
  refine ⟨h.1, h.2, ?_, h.4, h.5, h.6, h.7, h.8, h.9, h.10, h1, h.12, h.13, h.14, h.15, h.16, h.17, h.18, ?_, h3, h.21,
    h.22⟩
  · intro he
    rcases h0 with h0 | h0
    · simp [h0] at he
    · exact ⟨h0, (h.3 he).2⟩
  · intro a b p hp
    obtain ⟨q1, q2, q3, q4⟩ := h2 a b p hp
    exact ⟨q1, q2, q3, p.holds_of_agree rfl rfl rfl rfl rfl rfl rfl rfl rfl q4⟩

/-- `1 + 4 * WIDTH` never wraps in 64 bits (10_state.md R44). -/
theorem rowSizeOf_toNat (w : Word) : (rowSizeOf w).toNat = 1 + 4 * w.toNat := by
  unfold rowSizeOf
  have := w.isLt
  simp [BitVec.toNat_add, BitVec.toNat_mul]
  omega

/-! ### Who executes which instruction (30_encoding.md R142) -/

@[simp] theorem target_nop : Instr.nop.target = .sys := by decide
@[simp] theorem target_sessionReset (m : Mode) : (Instr.sessionReset m).target = .sys := by cases m <;> decide
@[simp] theorem target_crcInit : Instr.crcInit.target = .fr := by decide
@[simp] theorem target_crcByte (b : Byte) : (Instr.crcByte b).target = .fr := by
  simp [Instr.target, Instr.port, Instr.opcode]
@[simp] theorem target_frSig : Instr.frSig.target = .fr := by decide
@[simp] theorem target_frStep : Instr.frStep.target = .fr := by decide
@[simp] theorem target_frOpen : Instr.frOpen.target = .fr := by decide
@[simp] theorem target_frClose : Instr.frClose.target = .fr := by decide
@[simp] theorem target_fwSig : Instr.fwSig.target = .fr := by decide
@[simp] theorem target_fwIhdr : Instr.fwIhdr.target = .fr := by decide
@[simp] theorem target_fwFlush : Instr.fwFlush.target = .fr := by decide
@[simp] theorem target_fwIend : Instr.fwIend.target = .fr := by decide
@[simp] theorem target_feRecon : Instr.feRecon.target = .fe := by decide
@[simp] theorem target_feApply (f : BitVec 3) : (Instr.feApply f).target = .fe := by
  simp [Instr.target, Instr.port, Instr.opcode]
@[simp] theorem target_adpRead (n : Word) : (Instr.adpRead n).target = .fr := by simp [Instr.target, Instr.port]

end Sys2Proof.Machine
end

