-- ==== Sys2Proof/Tests/Slice0.lean ====
section
/-! SUPPORT. The model's own tests: ill-formed terms that WellFormed refuses, words decoded as 30_encoding.md writes them,
one-step tests whose expected values are those of spec/95_test_vectors.md and of the rules' worked examples, and for every
statement with hypotheses a witness that meets them. -/

namespace Sys2Proof.Tests

open Sys2Proof.Machine Sys2Proof.Claims

/-! ### Well-formedness -/

/-- Every check of WellFormed has an ill-formed term it refuses: FE_APPLY's operand 5, 6, 7 (R145). -/
theorem test_wellFormed_refuses_filters_above_4 :
    (Instr.feApply 5).wellFormed = false ∧ (Instr.feApply 6).wellFormed = false ∧ (Instr.feApply 7).wellFormed = false ∧
      (Instr.feApply 4).wellFormed = true := by decide

/-! ### Decoding: the words of R148, written bit by bit -/

theorem test_decode_sys : decodeCmd 0b0000_0000_000000000000000000000000 = .instr .nop ∧
    decodeCmd 0b0000_0001_000000000000000000000000 = .instr (.sessionReset .decode) ∧
    decodeCmd 0b0000_0001_000000000000000000000001 = .instr (.sessionReset .encode) := by decide

theorem test_decode_crc : decodeCmd 0b0001_0000_000000000000000000000000 = .instr .crcInit ∧
    decodeCmd 0b0001_0001_000000000000000001001001 = .instr (.crcByte 0x49) ∧
    decodeCmd 0b0001_0001_000000000000000011111111 = .instr (.crcByte 0xFF) := by decide

theorem test_decode_fr : decodeCmd 0b0010_0000_000000000000000000000000 = .instr .frSig ∧
    decodeCmd 0b0010_0001_000000000000000000000000 = .instr .frStep ∧
    decodeCmd 0b0010_0010_000000000000000000000000 = .instr .frOpen ∧
    decodeCmd 0b0010_0011_000000000000000000000000 = .instr .frClose := by decide

theorem test_decode_fw : decodeCmd 0b0011_0000_000000000000000000000000 = .instr .fwSig ∧
    decodeCmd 0b0011_0001_000000000000000000000000 = .instr .fwIhdr ∧
    decodeCmd 0b0011_0010_000000000000000000000000 = .instr .fwFlush ∧
    decodeCmd 0b0011_0011_000000000000000000000000 = .instr .fwIend := by decide

theorem test_decode_fe : decodeCmd 0b0100_0000_000000000000000000000000 = .instr .feRecon ∧
    decodeCmd 0b0100_0001_000000000000000000000000 = .instr (.feApply 0) ∧
    decodeCmd 0b0100_0001_000000000000000000000011 = .instr (.feApply 3) ∧
    decodeCmd 0b0100_0001_000000000000000000000100 = .instr (.feApply 4) := by decide

theorem test_decode_adp : decode .adp 0xFFFFFFFF = .instr (.adpRead 0xFFFFFFFF) ∧
    decode .adp 0x22000000 = .instr (.adpRead 0x22000000) := by decide

/-- R145: the first opcodes outside the table, a reserved bit, an illegal filter. -/
theorem test_decode_rejects : decodeCmd 0x02000000 = .reject (.unknownOpcode 0x02) ∧
    decodeCmd 0xFF000000 = .reject (.unknownOpcode 0xFF) ∧ decodeCmd 0x00800000 = .reject (.reservedBits 0 0x800000) ∧
    decodeCmd 0x01000002 = .reject (.reservedBits 1 2) ∧ decodeCmd 0x11000100 = .reject (.reservedBits 0x11 0x100) ∧
    decodeCmd 0x41000008 = .reject (.reservedBits 0x41 8) ∧ decodeCmd 0x41000005 = .reject (.illegalFilter 5) := by decide

theorem test_decodeTableWord : decodeTableWord 32 0x31000000 = some .fwIhdr ∧ decodeTableWord 32 0x31000001 = none ∧
    decodeTableWord 0 0 = some (.adpRead 0) := by decide

/-! ### Small states -/

/-- The state a step ends in. -/
def after (o : Host.Outcome State Fault Refusal) : Option State :=
  match o with
  | .next t => some t
  | .fault _ => none
  | .refused _ => none

/-- Both banks zeroed over their first `n` bytes, and then `cur` in bank 0 and `prev` in bank 1. -/
def banks (n : Nat) (cur prev : List Byte) : Memory :=
  (({ bank0 := ⟨n, []⟩, bank1 := ⟨n, []⟩, epoch := 0 } : Memory).writeBytes false 0 cur).writeBytes true 0 prev

/-- A decode session with the signature checked and `q` in IN. -/
def signed (q : List Byte) : State := { withIn State.reset q with sigOk := true }

/-- A decode session with a header of `w` by `h` accepted and `q` in IN. -/
def headed (w h : Word) (q : List Byte) : State :=
  { signed q with
    dstage := .seenHeader, width := w, height := h, hdrFmt := 0x608, rowSize := rowSizeOf w
    mem := banks (rowSizeOf w).toNat [] [] }

/-- A decode session in a data chunk of which `n` bytes remain, with `q` in IN. -/
def inData (n : Word) (q : List Byte) : State :=
  { headed 2 2 q with dstage := .seenData, idatRemain := n, crc := 0xCA50F9E1 }

/-- An encode session whose header of `w` by `h` was written. -/
def encoding (w h : Word) : State :=
  { State.reset with
    mode := .encode, sigOk := true, estage := .header, width := w, height := h, hdrFmt := 0x608, rowSize := rowSizeOf w
    segMax := 4, mem := banks (rowSizeOf w).toNat [] [] }

/-- An encode session at `ESig` with dimensions `w` by `h` written. -/
def atSig (w h : Word) : State :=
  { State.reset with mode := .encode, sigOk := true, estage := .sig, width := w, height := h }

/-- The payload of a header chunk of 1 by 1 (R271's example). -/
def payload1 : List Byte := [0, 0, 0, 1, 0, 0, 0, 1, 8, 6, 0, 0, 0]

/-- R271's example: the header chunk of 1 by 1, as bytes. -/
def ihdr1 : List Byte :=
  [0x00, 0x00, 0x00, 0x0D, 0x49, 0x48, 0x44, 0x52, 0x00, 0x00, 0x00, 0x01, 0x00, 0x00, 0x00, 0x01, 0x08, 0x06, 0x00,
    0x00, 0x00, 0x1F, 0x15, 0xC4, 0x89]

/-- Program P2 of 95_test_vectors.md up to its first data chunk's header: signature, header of 2 by 2, a tEXt chunk. -/
def p2Front : List Byte := sigBytes ++
  [0x00, 0x00, 0x00, 0x0D, 0x49, 0x48, 0x44, 0x52, 0x00, 0x00, 0x00, 0x02, 0x00, 0x00, 0x00, 0x02, 0x08, 0x06, 0x00,
    0x00, 0x00, 0x72, 0xB6, 0x0D, 0x24] ++
  [0x00, 0x00, 0x00, 0x03, 0x74, 0x45, 0x58, 0x74, 0x61, 0x00, 0x62, 0xDC, 0x49, 0xA2, 0x3B] ++
  [0x00, 0x00, 0x00, 0x03, 0x49, 0x44, 0x41, 0x54]

/-! ### One step of each instruction -/

/-- R340. -/
theorem test_nop : after (exec .nop (inData 3 [1])) = some (inData 3 [1]) := by decide +kernel

/-- R341's example: STATUS reads 0x00000008. -/
theorem test_sessionReset : (after (issue 0x01000001 (inData 3 [1]))).map (fun t => (t.statusWord, t.stageWord, t.crc)) =
    some (0x00000008, 0, 0xFFFFFFFF) := by decide +kernel

/-- V-CRC-1. -/
theorem test_crcInit : (after (exec .crcInit (inData 3 []))).map (fun t => (t.crc, t.crcValue)) =
    some (0xFFFFFFFF, 0x00000000) := by decide +kernel

/-- V-CRC-4, V-CRC-2. -/
theorem test_crcByte : (after (exec (.crcByte 0x49) State.reset)).map (fun t => (t.crc, t.crcValue)) =
      some (0x22FDE946, 0xDD0216B9) ∧
    (after (exec (.crcByte 0x00) State.reset)).map State.crcValue = some 0xD202EF8D := by decide +kernel

/-- R180: the CRC of "123456789". -/
theorem test_crc_check_value :
    crcFeed crcStart [0x31, 0x32, 0x33, 0x34, 0x35, 0x36, 0x37, 0x38, 0x39] ^^^ 0xFFFFFFFF = 0xCBF43926 := by
  decide +kernel

/-- R220's examples. -/
theorem test_frSig : (after (exec .frSig (withIn State.reset sigBytes))).map State.sigOk = some true ∧
    (after (exec .frSig (withIn State.reset [0x89, 0x50, 0x4E, 0x47, 0x0D, 0x0A, 0x1A, 0x0B]))).map State.err =
      some (some .notPng) := by decide +kernel

/-- R221's example, on the chunk of R271's example. -/
theorem test_frStep : (after (exec .frStep (signed ihdr1))).map (fun t => (t.dstage, t.frResult, t.rowSize, t.width)) =
    some (.seenHeader, 1, 5, 1) := by decide +kernel

/-- R222's example. -/
theorem test_frOpen : (after (exec .frOpen (withIn State.reset p2Front))).map (fun t =>
      ((t.dstage, t.width, t.height), t.rowSize, (t.idatRemain, t.crc, t.frResult))) =
    some ((.seenData, 2, 2), 9, (3, 0xCA50F9E1, 2)) := by decide +kernel

/-- R224's example. -/
theorem test_frClose : (after (exec .frClose { inData 0 [0x93, 0xD4, 0x0C, 0x67, 0x00, 0x00, 0x00, 0x00, 0x49, 0x45, 0x4E,
      0x44, 0xAE, 0x42, 0x60, 0x82] with crc := 0x93D40C67 ^^^ 0xFFFFFFFF })).map (fun t =>
      (t.dstage, t.frResult, t.crc, t.outputs)) = some (.seenEnd, 0, 0x51BD9F7D, [.infClose]) := by decide +kernel

/-- R230's example: 3 bytes remain, 10 are asked for. -/
theorem test_adpRead : (after (exec (.adpRead 10) (inData 3 [0xAA, 0xBB, 0xCC]))).map (fun t =>
      (t.outputs, t.idatRemain, t.fr)) = some ([.adpResponse [0xAA, 0xBB, 0xCC] true], 0, .idle) := by decide +kernel

/-- R270's example. -/
theorem test_fwSig : (after (exec .fwSig { State.reset with mode := .encode })).map (fun t => (t.out.q, t.estage)) =
    some ([0x89, 0x50, 0x4E, 0x47, 0x0D, 0x0A, 0x1A, 0x0A], .sig) := by decide +kernel

/-- R271's example. -/
theorem test_fwIhdr : (after (exec .fwIhdr (atSig 1 1))).map (fun t => (t.out.q, t.rowSize, t.segMax)) =
    some (ihdr1, 5, 0x8000) := by decide +kernel

/-- R273's corner case: no bytes at all, one zero-length data chunk. -/
theorem test_fwFlush_empty : (after (exec .fwFlush { encoding 1 0 with cz := ⟨[], true⟩ })).map (fun t =>
      (t.out.q, t.idatCount, t.estage)) =
    some ([0x00, 0x00, 0x00, 0x00, 0x49, 0x44, 0x41, 0x54, 0x35, 0xAF, 0x06, 0x1E], 1, .flushed) := by decide +kernel

/-- R273's example: SEG holds 2 bytes, CZ 3 more and then the end: a chunk of 4 and a chunk of 1. -/
theorem test_fwFlush_two_chunks :
    (after (exec .fwFlush { encoding 1 0 with seg := [1, 2], cz := ⟨[3, 4, 5], true⟩ })).map (fun t =>
      (t.out.q.take 12, t.out.q.length, t.chunkLen, t.idatCount)) =
    some ([0, 0, 0, 4, 0x49, 0x44, 0x41, 0x54, 1, 2, 3, 4], 29, 1, 2) := by decide +kernel

/-- R274. -/
theorem test_fwIend : (after (exec .fwIend { encoding 1 0 with estage := .flushed })).map (fun t => (t.out.q, t.estage)) =
    some ([0x00, 0x00, 0x00, 0x00, 0x49, 0x45, 0x4E, 0x44, 0xAE, 0x42, 0x60, 0x82], .ended) := by decide +kernel

/-- R310's example: WIDTH = 2, filter Paeth. -/
theorem test_feRecon : (after (exec .feRecon { inData 3 [] with
      mem := banks 9 [] [0x00, 0x0A, 0x14, 0x1E, 0x28, 0xFA, 0xF0, 0xE6, 0xDC]
      zin := ⟨[0x04, 0x05, 0x05, 0x05, 0x05, 0x0B, 0x16, 0x21, 0x2C], false⟩ })).map (fun t =>
      (t.mem.readBytes (!t.bufSel) 0 9, t.rowY, t.feResult)) =
    some ([0x04, 0x0F, 0x19, 0x23, 0x2D, 0x05, 0x06, 0x07, 0x08], 1, 0) := by decide +kernel

/-- R311's example. -/
theorem test_feApply : (after (exec (.feApply 4) { encoding 2 1 with
      mem := banks 9 [0x00, 0x0F, 0x19, 0x23, 0x2D, 0x05, 0x06, 0x07, 0x08]
        [0x00, 0x0A, 0x14, 0x1E, 0x28, 0xFA, 0xF0, 0xE6, 0xDC] })).map (fun t => (t.zout.q, t.rowY, t.bufSel)) =
    some ([0x04, 0x05, 0x05, 0x05, 0x05, 0x0B, 0x16, 0x21, 0x2C], 1, true) := by decide +kernel

/-- R302's and R303's examples: the exact arithmetic. -/
theorem test_predictors : paeth 10 250 0 = 250 ∧ predict .average 200 100 0 = 150 := by decide +kernel

/-- A word placed by withFetchWord runs in the very next step. -/
theorem test_withFetchWord :
    (after (step (State.reset.withFetchWord 32 0x01000001))).map State.mode = some .encode ∧
    (after (step (State.reset.withFetchWord 32 0x11000049))).map State.crc = some 0x22FDE946 ∧
    (after (step (State.reset.withFetchWord 32 0x40000000))).map State.err = some (some .badState) ∧
    (after (step (State.reset.withFetchWord 32 0xFF000000))).map State.errInfo = some 0xFF000000 ∧
    (after (step (State.reset.withFetchWord 0 0))).map State.errInfo = some 0xAD := by decide +kernel

/-! ### Witnesses: for each statement, a state and operands that meet its hypotheses, clause by clause -/

theorem witness_DecodeInvertsEncode : decode .cmd 0x41000004 = .instr (.feApply 4) ∧ (Instr.feApply 4).wellFormed = true ∧
    (Instr.feApply 4).port = .cmd ∧ encode (.feApply 4) = 0x41000004 := by decide

theorem witness_MapRowsAreDisjointAndComplete : decodeCmd 0x41000004 = .instr (.feApply 4) ∧
    decodeCmd 0x41000005 = .reject (.illegalFilter 5) ∧ decodeCmd 0x42000000 = .reject (.unknownOpcode 0x42) := by decide

theorem witness_StepRunsTheDecodedInstruction :
    (decodeCmd 0 = .instr .nop ∧ Instr.nop.target = .sys) ∧
    ({ State.reset with sched := [.regWrite 2 0] }).sched = .regWrite 2 0 :: [] ∧
    ({ State.reset with sched := [.frRun], fr := .accepted .frOpen }).fr = .accepted .frOpen ∧
    ({ State.reset with sched := [.feRun], fe := .accepted .feRecon }).fe = .accepted .feRecon ∧
    (({ State.reset with sched := [.frServe], adp := some 3 }).fr = .idle ∧
      ({ State.reset with sched := [.frServe], adp := some 3 }).adp = some 3) ∧
    (Instr.feRecon.wellFormed = true ∧ Instr.feRecon.port = .cmd) := by decide

theorem witness_IllegalWordsAreRecordedNotRun : (∀ i, decodeCmd 0x02000000 ≠ .instr i) ∧ State.reset.err = none ∧
    ({ State.reset with err := some .notPng }).err.isSome = true :=
  ⟨fun i h => (by
    have e : decodeCmd 0x02000000 = .reject (.unknownOpcode 0x02) := by decide
    rw [e] at h
    cases h), rfl, rfl⟩

/-- The three outcomes of the gate too: an invalid session, a busy agent, an idle one. -/
theorem witness_CommandsAreDispatchedInOrder :
    (decodeCmd 0x01000001 = .instr (.sessionReset .encode) ∧ (Instr.sessionReset .encode).target = .sys) ∧
    (decodeCmd 0x33000000 = .instr .fwIend ∧ Instr.fwIend.target = .fr) ∧
    (decodeCmd 0x40000000 = .instr .feRecon ∧ Instr.feRecon.target = .fe) ∧
    ({ State.reset with err := some .notPng }).err.isSome = true ∧
    (({ State.reset with fr := .flushing }).err = none ∧ ({ State.reset with fr := .flushing }).fr ≠ .idle) ∧
    (State.reset.err = none ∧ State.reset.fr = .idle ∧ State.reset.fe = .idle) := by decide

theorem witness_NopChangesNothing : opcOf 0x00000001 = 0x00 ∧ (0x00000001 : Word) ≠ 0 := by decide

theorem witness_SessionResetStartsANewSession : opcOf 0x01000002 = 0x01 ∧
    (0x01000002 : Word).extractLsb' 1 23 ≠ 0 := by decide

theorem witness_CrcInitResetsTheAccumulator : ∃ t u, exec .crcInit State.reset = .next t ∧ exec .crcInit t = .next u :=
  ⟨_, _, rfl, rfl⟩

theorem witness_CrcByteFeedsOneByte : opcOf 0x11000100 = 0x11 ∧ (0x11000100 : Word).extractLsb' 8 16 ≠ 0 := by decide

theorem witness_CrcDetectsAChangedByte : (0x00 : Byte) ≠ 0x80 := by decide

theorem witness_FrSigChecksTheSignature :
    ({ State.reset with mode := .encode }).mode ≠ .decode ∧ (signed []).sigOk = true ∧ (headed 1 1 []).dstage ≠ .start ∧
    (State.reset.mode = .decode ∧ State.reset.sigOk = false ∧ State.reset.dstage = .start) ∧
    (withIn State.reset sigBytes).inp.q = [0x89, 0x50, 0x4E, 0x47, 0x0D, 0x0A, 0x1A, 0x0A] ++ [] ∧
    ((withIn State.reset [0, 0, 0, 0, 0, 0, 0, 0, 9]).inp.q = [0, 0, 0, 0, 0, 0, 0, 0] ++ [9] ∧
      ([0, 0, 0, 0, 0, 0, 0, 0] : List Byte) ≠ [0x89, 0x50, 0x4E, 0x47, 0x0D, 0x0A, 0x1A, 0x0A]) ∧
    (({ State.reset with inp := ⟨[1, 2, 3, 4, 5, 6, 7], true⟩ }).inp.q.length < 8 ∧
      ({ State.reset with inp := ⟨[1, 2, 3, 4, 5, 6, 7], true⟩ }).inp.eos = true) ∧
    (State.reset.inp.q.length < 8 ∧ State.reset.inp.eos = false) := by decide

/-- The payload of a header of `w` by `h`. -/
def payloadOf (w h : Word) : List Byte := be32Bytes w ++ be32Bytes h ++ [8, 6, 0, 0, 0]

/-- The widest header that a MAX_WIDTH of 1 admits. -/
theorem witness_FrStepAcceptsAHeader : scanReady (signed ihdr1) ∧ (signed ihdr1).dstage = .start ∧
    headerPasses 1 payload1 ∧ (signed ihdr1).inp.q = chunkBytes tagIhdr payload1 ++ [] :=
  ⟨⟨rfl, rfl, .inl rfl⟩, rfl, by unfold headerPasses; decide, by decide +kernel⟩

/-- Every check fails on some payload: at 0 and at 2^31 for check 3, at w·h = 2^60 for check 4, at MAX_WIDTH + 1. -/
theorem witness_HeaderChecksRunInOrder :
    headerError 9 (be32Bytes 0 ++ be32Bytes 0 ++ [7, 5, 1, 1, 1]) = some (.compressionMethod, 1) ∧
    headerError 9 (be32Bytes 0 ++ be32Bytes 0 ++ [7, 5, 0, 1, 1]) = some (.filterMethod, 1) ∧
    headerError 9 (payloadOf 0 1) = some (.nonPositiveDimension, 0) ∧
    headerError 9 (payloadOf 1 0x80000000) = some (.nonPositiveDimension, 0x80000000) ∧
    headerError 9 (payloadOf 0x40000000 0x40000000) = some (.dimensionOverflow, 0) ∧
    headerError 9 (be32Bytes 1 ++ be32Bytes 1 ++ [16, 2, 0, 0, 1]) = some (.depthType, 0x1002) ∧
    headerError 9 (be32Bytes 10 ++ be32Bytes 1 ++ [8, 6, 0, 0, 1]) = some (.interlace, 1) ∧
    headerError 9 (payloadOf 10 1) = some (.rowTooWide, 10) ∧ headerError 9 (payloadOf 9 1) = none ∧
    headerError (2 ^ 31 - 1) (payloadOf 0x7FFFFFFF 0x20000000) = none ∧
    (12 : Word) ≠ 13 ∧ [0, 0, 0, 0] ≠ be32Bytes (chunkCrc tagIhdr payload1) := by decide +kernel

theorem witness_FrStepFindsTheFirstDataChunk :
    scanReady (headed 1 1 (be32Bytes 0xFFFFFFFF ++ [0x49, 0x44, 0x41, 0x54] ++ [7])) ∧
    (headed 1 1 (be32Bytes 0xFFFFFFFF ++ [0x49, 0x44, 0x41, 0x54] ++ [7])).dstage = .seenHeader :=
  ⟨⟨rfl, rfl, .inr rfl⟩, rfl⟩

/-- "tEXt", with no payload, with a wrong CRC, and of length 2^31. -/
theorem witness_FrStepSkipsAnOtherChunk :
    scanReady (signed (chunkBytes [0x74, 0x45, 0x58, 0x74] [] ++ [])) ∧ [0x74, 0x45, 0x58, 0x74] ≠ tagIhdr ∧
    [0x74, 0x45, 0x58, 0x74] ≠ tagIdat ∧ [0x74, 0x45, 0x58, 0x74] ≠ tagIend ∧
    [0, 0, 0, 0] ≠ be32Bytes (chunkCrc [0x74, 0x45, 0x58, 0x74] []) ∧ (0x80000000 : Word).toNat > 0x7FFFFFFF :=
  ⟨⟨rfl, rfl, .inl rfl⟩, by decide, by decide, by decide, by decide +kernel, by decide⟩

theorem witness_ChunkOrderIsEnforced :
    (scanReady (headed 1 1 (be32Bytes 13 ++ tagIhdr ++ [])) ∧
      (headed 1 1 (be32Bytes 13 ++ tagIhdr ++ [])).dstage = .seenHeader) ∧
    (scanReady (signed (be32Bytes 0 ++ tagIdat ++ [])) ∧ (signed (be32Bytes 0 ++ tagIdat ++ [])).dstage = .start) ∧
    scanReady (signed (be32Bytes 0 ++ tagIend ++ [])) ∧ ¬ scanReady State.reset ∧ ¬ scanReady (inData 3 []) := by
  refine ⟨⟨⟨rfl, rfl, .inr rfl⟩, rfl⟩, ⟨⟨rfl, rfl, .inl rfl⟩, rfl⟩, ⟨rfl, rfl, .inl rfl⟩, ?_, ?_⟩ <;>
    (unfold scanReady; decide)

theorem witness_FrOpenReachesTheFirstDataChunk :
    (State.reset.mode = .decode ∧ State.reset.sigOk = false ∧ State.reset.dstage = .start) ∧
    headerPasses State.reset.params.maxWidth payload1 ∧
    (withIn State.reset (sigBytes ++ (chunkBytes tagIhdr payload1 ++ (be32Bytes 3 ++ tagIdat ++ [])))).inp.q =
      sigBytes ++ (chunkBytes tagIhdr payload1 ++ (be32Bytes 3 ++ tagIdat ++ [])) ∧
    (inData 3 []).dstage = .seenData :=
  ⟨⟨rfl, rfl, rfl⟩, by unfold headerPasses; decide, rfl, rfl⟩

/-- FR_SIG that ends, an FR_STEP that ends elsewhere, an FR_STEP that finds the data, a wrong signature, a terminal chunk
out of order. -/
theorem witness_FrOpenIsRepeatedFrStep :
    (∃ t, exec .frSig (withIn State.reset sigBytes) = .next t ∧ t.fr = .idle ∧ t.err = none) ∧
    (scanReady (signed ihdr1) ∧
      ∃ t, exec .frStep (signed ihdr1) = .next t ∧ t.fr = .idle ∧ t.err = none ∧ t.dstage ≠ .seenData) ∧
    (scanReady (headed 1 1 (be32Bytes 3 ++ tagIdat)) ∧
      ∃ t, exec .frStep (headed 1 1 (be32Bytes 3 ++ tagIdat)) = .next t ∧ t.fr = .idle ∧ t.err = none ∧
        t.dstage = .seenData) ∧
    (∃ t, exec .frSig (withIn State.reset [0, 0, 0, 0, 0, 0, 0, 0]) = .next t ∧ t.err ≠ none) ∧
    (scanReady (headed 1 1 (be32Bytes 0 ++ tagIend)) ∧
      ∃ t, exec .frStep (headed 1 1 (be32Bytes 0 ++ tagIend)) = .next t ∧ t.err ≠ none) :=
  ⟨⟨_, rfl, by decide +kernel, by decide +kernel⟩,
    ⟨⟨rfl, rfl, .inl rfl⟩, _, rfl, by decide +kernel, by decide +kernel, by decide +kernel⟩,
    ⟨⟨rfl, rfl, .inr rfl⟩, _, rfl, by decide +kernel, by decide +kernel, by decide +kernel⟩,
    ⟨_, rfl, by decide +kernel⟩, ⟨rfl, rfl, .inr rfl⟩, _, rfl, by decide +kernel⟩

theorem witness_FrCloseChecksTheEnd :
    ({ State.reset with mode := .encode }).mode ≠ .decode ∧ State.reset.dstage = .start ∧
    (headed 1 1 []).dstage = .seenHeader ∧
    (({ inData 0 [] with dstage := .seenEnd }).mode = .decode ∧ ({ inData 0 [] with dstage := .seenEnd }).dstage = .seenEnd) ∧
    ((inData 0 []).mode = .decode ∧ (inData 0 []).dstage = .seenData) ∧
    [0, 0, 0, 0] ≠ be32Bytes (inData 0 []).crcValue ∧ (1 : Word) ≠ 0 ∧ tagIdat ≠ tagIend ∧
    ([0, 0, 0, 0] : List Byte) ≠ [0xAE, 0x42, 0x60, 0x82] := by decide +kernel

/-- An exhausted and a full data chunk are the bounds: 1 and 0x7FFFFFFF bytes remain, and 0x80000000. -/
theorem witness_AdpReadDeliversPayload :
    ({ State.reset with err := some .notPng }).err.isSome = true ∧
    (State.reset.err = none ∧ State.reset.dstage ≠ .seenData) ∧
    ((inData 1 [9]).err = none ∧ (inData 1 [9]).mode = .decode ∧ (inData 1 [9]).dstage = .seenData) ∧
    ((0xFFFFFFFF : Word) ≠ 0 ∧ (inData 1 [9]).idatRemain ≠ 0 ∧
      ([9] : List Byte).length = min (0xFFFFFFFF : Word).toNat (inData 1 [9]).idatRemain.toNat ∧
      (inData 1 [9]).inp.q = [9] ++ []) ∧
    ((inData 0x7FFFFFFF [9]).idatRemain.toNat ≤ 0x7FFFFFFF ∧
      ([9] : List Byte).length = min (1 : Word).toNat (inData 0x7FFFFFFF [9]).idatRemain.toNat) ∧
    (inData 0x80000000 []).idatRemain.toNat > 0x7FFFFFFF := by decide +kernel

theorem witness_AdpReadCrossesIntoTheNextChunk :
    ((inData 0 []).err = none ∧ (inData 0 []).mode = .decode ∧ (inData 0 []).dstage = .seenData ∧ (1 : Word) ≠ 0 ∧
      (inData 0 []).idatRemain = 0) ∧
    tagIend ≠ tagIdat ∧ [0, 0, 0, 0] ≠ be32Bytes (inData 0 []).crcValue := by decide +kernel

theorem witness_AdpServiceAndCommandsExcludeEachOther :
    ({ inData 3 [] with fr := .reading 3 [] (.adpData 3) }).fr ≠ .idle ∧
    (({ inData 3 [] with adp := some 3 }).fr = .idle ∧ ({ inData 3 [] with adp := some 3 }).adp = some 3) ∧
    (({ inData 3 [] with fr := .reading 3 [] (.adpData 3) }).err = none ∧
      ({ inData 3 [] with fr := .reading 3 [] (.adpData 3) }).fr.serving = true ∧
      decodeCmd 0x23000000 = .instr .frClose ∧ Instr.frClose.target = .fr) := by decide

/-- One byte short each time. -/
theorem witness_ReadInHoldsOrEnds :
    (({ signed [1] with fr := .reading 2 [] (.header false) }).inp.q.length < 2 ∧ (signed [1]).inp.eos = false) ∧
    ({ State.reset with inp := ⟨[], true⟩ }).inp.eos = true ∧
    (scanReady (signed [1, 2, 3, 4, 5, 6, 7]) ∧ (signed [1, 2, 3, 4, 5, 6, 7]).inp.q.length < 8) ∧
    (State.reset.sigOk = false ∧ State.reset.inp.q.length < 8) ∧
    ((inData 0 [1, 2, 3]).dstage = .seenData ∧ (inData 0 [1, 2, 3]).inp.q.length < 4 ∧ (inData 0 []).idatRemain = 0) ∧
    ((inData 2 [1]).idatRemain ≠ 0 ∧ (inData 2 [1]).inp.q.length < min (2 : Word).toNat (inData 2 [1]).idatRemain.toNat) :=
  ⟨by decide, by decide, ⟨⟨rfl, rfl, .inl rfl⟩, by decide⟩, by decide, by decide, by decide⟩

theorem witness_InputMayArriveInPieces :
    (signed [1]).inp.eos = false ∧
    (∃ need got p, ({ signed [1] with fr := .reading 7 [0] (.header true) }).fr = .reading need got p) ∧
    (∃ i, ({ signed [1] with fr := .accepted .frOpen }).fr = .accepted i ∧ i.target = .fr) :=
  ⟨rfl, ⟨_, _, _, rfl⟩, _, rfl, by decide⟩

theorem witness_FwSigWritesTheSignature : State.reset.mode ≠ .encode ∧ (atSig 1 1).estage ≠ .start ∧
    (({ State.reset with mode := .encode }).mode = .encode ∧ ({ State.reset with mode := .encode }).estage = .start) := by
  decide

/-- The bounds of the dimension checks: 0, 2^31, w·h = 2^60, MAX_WIDTH + 1, and the widest accepted. -/
theorem witness_FwIhdrWritesTheHeader :
    State.reset.estage ≠ .sig ∧ ((atSig 1 1).mode = .encode ∧ (atSig 1 1).estage = .sig) ∧ (atSig 0 1).width.toInt ≤ 0 ∧
    (0 < (atSig 1 0x80000000).width.toInt ∧ (atSig 1 0x80000000).height.toInt ≤ 0) ∧
    (atSig 0x40000000 0x40000000).width.toNat * (atSig 0x40000000 0x40000000).height.toNat * 8 > 2 ^ 63 - 1 ∧
    (({ atSig 2 1 with params := ⟨1⟩ }).width.toNat > ({ atSig 2 1 with params := ⟨1⟩ }).params.maxWidth) ∧
    (0 < (atSig 0x7FFFFFFF 0x20000000).width.toInt ∧ 0 < (atSig 0x7FFFFFFF 0x20000000).height.toInt ∧
      (atSig 0x7FFFFFFF 0x20000000).width.toNat * (atSig 0x7FFFFFFF 0x20000000).height.toNat * 8 ≤ 2 ^ 63 - 1 ∧
      (atSig 0x7FFFFFFF 0x20000000).width.toNat ≤ (atSig 0x7FFFFFFF 0x20000000).params.maxWidth) := by decide +kernel

theorem witness_EncodedHeaderIsAccepted : ∃ t, exec .fwIhdr (atSig 1 1) = .next t ∧ (atSig 1 1).estage = .sig ∧
    t.estage = .header ∧ scanReady (signed ihdr1) ∧ (signed ihdr1).dstage = .start ∧
    (signed ihdr1).params = (atSig 1 1).params ∧ t.out.q = (atSig 1 1).out.q ++ ihdr1 ∧ (signed ihdr1).inp.q = ihdr1 ++ [] :=
  ⟨_, rfl, rfl, by decide +kernel, ⟨rfl, rfl, .inl rfl⟩, rfl, rfl, by decide +kernel, rfl⟩

theorem witness_FwFlushWritesTheRestOfTheStream :
    State.reset.mode ≠ .encode ∧ (atSig 1 1).estage ≠ .header ∧ (encoding 1 1).rowY ≠ (encoding 1 1).height ∧
    ((encoding 1 0).mode = .encode ∧ (encoding 1 0).estage = .header ∧ (encoding 1 0).rowY = (encoding 1 0).height ∧
      ({ encoding 1 0 with seg := [1, 2, 3] }).seg.length < (encoding 1 0).segMax.toNat) ∧
    (encoding 1 0).cz.eos = false ∧ ({ encoding 1 0 with cz := ⟨[], true⟩ }).cz.eos = true ∧
    (({ encoding 1 0 with fr := .flushing, seg := [1, 2, 3] }).fr = .flushing ∧
      ({ encoding 1 0 with fr := .flushing, seg := [1, 2, 3] }).seg.length < (encoding 1 0).segMax.toNat ∧
      ({ encoding 1 0 with fr := .flushing, seg := [1, 2, 3] }).cz = ⟨[], false⟩) := by decide

/-- A segment filled by the byte, one that is not, and a saturated count. -/
theorem witness_SegmenterTakesOneByte :
    ((encoding 1 1).fr = .idle ∧ (encoding 1 1).mode = .encode ∧ (encoding 1 1).estage = .header ∧
      (encoding 1 1).err = none ∧ ({ encoding 1 1 with cz := ⟨[7], false⟩ }).cz.q = 7 :: []) ∧
    (encoding 1 1).seg.length + 1 ≠ (encoding 1 1).segMax.toNat ∧
    ({ encoding 1 1 with seg := [1, 2, 3] }).seg.length + 1 = (encoding 1 1).segMax.toNat ∧
    (encoding 1 1).idatCount ≠ 0xFFFFFFFF ∧ ({ encoding 1 1 with idatCount := 0xFFFFFFFF }).idatCount = 0xFFFFFFFF ∧
    ({ encoding 1 1 with fr := .flushing }).fr ≠ .idle ∧ State.reset.mode ≠ .encode ∧ (encoding 1 1).cz.q = [] := by decide

theorem witness_SegmenterStepBeforeFlushIsInvisible :
    ({ encoding 1 0 with cz := ⟨[7], false⟩ }).segmenterEnabled = true ∧
    ({ encoding 1 0 with cz := ⟨[7], false⟩ }).rowY = ({ encoding 1 0 with cz := ⟨[7], false⟩ }).height := by decide

theorem witness_FwIendWritesTheTerminalChunk : State.reset.mode ≠ .encode ∧ (encoding 1 0).estage ≠ .flushed ∧
    (({ encoding 1 0 with estage := .flushed }).mode = .encode ∧
      ({ encoding 1 0 with estage := .flushed }).estage = .flushed) := by decide

/-- Each neighbour is chosen somewhere; (5, 5, 5) is the tie. -/
theorem witness_PredictorsOfTheFiveFilters : 4 < (5 : Byte).toNat ∧ paeth 5 5 5 = 5 ∧ paeth 200 10 20 = 200 ∧ paeth 10 250 0 = 250 ∧
    paeth 10 20 15 = 15 := by decide +kernel

theorem witness_RowsAddAndSubtractThePrediction : 4 < ([1, 2, 3, 4, 5] : List Byte).length := by decide

theorem witness_ReconInvertsApply : ([1, 2, 3] : List Byte).length = ([4, 5, 6] : List Byte).length := by decide

/-- A row of 1 pixel: 5 bytes there, 4 bytes there; the last row, and the rows at an end. -/
theorem witness_FeReconDeliversARow :
    ({ State.reset with mode := .encode }).mode ≠ .decode ∧ (headed 1 1 []).dstage = .seenHeader ∧
    ({ inData 3 [] with rowY := 2 }).height.toNat ≤ ({ inData 3 [] with rowY := 2 }).rowY.toNat ∧
    (({ inData 3 [] with dstage := .seenEnd }).dstage = .seenEnd ∧ (inData 3 []).rowY.toNat < (inData 3 []).height.toNat) ∧
    ((headed 1 1 []).mode = .decode ∧ (headed 1 1 []).rowY.toNat < (headed 1 1 []).height.toNat ∧
      ({ headed 1 1 [] with zin := ⟨[4, 1, 2, 3, 4, 9], false⟩ }).zin.q = 4 :: [1, 2, 3, 4] ++ [9] ∧
      1 + ([1, 2, 3, 4] : List Byte).length = (headed 1 1 []).rowSize.toNat) ∧
    (filterOfTag 4 = some .paeth ∧ filterOfTag 5 = none) ∧
    (({ headed 1 1 [] with zin := ⟨[4, 1, 2, 3], true⟩ }).zin.q.length < (headed 1 1 []).rowSize.toNat ∧
      ({ headed 1 1 [] with zin := ⟨[4, 1, 2, 3], true⟩ }).zin.eos = true) := by decide +kernel

theorem witness_RowMayArriveInPieces : (inData 3 []).zin.eos = false ∧
    (∃ n k, ({ inData 3 [] with fe := .row 9 8 }).fe = .row n k) ∧
    ({ inData 3 [] with fe := .accepted .feRecon }).fe = .accepted .feRecon ∧
    (({ inData 3 [] with fe := .row 9 8, zin := ⟨[], true⟩ }).zin.eos = true ∧
      8 + ({ inData 3 [] with fe := .row 9 8, zin := ⟨[], true⟩ }).zin.q.length < 9) ∧
    (({ inData 3 [] with fe := .row 9 8, zin := ⟨[7], true⟩ }).zin.q = [7] ++ [] ∧ 8 + ([7] : List Byte).length = 9 ∧
      filterOfTag (((inData 3 []).mem.writeBytes (inData 3 []).bufSel 8 [7]).readByte (inData 3 []).bufSel 0) =
        some .none) ∧
    filterOfTag (((inData 3 []).mem.writeBytes (inData 3 []).bufSel 0 [7]).readByte (inData 3 []).bufSel 0) = none :=
  ⟨rfl, ⟨_, _, rfl⟩, rfl, by decide, ⟨rfl, rfl, by decide +kernel⟩, by decide +kernel⟩

theorem witness_FeApplyFiltersARow : (4 : BitVec 3).toNat ≤ 4 ∧
    (opcOf 0x41000005 = 0x41 ∧ 4 < ((0x41000005 : Word).extractLsb' 0 3).toNat) ∧
    (opcOf 0x41000008 = 0x41 ∧ (0x41000008 : Word).extractLsb' 3 21 ≠ 0) ∧
    filterOfTag ((4 : BitVec 3).setWidth 8) = some .paeth ∧ State.reset.mode ≠ .encode ∧ (atSig 1 1).estage ≠ .header ∧
    (encoding 1 0).height.toNat ≤ (encoding 1 0).rowY.toNat ∧
    ((encoding 1 1).mode = .encode ∧ (encoding 1 1).estage = .header ∧
      (encoding 1 1).rowY.toNat < (encoding 1 1).height.toNat) := by decide

theorem witness_FilteredRowDecodesToTheOriginal : ∃ e2, exec (.feApply 4) (encoding 2 1) = .next e2 ∧
    (4 : BitVec 3).toNat ≤ 4 ∧ 1 ≤ (encoding 2 1).rowSize.toNat ∧ (inData 3 []).rowSize = (encoding 2 1).rowSize ∧
    (inData 3 []).mem.readBytes true 1 8 = (encoding 2 1).mem.readBytes true 1 8 ∧
    e2.zout.q = (encoding 2 1).zout.q ++ [4, 0, 0, 0, 0, 0, 0, 0, 0] ∧
    ({ inData 3 [] with zin := ⟨[4, 0, 0, 0, 0, 0, 0, 0, 0, 7], false⟩ }).zin.q = [4, 0, 0, 0, 0, 0, 0, 0, 0] ++ [7] :=
  ⟨_, rfl, by decide, by decide, by decide, by decide +kernel, by decide +kernel, rfl⟩

/-- The first index outside a bank for MAX_WIDTH = 1 and the last one inside. -/
theorem witness_RowPortFollowsItsRules :
    1 + 4 * ({ headed 1 1 [] with params := ⟨1⟩ }).params.maxWidth ≤ (5 : BitVec 34).toNat ∧
    ((4 : BitVec 34).toNat < 1 + 4 * ({ headed 1 1 [] with params := ⟨1⟩ }).params.maxWidth ∧
      ({ headed 1 1 [] with fe := .row 5 2 }).fe ≠ .idle) ∧
    ((headed 1 1 []).fe = .idle ∧ false = (if View.cur = .cur then (headed 1 1 []).bufSel else !(headed 1 1 []).bufSel)) := by
  decide

theorem witness_RegisterReadsShowTheState : State.reset.err = none ∧
    ({ State.reset with err := some .notPng }).err = some .notPng := by decide

/-- The first and the last reserved offset; 0x06C is not one. -/
theorem witness_ReservedOffsetsReadZeroAndIgnoreWrites : 0x070 ≤ 4 * (28 : BitVec 10).toNat ∧
    0x070 ≤ 4 * (1023 : BitVec 10).toNat ∧ ¬ 0x070 ≤ 4 * (27 : BitVec 10).toNat := by decide

theorem witness_RegisterWritesStoreLegalValues : (3 : BitVec 10).toNat ∉ [2, 12, 13, 22, 23, 27] ∧
    ((atSig 1 1).mode = .encode ∧ (atSig 1 1).estage = .sig) ∧ (encoding 1 1).estage = .header ∧
    (1 ≤ (65536 : Word).toNat ∧ (65536 : Word).toNat ≤ 65536) ∧ 65536 < (65537 : Word).toNat ∧
    (7 : Word).extractLsb' 0 2 = 3 ∧ (6 : Word).extractLsb' 0 2 ≠ 3 := by decide

theorem witness_StreamStepsOfTheOutside : State.reset.adp = none ∧ ({ State.reset with adp := some 0 }).adp ≠ none ∧
    State.reset.out.q = [] ∧ ({ State.reset with out := ⟨[7], false⟩ }).out.q = 7 :: [] ∧ State.reset.zout.q = [] ∧
    ({ State.reset with zout := ⟨[7], false⟩ }).zout.q = 7 :: [] := by decide

theorem witness_RaiseRecordsTheFirstError : State.reset.err = none ∧
    ({ State.reset with err := some .notPng }).err ≠ none ∧
    ({ State.reset with fr := .reading 4 [] (.adpCrc 1) }).fr.serving = true ∧ State.reset.fr.serving = false := by decide

/-! ### States that meet the invariant -/

/-- A decode session in its second row of two, FR in an ADP service and FE in FE_RECON, both holding. -/
def busyDecode : State :=
  { inData 7 [] with
    width := 1, rowSize := 5, rowY := 1, bufSel := true, mem := banks 5 [1, 2] [3], adp := some 4
    fr := .reading 3 [9] (.adpData 4), fe := .row 5 2 }

theorem test_busyDecode_meets_the_invariant : busyDecode.Inv where
  mem_wf := by decide +kernel
  params_legal := by decide
  invalid_idle := by decide
  info_with_err := by decide
  decode_side := by decide
  encode_side := by decide
  sig_first := by decide
  sig_encode := by decide
  idatMax_legal := by decide
  level_legal := by decide
  fr_own := by simp [busyDecode]
  fe_own := by simp [busyDecode]
  geometry := fun _ => ⟨⟨by decide, by decide, by decide, by decide, by decide, rfl, rfl⟩, by decide, by decide,
    by decide +kernel, by decide +kernel⟩
  no_geometry := fun h => absurd (.inl (by decide)) h
  eor_done := fun h => absurd h (by decide)
  seg_open := by decide
  seg_empty := by decide
  flushed := by decide
  fr_reading := by
    rintro need got p ⟨⟩
    exact ⟨rfl, by decide, by decide, rfl, rfl, by decide, by decide, by decide⟩
  fr_flushing := by decide
  fe_row := by
    rintro n k ⟨⟩
    exact ⟨rfl, .inl rfl, by decide, by decide, by decide⟩
  outputs_open := by decide

/-- An encode session with FR holding in FW_FLUSH after its one row. -/
def busyEncode : State := { encoding 1 1 with rowY := 1, seg := [1, 2, 3], bufSel := true, fr := .flushing }

theorem test_busyEncode_meets_the_invariant : busyEncode.Inv where
  mem_wf := by decide +kernel
  params_legal := by decide
  invalid_idle := by decide
  info_with_err := by decide
  decode_side := by decide
  encode_side := by decide
  sig_first := by decide
  sig_encode := by decide
  idatMax_legal := by decide
  level_legal := by decide
  fr_own := by simp [busyEncode]
  fe_own := by simp [busyEncode, encoding, State.reset]
  geometry := fun _ => ⟨⟨by decide, by decide, by decide, by decide, by decide, rfl, rfl⟩, by decide, by decide,
    by decide +kernel, by decide +kernel⟩
  no_geometry := fun h => absurd (.inr (by decide)) h
  eor_done := fun h => absurd h (by decide)
  seg_open := by decide
  seg_empty := by decide
  flushed := by decide
  fr_reading := by simp [busyEncode]
  fr_flushing := by decide
  fe_row := by simp [busyEncode, encoding, State.reset]
  outputs_open := by decide

/-- An invalid session: FR_STEP before the signature. -/
def invalid : State := { State.reset with err := some .badState, errInfo := 0x21 }

theorem test_invalid_meets_the_invariant : invalid.Inv where
  mem_wf := by decide
  params_legal := by decide
  invalid_idle := by decide
  info_with_err := by decide
  decode_side := by decide
  encode_side := by decide
  sig_first := by decide
  sig_encode := by decide
  idatMax_legal := by decide
  level_legal := by decide
  fr_own := by simp [invalid, State.reset]
  fe_own := by simp [invalid, State.reset]
  geometry := fun h => absurd h (by unfold State.hasHeader; decide)
  no_geometry := fun _ => ⟨rfl, rfl, rfl⟩
  eor_done := fun h => absurd h (by decide)
  seg_open := by decide
  seg_empty := by decide
  flushed := by decide
  fr_reading := by simp [invalid, State.reset]
  fr_flushing := by decide
  fe_row := by simp [invalid, State.reset]
  outputs_open := by decide

/-- `s` with the events `es` to come. -/
def scheduled (s : State) (es : List Event) : State := { s with sched := es }

theorem witness_InvalidSessionIsFrozenUntilReset : invalid.err ≠ none ∧
    (scheduled invalid [.frServe]).sched = .frServe :: [] ∧ ¬ isReset .frServe ∧
    ∃ t, step (scheduled invalid [.frServe]) = .next t :=
  ⟨by decide, rfl, by simp [isReset], _, rfl⟩

theorem witness_StepKeepsTheInvariant : ∃ t, step (scheduled busyDecode [.pushIn 5, .frRun]) = .next t ∧
    t.sched = [.frRun] ∧ t.inp.q = [5] := ⟨_, rfl, rfl, rfl⟩

/-- A command of FR that moves ESTAGE, and one row of FE. -/
theorem witness_StagesOnlyMoveForward : ¬ isReset .frRun ∧
    (∃ t, step (scheduled { busyEncode with cz := ⟨[4], true⟩ } [.frRun]) = .next t ∧ t.estage = .flushed) ∧
    (∃ t, step (scheduled busyDecode [.feRun]) = .next t) :=
  ⟨by simp [isReset], ⟨_, rfl, by decide +kernel⟩, _, rfl⟩

/-- No row, a header accepted, a row delivered. -/
theorem witness_RowCounterCountsRows : ¬ isReset .feRun ∧
    (∃ t, step (scheduled { busyDecode with zin := ⟨[0, 0, 0], false⟩ } [.feRun]) = .next t ∧ t.rowY = 2) ∧
    (∃ t, step (scheduled { signed ihdr1 with fr := .accepted .frStep } [.frRun]) = .next t ∧ t.dstage = .seenHeader) :=
  ⟨by simp [isReset], ⟨_, rfl, by decide +kernel⟩, _, rfl, by decide +kernel⟩

theorem witness_AgentsKeepBytesBeyondTheRow : isAgentStep .feRun ∧ (∃ t, perform .feRun busyDecode = .next t) ∧
    busyDecode.rowSize.toNat ≤ 5 := ⟨.inr (.inr (.inr rfl)), ⟨_, rfl⟩, by decide⟩

theorem witness_ChunkScanFrame : Instr.frOpen ∈ [Instr.frSig, .frStep, .frOpen] ∧
    (withIn State.reset p2Front).fr.serving = false ∧ ∃ t, exec .frOpen (withIn State.reset p2Front) = .next t :=
  ⟨by decide, rfl, _, rfl⟩

theorem witness_CloseAndAdpFrame : (inData 0 []).fr.serving = false ∧ (∃ t, exec .frClose (inData 0 []) = .next t) ∧
    (∃ t, exec (.adpRead 2) (inData 3 [1, 2]) = .next t ∧ t.fr = .idle) ∧
    (∃ t, exec (.adpRead 2) (inData 3 [1]) = .next t ∧ t.fr ≠ .idle) :=
  ⟨rfl, ⟨_, rfl⟩, ⟨_, rfl, by decide +kernel⟩, _, rfl, by decide +kernel⟩

theorem witness_PowerOnResetValues : ∃ s, perform .powerOn busyDecode = .next s := ⟨_, rfl⟩

/-- The two sides of the threshold. -/
theorem witness_DimensionOverflowThreshold : dimOverflow 0x40000000 0x40000000 = true ∧
    dimOverflow 0x7FFFFFFF 0x20000000 = false := by decide +kernel

end Sys2Proof.Tests
end

section
/-! Proofs about the register map: which offsets are reserved (10_state.md R54), and what the register port does there. -/

namespace Sys2Proof.Proofs
open Sys2Proof.Machine

/-- The 28 registers stand at byte offsets 0x000 to 0x06C (10_state.md R33); no index beyond them names one. -/
theorem regAt_eq_none_of_le {idx : BitVec 10} (h : 28 ≤ idx.toNat) : regAt idx = none := by
  obtain ⟨k, hk⟩ := Nat.exists_eq_add_of_le' h
  simp [regAt, hk]

theorem regRead_of_regAt_none {idx : BitVec 10} (h : regAt idx = none) (s : State) : s.regRead idx = 0 := by
  simp [State.regRead, h]

theorem regWrite_of_regAt_none {idx : BitVec 10} (h : regAt idx = none) (w : Word) (s : State) :
    regWrite idx w s = .next s := by
  simp [regWrite, h]

/-- Settles O44: no register stands at a reserved offset, so the read finds 0 and the write has nothing to store. -/
theorem reservedOffsetsReadZeroAndIgnoreWrites : Obligations.ReservedOffsetsReadZeroAndIgnoreWrites := by
  intro s idx w hoffset
  have hnone : regAt idx = none := regAt_eq_none_of_le (by omega)
  exact ⟨regRead_of_regAt_none hnone s, regWrite_of_regAt_none hnone w s⟩

end Sys2Proof.Proofs
end

section
/-! Proofs about the CMD write (30_encoding.md R142, R145): what a word's decode alone settles about its issue. -/

namespace Sys2Proof.Proofs
open Sys2Proof.Machine Sys2Proof.Claims

/-- The order of R142 for a decoded command of FR: an invalid session first, then a busy FR, then acceptance. -/
theorem frGate_of_decodeCmd {w : Word} {i : Instr} (hdec : decodeCmd w = .instr i) (hfr : i.target = .fr) :
    FrGate w i := by
  refine ⟨hdec, fun s => ⟨fun herr => ?_, fun herr hbusy => ?_, fun herr hidle => ?_⟩⟩
  · simp [issue, hdec, hfr, herr]
  · simp [issue, hdec, hfr, herr, State.busy, State.frBusy, hbusy]
  · simp [issue, hdec, hfr, herr, State.busy, State.frBusy, hidle, accept]

theorem illegalWord_of_decodeCmd_reject {w : Word} {why : Reject} (hdec : decodeCmd w = .reject why) :
    IllegalWord w := by
  refine ⟨fun i => by simp [hdec], fun s => ⟨fun herr => ?_, fun herr => ?_⟩⟩
  · simp [issue, hdec, herr]
  · have hsome : s.err.isNone = false := Option.isNone_eq_false_iff.mpr herr
    simp [issue, hdec, hsome]

/-- A 1 among the reserved ARG bits of a listed opcode makes the word illegal (R141, R145). -/
theorem illegalWord_of_reservedBits {w : Word} {mask : BitVec 24} (hmask : reservedMask (opcOf w) = some mask)
    (hbits : argOf w &&& mask ≠ 0) : IllegalWord w :=
  illegalWord_of_decodeCmd_reject (why := .reservedBits (opcOf w) (argOf w &&& mask)) (by
    simp only [decodeCmd, hmask, if_neg hbits])

end Sys2Proof.Proofs
end

section
/-! Proofs about the CRC unit and its commands (40_crc.md). -/

namespace Sys2Proof.Proofs
open Sys2Proof.Machine Sys2Proof.Claims

/-- `CrcFeed(b)` folds the byte into the low bits of `R` and then takes eight bit steps (R182). -/
theorem crcFeedByte_eq_iterate (r : Word) (b : Byte) :
    crcFeedByte r b = crcBitStep^[8] (r ^^^ b.setWidth 32) := rfl

theorem exec_crcByte (b : Byte) (s : State) :
    exec (.crcByte b) s = .next ({ s with crc := crcFeedByte s.crc b }.frDone 0) := rfl

theorem decodeCmd_crcByteWord (b : Byte) :
    decodeCmd ((0x11 : BitVec 8) ++ (0 : BitVec 16) ++ b : BitVec 32) = .instr (.crcByte b) := by
  revert b
  decide +kernel

/-- The reserved bits of CRC_BYTE are ARG[23:8], which stand at bits 23 to 8 of the word (R141). -/
theorem argOf_and_crcByteMask_ne_zero {w : Word} (hbits : w.extractLsb' 8 16 ≠ 0) : argOf w &&& 0xFFFF00 ≠ 0 := by
  intro hzero
  refine hbits ?_
  calc w.extractLsb' 8 16
      = (argOf w).extractLsb' 8 16 := (BitVec.extractLsb'_extractLsb'_of_le (by decide)).symm
    _ = (argOf w).extractLsb' 8 16 &&& (0xFFFF00 : BitVec 24).extractLsb' 8 16 := BitVec.and_allOnes.symm
    _ = (argOf w &&& 0xFFFF00).extractLsb' 8 16 := BitVec.extractLsb'_and.symm
    _ = 0 := by rw [hzero]; rfl

theorem target_crcByte (b : Byte) : (Instr.crcByte b).target = .fr := by
  simp [Instr.target, Instr.port, Instr.opcode]

/-- Settles O11: the gate and the illegal words come from the decode, the next state from the bit steps of R182. -/
theorem crcByteFeedsOneByte : Obligations.CrcByteFeedsOneByte := by
  refine ⟨fun b => ?gate, fun b s => ?meaning, fun w hopc hbits => ?reserved⟩
  case gate => exact frGate_of_decodeCmd (decodeCmd_crcByteWord b) (target_crcByte b)
  case meaning =>
    rw [exec_crcByte, crcFeedByte_eq_iterate]
    rfl
  case reserved =>
    have hmask : reservedMask (opcOf w) = some 0xFFFF00 := by rw [hopc]; rfl
    exact illegalWord_of_reservedBits hmask (argOf_and_crcByteMask_ne_zero hbits)

end Sys2Proof.Proofs
end

section
/-! Proofs about a `ReadIn` of FR (20_memory.md R102), in the words the statements use. -/

namespace Sys2Proof.Proofs
open Sys2Proof.Machine Sys2Proof.Claims

theorem readIn_eq_afterRead {s : State} {d rest : List Byte} {k : Nat} (p : FrPoint) (hq : s.inp.q = d ++ rest)
    (hlen : d.length = k) (hpos : 1 ≤ k) : readIn k p s = runGo (afterRead p d (withIn s rest)) :=
  readIn_enough hq hlen hpos

theorem readIn_eq_shortRead {s : State} {k : Nat} (p : FrPoint) (hlen : s.inp.q.length < k) :
    readIn k p s = shortRead k p s :=
  readIn_short hlen

end Sys2Proof.Proofs
end

section
/-! Proofs about FR_SIG (41_framer_decode.md R220): its state check, its `ReadIn(8)`, and what follows the eight bytes. -/

namespace Sys2Proof.Proofs
open Sys2Proof.Machine Sys2Proof.Claims

theorem sigBytes_length : sigBytes.length = 8 := rfl

theorem decodeCmd_frSigWord : decodeCmd 0x20000000 = .instr .frSig := by decide

theorem exec_frSig_badState {s : State} (hstate : s.mode ≠ .decode ∨ s.sigOk = true ∨ s.dstage ≠ .start) :
    exec .frSig s = .next (raise .badState 0x20 s) :=
  congrArg Host.Outcome.next (if_pos hstate)

theorem exec_frSig_readIn {s : State} (hmode : s.mode = .decode) (hsig : s.sigOk = false)
    (hstage : s.dstage = .start) : exec .frSig s = .next (readIn 8 (.sig false) s) :=
  congrArg Host.Outcome.next (if_neg (by simp [hmode, hsig, hstage]))

theorem runGo_afterRead_sig_match (s : State) :
    runGo (afterRead (.sig false) sigBytes s) = { s with sigOk := true, frResult := 0, fr := .idle } := rfl

theorem runGo_afterRead_sig_mismatch {b : List Byte} (hb : b ≠ sigBytes) (s : State) :
    runGo (afterRead (.sig false) b s) = raise .notPng 0 s :=
  congrArg runGo (if_neg hb)

/-- Settles O13: past the gate and the state check FR_SIG is one `ReadIn(8)`, which finds SIG, eight other bytes, or too
few on an ended or an open IN. -/
theorem frSigChecksTheSignature : Obligations.FrSigChecksTheSignature := by
  refine ⟨frGate_of_decodeCmd decodeCmd_frSigWord target_frSig, fun s => ⟨exec_frSig_badState, ?_⟩⟩
  intro hmode hsig hstage
  rw [exec_frSig_readIn hmode hsig hstage]
  refine ⟨fun rest hq => ?signature, fun b rest hq hlen hb => ?otherBytes, fun hlen heos => ?ended,
    fun hlen hopen => ?hold⟩
  case signature =>
    have hqSig : s.inp.q = sigBytes ++ rest := hq
    rw [readIn_eq_afterRead _ hqSig sigBytes_length (by decide), runGo_afterRead_sig_match]
  case otherBytes => rw [readIn_eq_afterRead _ hq hlen (by decide), runGo_afterRead_sig_mismatch hb]
  case ended => rw [readIn_eq_shortRead _ hlen, shortRead, if_pos heos]
  case hold => rw [readIn_eq_shortRead _ hlen, shortRead, if_neg (Bool.eq_false_iff.mp hopen)]

end Sys2Proof.Proofs
end

section
/-! Proofs about the dimension checks of the header (41_framer_decode.md R204, R205). -/

namespace Sys2Proof.Proofs
open Sys2Proof.Machine

/-- `DimOverflow` compares with the largest signed integer of INT_BITS = 64 bits (R205). -/
theorem dimOverflow_eq_true_iff (w h : Word) :
    dimOverflow w h = true ↔ w.toNat * h.toNat * 8 > 2 ^ 63 - 1 :=
  decide_eq_true_iff

/-- Settles O60: `2 ^ 63` is `2 ^ 60 * 8`, so the bound on `w * h * 8` is one on `w * h`. -/
theorem dimensionOverflowThreshold : Obligations.DimensionOverflowThreshold := by
  intro w h
  have hscale : w.toNat * h.toNat * 8 > 2 ^ 63 - 1 ↔ 2 ^ 60 ≤ w.toNat * h.toNat := by omega
  exact ⟨dimOverflow_eq_true_iff w h, (dimOverflow_eq_true_iff w h).trans hscale⟩

end Sys2Proof.Proofs
end

section
/-! Proofs about the chunk writer (42_framer_encode.md R260) on the two chunks whose length is fixed: what the registers
show and which bytes OUT gains. -/

namespace Sys2Proof.Proofs
open Sys2Proof.Machine

/-- The header chunk: length 13 and TAG_IHDR stand before the payload, and the CRC starts from that tag's. -/
theorem writeChunk_tagIhdr {p : List Byte} (hlen : p.length = 13) (s : State) :
    s.writeChunk tagIhdr p = { s with
      chunkLen := 13
      chunkTag := 0x49484452
      crc := crcFeed 0x575E51F5 p
      out := s.out.append ([0x00, 0x00, 0x00, 0x0D, 0x49, 0x48, 0x44, 0x52] ++ p ++
        be32Bytes (crcFeed 0x575E51F5 p ^^^ 0xFFFFFFFF)) } := by
  rw [State.writeChunk, chunkBytes, chunkCrc, crcFeed_tagIhdr, hlen]
  rfl

/-- The terminal chunk's CRC field: nothing is fed after TAG_IEND (R274). -/
theorem chunkBytes_tagIend :
    chunkBytes tagIend [] = [0x00, 0x00, 0x00, 0x00, 0x49, 0x45, 0x4E, 0x44, 0xAE, 0x42, 0x60, 0x82] := by
  have hcrc : chunkCrc tagIend [] = 0xAE426082 := by
    rw [chunkCrc, crcFeed_tagIend]
    rfl
  rw [chunkBytes, hcrc]
  rfl

theorem writeChunk_tagIend (s : State) :
    s.writeChunk tagIend [] = { s with
      chunkLen := 0
      chunkTag := 0x49454E44
      crc := 0x51BD9F7D
      out := s.out.append [0x00, 0x00, 0x00, 0x00, 0x49, 0x45, 0x4E, 0x44, 0xAE, 0x42, 0x60, 0x82] } := by
  rw [State.writeChunk, chunkBytes_tagIend, crcFeed_tagIend]
  rfl

end Sys2Proof.Proofs
end

section
/-! Proofs about FW_SIG (42_framer_encode.md R270). -/

namespace Sys2Proof.Proofs
open Sys2Proof.Machine Sys2Proof.Claims

theorem decodeCmd_fwSigWord : decodeCmd 0x30000000 = .instr .fwSig := by decide

theorem exec_fwSig_badState {s : State} (hstate : s.mode ≠ .encode ∨ s.estage ≠ .start) :
    exec .fwSig s = .next (raise .badState 0x30 s) :=
  congrArg Host.Outcome.next (if_pos hstate)

theorem exec_fwSig_writes {s : State} (hmode : s.mode = .encode) (hstage : s.estage = .start) :
    exec .fwSig s = .next ({ s with out := s.out.append sigBytes, sigOk := true, estage := .sig }.frDone 0) :=
  congrArg Host.Outcome.next (if_neg (by simp [hmode, hstage]))

/-- Settles O27: past the gate, FW_SIG is its state check and one write of SIG. -/
theorem fwSigWritesTheSignature : Obligations.FwSigWritesTheSignature :=
  ⟨frGate_of_decodeCmd decodeCmd_fwSigWord target_fwSig, fun _ => ⟨exec_fwSig_badState, exec_fwSig_writes⟩⟩

end Sys2Proof.Proofs
end

section
/-! Proofs about what decode and encode share in a header (41_framer_decode.md R204, 42_framer_encode.md R271):
the checks on the dimensions, and the row geometry. -/

namespace Sys2Proof.Proofs
open Sys2Proof.Machine Sys2Proof.Claims

theorem nonPositive_eq_true_iff (w : Word) : nonPositive w = true ↔ w.toInt ≤ 0 := decide_eq_true_iff

theorem tooWide_eq_true_iff (p : Config.Params) (w : Word) : tooWide p w = true ↔ w.toNat > p.maxWidth :=
  decide_eq_true_iff

/-- The dimension checks that decode and encode share, on the integers the words stand for (R204, R205). -/
theorem dimensionCheck_eq (w h : Word) :
    dimensionCheck w h =
      if w.toInt ≤ 0 then some (.nonPositiveDimension, w)
      else if h.toInt ≤ 0 then some (.nonPositiveDimension, h)
      else if w.toNat * h.toNat * 8 > 2 ^ 63 - 1 then some (.dimensionOverflow, 0)
      else none := by
  simp only [dimensionCheck, nonPositive_eq_true_iff, dimOverflow_eq_true_iff]

theorem dimensionCheck_eq_none {w h : Word} (hw : 0 < w.toInt) (hh : 0 < h.toInt)
    (hfits : w.toNat * h.toNat * 8 ≤ 2 ^ 63 - 1) : dimensionCheck w h = none := by
  rw [dimensionCheck_eq, if_neg (not_le.mpr hw), if_neg (not_le.mpr hh), if_neg (not_lt.mpr hfits)]

/-- Accepting a header zeroes both banks over the row's `1 + 4·w` bytes, which fit the 64 bits of ROW_SIZE (R44). -/
theorem acceptRows_eq_rowsAccepted (s : State) (w : Word) : s.acceptRows w = rowsAccepted s w := by
  rw [State.acceptRows, rowSizeOf_toNat]
  rfl

end Sys2Proof.Proofs
end

section
/-! Proofs about FW_IHDR (42_framer_encode.md R271): its checks on the dimensions, and the header it writes. -/

namespace Sys2Proof.Proofs
open Sys2Proof.Machine Sys2Proof.Claims

theorem encodeCheck_of_dimensionCheck_some {params : Config.Params} {w h : Word} {e : Reason × Word}
    (hdim : dimensionCheck w h = some e) : encodeCheck params w h = some e := by
  rw [encodeCheck, hdim]

theorem encodeCheck_of_dimensionCheck_none {params : Config.Params} {w h : Word} (hdim : dimensionCheck w h = none) :
    encodeCheck params w h = if w.toNat > params.maxWidth then some (.rowTooWide, w) else none := by
  simp only [encodeCheck, hdim, tooWide_eq_true_iff]

theorem decodeCmd_fwIhdrWord : decodeCmd 0x31000000 = .instr .fwIhdr := by decide

theorem exec_fwIhdr_badState {s : State} (hstate : s.mode ≠ .encode ∨ s.estage ≠ .sig) :
    exec .fwIhdr s = .next (raise .badState 0x31 s) :=
  congrArg Host.Outcome.next (if_pos hstate)

theorem exec_fwIhdr (s : State) : exec .fwIhdr s = execFwIhdr s := rfl

section
variable {s : State} (hmode : s.mode = .encode) (hstage : s.estage = .sig)
include hmode hstage

theorem exec_fwIhdr_raises {r : Reason} {info : Word}
    (hcheck : encodeCheck s.params s.width s.height = some (r, info)) : exec .fwIhdr s = .next (raise r info s) := by
  rw [exec_fwIhdr, execFwIhdr, if_neg (by simp [hmode, hstage]), hcheck]

theorem exec_fwIhdr_writes (hcheck : encodeCheck s.params s.width s.height = none) :
    exec .fwIhdr s = .next (writeHeader s) := by
  rw [exec_fwIhdr, execFwIhdr, if_neg (by simp [hmode, hstage]), hcheck]

end

/-- What FW_IHDR writes once every check has passed (R271). -/
theorem writeHeader_eq (s : State) :
    writeHeader s = { rowsAccepted s s.width with
      hdrFmt := 0x00000608, hdrIl := 0, chunkLen := 13, chunkTag := 0x49484452
      crc := crcFeed 0x575E51F5 (headerPayload s.width s.height)
      out := s.out.append ([0x00, 0x00, 0x00, 0x0D, 0x49, 0x48, 0x44, 0x52] ++ headerPayload s.width s.height ++
        be32Bytes (crcFeed 0x575E51F5 (headerPayload s.width s.height) ^^^ 0xFFFFFFFF))
      segMax := s.idatMax, seg := [], idatCount := 0, estage := .header, frResult := 0, fr := .idle } := by
  rw [writeHeader, acceptRows_eq_rowsAccepted, writeChunk_tagIhdr (p := headerPayload s.width s.height) rfl]
  rfl

/-- Settles O28: past the gate and the state check, the case of the dimensions decides what `encodeCheck` answers, and
with it between an error on the state as it is and the header. -/
theorem fwIhdrWritesTheHeader : Obligations.FwIhdrWritesTheHeader := by
  refine ⟨frGate_of_decodeCmd decodeCmd_fwIhdrWord target_fwIhdr, fun s => ⟨exec_fwIhdr_badState, ?_⟩⟩
  intro hmode hstage
  refine ⟨fun hw => ?width, fun hw hh => ?height, fun hw hh hover => ?overflow, fun hw hh hfits hwide => ?tooWide,
    fun hw hh hfits hnarrow payload hpayload => ?header⟩
  case width =>
    have hdim : dimensionCheck s.width s.height = some (.nonPositiveDimension, s.width) := by
      rw [dimensionCheck_eq, if_pos hw]
    exact exec_fwIhdr_raises hmode hstage (encodeCheck_of_dimensionCheck_some hdim)
  case height =>
    have hdim : dimensionCheck s.width s.height = some (.nonPositiveDimension, s.height) := by
      rw [dimensionCheck_eq, if_neg (not_le.mpr hw), if_pos hh]
    exact exec_fwIhdr_raises hmode hstage (encodeCheck_of_dimensionCheck_some hdim)
  case overflow =>
    have hdim : dimensionCheck s.width s.height = some (.dimensionOverflow, 0) := by
      rw [dimensionCheck_eq, if_neg (not_le.mpr hw), if_neg (not_le.mpr hh), if_pos hover]
    exact exec_fwIhdr_raises hmode hstage (encodeCheck_of_dimensionCheck_some hdim)
  case tooWide =>
    refine exec_fwIhdr_raises hmode hstage ?_
    rw [encodeCheck_of_dimensionCheck_none (dimensionCheck_eq_none hw hh hfits), if_pos hwide]
  case header =>
    have hcheck : encodeCheck s.params s.width s.height = none := by
      rw [encodeCheck_of_dimensionCheck_none (dimensionCheck_eq_none hw hh hfits), if_neg (not_lt.mpr hnarrow)]
    rw [exec_fwIhdr_writes hmode hstage hcheck, writeHeader_eq, hpayload]
    rfl

end Sys2Proof.Proofs
end

section
/-! Proofs about FW_IEND (42_framer_encode.md R274). -/

namespace Sys2Proof.Proofs
open Sys2Proof.Machine Sys2Proof.Claims

theorem decodeCmd_fwIendWord : decodeCmd 0x33000000 = .instr .fwIend := by decide

theorem exec_fwIend_badState {s : State} (hstate : s.mode ≠ .encode ∨ s.estage ≠ .flushed) :
    exec .fwIend s = .next (raise .badState 0x33 s) :=
  congrArg Host.Outcome.next (if_pos hstate)

theorem exec_fwIend_writes {s : State} (hmode : s.mode = .encode) (hstage : s.estage = .flushed) :
    exec .fwIend s = .next ({ s.writeChunk tagIend [] with estage := .ended }.frDone 0) :=
  congrArg Host.Outcome.next (if_neg (by simp [hmode, hstage]))

/-- Settles O33: past the gate, FW_IEND is its state check and one write of the terminal chunk. -/
theorem fwIendWritesTheTerminalChunk : Obligations.FwIendWritesTheTerminalChunk := by
  refine ⟨frGate_of_decodeCmd decodeCmd_fwIendWord target_fwIend, fun s => ⟨exec_fwIend_badState, ?_⟩⟩
  intro hmode hstage
  rw [exec_fwIend_writes hmode hstage, writeChunk_tagIend]
  rfl

end Sys2Proof.Proofs
end

section
/-! Proofs about the gate of FE's commands (30_encoding.md R142). -/

namespace Sys2Proof.Proofs
open Sys2Proof.Machine Sys2Proof.Claims

/-- The order of R142 for a decoded command of FE: an invalid session first, then a busy FE, then acceptance. -/
theorem feGate_of_decodeCmd {w : Word} {i : Instr} (hdec : decodeCmd w = .instr i) (hfe : i.target = .fe) :
    FeGate w i := by
  refine ⟨hdec, fun s => ⟨fun herr => ?_, fun herr hbusy => ?_, fun herr hidle => ?_⟩⟩
  · simp [issue, hdec, hfe, herr]
  · simp [issue, hdec, hfe, herr, State.busy, State.feBusy, hbusy]
  · simp [issue, hdec, hfe, herr, State.busy, State.feBusy, hidle, accept]

end Sys2Proof.Proofs
end

section
/-! Proofs about the bytes of a row and their neighbours (43_filter.md R301). -/

namespace Sys2Proof.Proofs
open Sys2Proof.Machine

theorem byteAt_of_lt {d : List Byte} {i : Nat} (h : i < d.length) : byteAt d i = d[i] :=
  List.getD_eq_getElem d 0 h

theorem byteAt_append_of_lt {d : List Byte} {i : Nat} (h : i < d.length) (e : List Byte) :
    byteAt (d ++ e) i = byteAt d i :=
  List.getD_append d e 0 i h

@[simp] theorem byteAt_concat_length (d : List Byte) (b : Byte) : byteAt (d ++ [b]) d.length = b := by
  simp [byteAt]

/-- The left neighbour of byte `i` lies below `i`, so bytes put on at or above `i` do not reach it. -/
theorem fourBefore_append {left : List Byte} {i : Nat} (h : i ≤ left.length) (e : List Byte) :
    fourBefore (left ++ e) i = fourBefore left i := by
  unfold fourBefore
  split
  · exact byteAt_append_of_lt (by omega) e
  · rfl

theorem predictAt_append {left : List Byte} {i : Nat} (h : i ≤ left.length) (f : Filter) (e up : List Byte) :
    predictAt f (left ++ e) up i = predictAt f left up i := by
  unfold predictAt
  rw [fourBefore_append h e]

end Sys2Proof.Proofs
end

section
/-! Proofs about Recon and Apply (43_filter.md R304, R305, R306). Both go through the row byte by byte, so each is
described by what a byte put on at the row's end adds to its result, and the facts about whole rows follow by induction
from that end. -/

namespace Sys2Proof.Proofs
open Sys2Proof.Machine

/-- One turn of Recon's loop (R304). -/
theorem recon_concat (f : Filter) (filt up : List Byte) (b : Byte) :
    recon f (filt ++ [b]) up = recon f filt up ++ [b + predictAt f (recon f filt up) up filt.length] := by
  have hbefore : (List.range filt.length).foldl
      (fun rec i => rec ++ [byteAt (filt ++ [b]) i + predictAt f rec up i]) [] = recon f filt up := by
    refine List.foldl_ext _ _ _ fun rec i hi => ?_
    rw [byteAt_append_of_lt (List.mem_range.mp hi)]
  rw [recon, List.length_append, List.length_singleton, List.range_succ, List.foldl_append, hbefore]
  simp

/-- One turn of Apply's loop (R305). -/
theorem applyFilter_concat (f : Filter) (orig up : List Byte) (b : Byte) :
    applyFilter f (orig ++ [b]) up = applyFilter f orig up ++ [b - predictAt f orig up orig.length] := by
  have hbefore : (List.range orig.length).map
      (fun i => byteAt (orig ++ [b]) i - predictAt f (orig ++ [b]) up i) = applyFilter f orig up := by
    refine List.map_congr_left fun i hi => ?_
    have hi : i < orig.length := List.mem_range.mp hi
    rw [byteAt_append_of_lt hi, predictAt_append hi.le]
  rw [applyFilter, List.length_append, List.length_singleton, List.range_succ, List.map_append, hbefore]
  simp [predictAt_append]

@[simp] theorem recon_length (f : Filter) (filt up : List Byte) : (recon f filt up).length = filt.length := by
  induction filt using List.reverseRecOn with
  | nil => rfl
  | append_singleton filt b ih => simp [recon_concat, ih]

@[simp] theorem applyFilter_length (f : Filter) (orig up : List Byte) :
    (applyFilter f orig up).length = orig.length := by
  simp [applyFilter]

/-- Each reconstructed byte is its filtered byte plus the prediction from the reconstructed row (R304). -/
theorem recon_getElem? (f : Filter) (up : List Byte) {filt : List Byte} {i : Nat} (h : i < filt.length) :
    (recon f filt up)[i]? = some (filt[i] + predictAt f (recon f filt up) up i) := by
  induction filt using List.reverseRecOn with
  | nil => exact absurd h (Nat.not_lt_zero i)
  | append_singleton filt b ih =>
    have hle : i ≤ filt.length := by simpa [Nat.lt_succ_iff] using h
    rw [recon_concat, predictAt_append (by simpa using hle)]
    rcases hle.lt_or_eq with hi | rfl
    · rw [List.getElem?_append_left (by simpa using hi), ih hi, List.getElem_append_left hi]
    · simp

/-- Each filtered byte is its original byte minus the prediction from the original row (R305). -/
theorem applyFilter_getElem? (f : Filter) (up : List Byte) {orig : List Byte} {i : Nat} (h : i < orig.length) :
    (applyFilter f orig up)[i]? = some (orig[i] - predictAt f orig up i) := by
  rw [applyFilter, List.getElem?_map, List.getElem?_range h, Option.map_some, byteAt_of_lt h]

/-- Byte by byte the two predictions are equal, the bytes before being reconstructed already (R306). -/
theorem recon_applyFilter (f : Filter) (orig up : List Byte) : recon f (applyFilter f orig up) up = orig := by
  induction orig using List.reverseRecOn with
  | nil => rfl
  | append_singleton orig b ih =>
    rw [applyFilter_concat, recon_concat, ih, applyFilter_length, BitVec.sub_add_cancel]

/-- Settles O36: the row above may have any length, as bytes it lacks read 0 in both directions. -/
theorem reconInvertsApply : Obligations.ReconInvertsApply :=
  fun f orig up _ => recon_applyFilter f orig up

/-- Settles O35: the two neighbours at `i - 4` are those `predictAt` looks up. -/
theorem rowsAddAndSubtractThePrediction : Obligations.RowsAddAndSubtractThePrediction :=
  fun f row up => ⟨recon_length f row up, applyFilter_length f row up, fun _ h =>
    ⟨recon_getElem? f up h, applyFilter_getElem? f up h⟩⟩

end Sys2Proof.Proofs
end

section
/-! Proofs about the filter tags and the predictors (43_filter.md R300, R302, R303). -/

namespace Sys2Proof.Proofs
open Sys2Proof.Machine

/-- Tags 5 to 255 are illegal (R300). -/
theorem filterOfTag_eq_none {tag : Byte} (h : 4 < tag.toNat) : filterOfTag tag = none := by
  have hne : ∀ k : Byte, k.toNat ≤ 4 → tag ≠ k := fun k hk htag => absurd (htag ▸ h) (not_lt.mpr hk)
  rw [filterOfTag, if_neg (hne 0 (by decide)), if_neg (hne 1 (by decide)), if_neg (hne 2 (by decide)),
    if_neg (hne 3 (by decide)), if_neg (hne 4 (by decide))]

/-- Half the sum of two bytes is a byte, so Average's predictor is exact (R303). -/
theorem predict_average_toNat (a b c : Byte) :
    (predict .average a b c).toNat = (a.toNat + b.toNat) / 2 := by
  have ha := a.isLt
  have hb := b.isLt
  rw [predict, BitVec.toNat_ofNat, Nat.mod_eq_of_lt (by omega)]

/-- Paeth's choice in terms of absolute values of integers (R302). -/
theorem paeth_eq (a b c : Byte) {p : Int} (hp : p = a.toNat + b.toNat - c.toNat) :
    paeth a b c =
      if |p - a.toNat| ≤ |p - b.toNat| ∧ |p - a.toNat| ≤ |p - c.toNat| then a
      else if |p - b.toNat| ≤ |p - c.toNat| then b else c := by
  subst hp
  simp only [paeth, Int.abs_eq_natAbs, Int.ofNat_le]

/-- Settles O34: the tags and three predictors by their definitions, Average on the exact half, and Paeth by which of the
three distances is least. -/
theorem predictorsOfTheFiveFilters : Obligations.PredictorsOfTheFiveFilters := by
  refine ⟨⟨rfl, rfl, rfl, rfl, rfl, fun tag => filterOfTag_eq_none⟩, fun a b c =>
    ⟨rfl, rfl, rfl, predict_average_toNat a b c, ?_⟩⟩
  intro p
  have hpaeth := paeth_eq a b c (p := p) rfl
  refine ⟨fun hab hac => ?left, fun hba hbc => ?up, fun hca hcb => ?upperLeft⟩
  case left => exact hpaeth.trans (if_pos ⟨hab, hac⟩)
  case up => exact hpaeth.trans ((if_neg fun h => absurd h.1 (not_le.mpr hba)).trans (if_pos hbc))
  case upperLeft =>
    exact hpaeth.trans ((if_neg fun h => absurd h.2 (not_le.mpr hca)).trans (if_neg (not_le.mpr hcb)))

end Sys2Proof.Proofs
end

section
/-! Proofs about FE_APPLY (43_filter.md R311): its words, its state check, and the row it filters. -/

namespace Sys2Proof.Proofs
open Sys2Proof.Machine Sys2Proof.Claims

theorem decodeCmd_feApplyWord {f : BitVec 3} (h : f.toNat ≤ 4) :
    decodeCmd ((0x41 : BitVec 8) ++ (0 : BitVec 21) ++ f : BitVec 32) = .instr (.feApply f) := by
  revert f
  decide

/-- The reserved bits of FE_APPLY are ARG[23:3], which stand at bits 23 to 3 of the word (R141). -/
theorem argOf_and_feApplyMask_ne_zero {w : Word} (hbits : w.extractLsb' 3 21 ≠ 0) : argOf w &&& 0xFFFFF8 ≠ 0 := by
  intro hzero
  refine hbits ?_
  calc w.extractLsb' 3 21
      = (argOf w).extractLsb' 3 21 := (BitVec.extractLsb'_extractLsb'_of_le (by decide)).symm
    _ = (argOf w).extractLsb' 3 21 &&& (0xFFFFF8 : BitVec 24).extractLsb' 3 21 := BitVec.and_allOnes.symm
    _ = (argOf w &&& 0xFFFFF8).extractLsb' 3 21 := BitVec.extractLsb'_and.symm
    _ = 0 := by rw [hzero]; rfl

theorem filterOperand_argOf (w : Word) : filterOperand (argOf w) = w.extractLsb' 0 3 :=
  BitVec.extractLsb'_extractLsb'_of_le (by decide)

/-- `f = 5..7` is no filter (R145). -/
theorem decodeListed_feApply_of_lt {arg : BitVec 24} (h : 4 < (filterOperand arg).toNat) :
    decodeListed 0x41 arg = .reject (.illegalFilter (filterOperand arg)) :=
  if_neg (not_le.mpr h)

theorem illegalWord_of_feApply {w : Word} (hopc : opcOf w = 0x41)
    (hill : w.extractLsb' 3 21 ≠ 0 ∨ 4 < (w.extractLsb' 0 3).toNat) : IllegalWord w := by
  have hmask : reservedMask 0x41 = some 0xFFFFF8 := rfl
  by_cases hbits : argOf w &&& 0xFFFFF8 = 0
  · have hf : 4 < (filterOperand (argOf w)).toNat := by
      rw [filterOperand_argOf]
      exact hill.resolve_left fun h => argOf_and_feApplyMask_ne_zero h hbits
    refine illegalWord_of_decodeCmd_reject (why := .illegalFilter (filterOperand (argOf w))) ?_
    simp only [decodeCmd, hopc, hmask, if_pos hbits, decodeListed_feApply_of_lt hf]
  · exact illegalWord_of_reservedBits (hopc.symm ▸ hmask) hbits

/-- FE_APPLY with a filter the decoder lets through: its state check, then the row (R311). -/
theorem exec_feApply {f : BitVec 3} {flt : Filter} (hf : filterOfTag (f.setWidth 8) = some flt) (s : State) :
    exec (.feApply f) s = .next (
      if s.mode ≠ .encode ∨ s.estage ≠ .header ∨ s.rowY.toNat ≥ s.height.toNat then raise .badState 0x41 s
      else applyRow flt (f.setWidth 8) s) := by
  rw [exec, execFeApply, hf]

/-- Both rows are read before the tag goes to CUR[0], the one byte written (R311). -/
theorem applyRow_eq (flt : Filter) (tag : Byte) (s : State) :
    applyRow flt tag s = { s with
      zout := ⟨s.zout.q ++ tag :: applyFilter flt (s.mem.readBytes s.bufSel 1 (s.rowSize.toNat - 1))
        (s.mem.readBytes (!s.bufSel) 1 (s.rowSize.toNat - 1)), s.zout.eos⟩
      mem := s.mem.writeByte s.bufSel 0 tag
      bufSel := !s.bufSel, rowY := s.rowY + 1, feResult := 0, fe := .idle } := rfl

/-- Settles O39: the gate and the illegal words come from the decode; past the state check the command is one row. -/
theorem feApplyFiltersARow : Obligations.FeApplyFiltersARow := by
  refine ⟨fun f hf => ?gate, fun w => illegalWord_of_feApply, fun s f flt hf => ⟨fun hstate => ?badState, ?row⟩⟩
  case gate => exact feGate_of_decodeCmd (decodeCmd_feApplyWord hf) (target_feApply f)
  case badState => rw [exec_feApply hf, if_pos hstate]
  case row =>
    intro hmode hstage hrow
    have hpasses : ¬ (s.mode ≠ .encode ∨ s.estage ≠ .header ∨ s.rowY.toNat ≥ s.height.toNat) := by
      simp [hmode, hstage, hrow]
    rw [exec_feApply hf, if_neg hpasses, applyRow_eq]

end Sys2Proof.Proofs
end

section
/-! Proofs about NOP and the words of its opcode (44_system.md R340, 30_encoding.md R141, R142). -/

namespace Sys2Proof.Proofs
open Sys2Proof.Machine Sys2Proof.Claims

/-- A SYS command runs in the CMD write step, before the checks of the session and of a busy agent (R142). -/
theorem issue_eq_exec_of_target_sys {w : Word} {i : Instr} (hdec : decodeCmd w = .instr i) (hsys : i.target = .sys)
    (s : State) : issue w s = exec i s := by
  simp [issue, hdec, hsys]

theorem decodeCmd_nopWord : decodeCmd 0x00000000 = .instr .nop := by decide

theorem exec_nop (s : State) : exec .nop s = .next s := rfl

/-- A word is its OPC followed by its ARG (R140). -/
theorem opcOf_append_argOf (w : Word) : (opcOf w ++ argOf w : BitVec 32) = w := by
  rw [opcOf, argOf, BitVec.extractLsb'_append_extractLsb'_eq_extractLsb' (by decide), BitVec.extractLsb'_eq_self]

/-- All 24 bits of ARG are reserved for opcode 0x00 (R141), and one of them is 1 where the word is not 0. -/
theorem argOf_and_nopMask_ne_zero {w : Word} (hopc : opcOf w = 0x00) (hw : w ≠ 0) : argOf w &&& 0xFFFFFF ≠ 0 := by
  have hmask : (0xFFFFFF : BitVec 24) = BitVec.allOnes 24 := by decide
  rw [hmask, BitVec.and_allOnes]
  intro harg
  refine hw ?_
  calc w = opcOf w ++ argOf w := (opcOf_append_argOf w).symm
    _ = (0x00 : BitVec 8) ++ (0 : BitVec 24) := by rw [hopc, harg]
    _ = 0 := by decide

/-- Settles O8: NOP is a SYS command that answers its own state, and a word of its opcode that is not 0 has a reserved
bit set. -/
theorem nopChangesNothing : Obligations.NopChangesNothing := by
  refine ⟨fun s => ⟨exec_nop s, ?issue⟩, fun w hopc hw => ?reserved⟩
  case issue => rw [issue_eq_exec_of_target_sys decodeCmd_nopWord target_nop, exec_nop]
  case reserved =>
    have hmask : reservedMask (opcOf w) = some 0xFFFFFF := by rw [hopc]; rfl
    exact illegalWord_of_reservedBits hmask (argOf_and_nopMask_ne_zero hopc hw)

end Sys2Proof.Proofs
end

section
/-! Proofs about STATUS and the interrupt output (10_state.md R36, 60_exceptions.md R412). -/

namespace Sys2Proof.Proofs
open Sys2Proof.Machine Sys2Proof.Claims

theorem frBusy_eq_false_iff (s : State) : s.frBusy = false ↔ s.fr = .idle :=
  decide_eq_false_iff_not.trans not_not

theorem feBusy_eq_false_iff (s : State) : s.feBusy = false ↔ s.fe = .idle :=
  decide_eq_false_iff_not.trans not_not

theorem errBit_eq_true_iff (s : State) : s.errBit = true ↔ s.err ≠ none :=
  Option.isSome_iff_ne_none

/-- The sources of the interrupt output are an idle FR, an idle FE and a recorded error, each behind its bit of IRQ_EN. -/
theorem irq_eq_true_iff (s : State) :
    s.irq = true ↔
      (s.irqEn.getLsbD 0 = true ∧ s.fr = .idle) ∨ (s.irqEn.getLsbD 1 = true ∧ s.fe = .idle) ∨
        (s.irqEn.getLsbD 2 = true ∧ s.err ≠ none) := by
  rw [← frBusy_eq_false_iff, ← feBusy_eq_false_iff, ← errBit_eq_true_iff]
  simp only [State.irq, Bool.or_eq_true, Bool.and_eq_true, Bool.not_eq_true', or_assoc]

/-- IRQ stands above the six other bits of STATUS. -/
theorem statusWord_getLsbD_six (s : State) : s.statusWord.getLsbD 6 = s.irq := by
  simp only [State.statusWord, BitVec.getLsbD_setWidth, BitVec.getLsbD_append]
  simp

/-- Settles O47: bit 6 of STATUS is the interrupt output, and that is the disjunction of its enabled sources. -/
theorem interruptIsALevelOfThreeSources : Obligations.InterruptIsALevelOfThreeSources :=
  fun s => ⟨statusWord_getLsbD_six s, irq_eq_true_iff s⟩

end Sys2Proof.Proofs
end

section
/-! Proofs about the encoding (30_encoding.md R140, R141, R145, R148): the decoder inverts the encoder, and the rows of the
opcode map are the words it reads. -/

namespace Sys2Proof.Proofs
open Sys2Proof.Machine Sys2Proof.Claims

/-- The low `k` bits of a 24-bit field. -/
theorem and_lowMask (arg : BitVec 24) {k : Nat} (hk : k ≤ 24) :
    arg &&& BitVec.ofNat 24 (2 ^ k - 1) = (arg.extractLsb' 0 k).setWidth 24 := by
  have hpow : 2 ^ k ≤ 2 ^ 24 := Nat.pow_le_pow_right (by decide) hk
  have hpos : 0 < 2 ^ k := Nat.two_pow_pos k
  apply BitVec.eq_of_toNat_eq
  rw [BitVec.toNat_and, BitVec.toNat_ofNat, Nat.mod_eq_of_lt (by omega), Nat.and_two_pow_sub_one_eq_mod,
    BitVec.toNat_setWidth, BitVec.extractLsb'_toNat, Nat.shiftRight_zero, Nat.mod_eq_of_lt (a := _ % _)]
  exact lt_of_lt_of_le (Nat.mod_lt _ hpos) hpow

/-- With the reserved bits above bit `k` all 0, ARG is its operand of `k` bits. -/
theorem arg_eq_operand {arg : BitVec 24} (k : Nat) (hk : k ≤ 24)
    (h : arg &&& ~~~ BitVec.ofNat 24 (2 ^ k - 1) = 0) : arg = (arg.extractLsb' 0 k).setWidth 24 := by
  rw [← and_lowMask arg hk]
  calc arg = arg &&& (~~~ BitVec.ofNat 24 (2 ^ k - 1) ||| BitVec.ofNat 24 (2 ^ k - 1)) := by
        rw [BitVec.or_comm, BitVec.or_not_self, BitVec.and_allOnes]
    _ = arg &&& BitVec.ofNat 24 (2 ^ k - 1) := by rw [BitVec.and_or_distrib_left, h]; exact BitVec.zero_or

theorem arg_eq_zero {arg : BitVec 24} (h : arg &&& 0xFFFFFF = 0) : arg = 0 :=
  BitVec.and_allOnes.symm.trans h

theorem arg_eq_modeOperand {arg : BitVec 24} (h : arg &&& 0xFFFFFE = 0) :
    arg = (Instr.sessionReset (modeOperand arg)).arg := by
  have hbit : ∀ b : BitVec 1, b.setWidth 24 = if (b.setWidth 24 : BitVec 24).getLsbD 0 then 1 else 0 := by decide
  have harg := arg_eq_operand 1 (by decide) h
  have hval : arg = if arg.getLsbD 0 then 1 else 0 := by
    have := hbit (arg.extractLsb' 0 1)
    rwa [← harg] at this
  rw [modeOperand]
  split <;> rename_i hm
  · rwa [if_pos hm] at hval
  · rwa [if_neg hm] at hval

/-- A word on CMD is the opcode of its instruction followed by the operand (R140). -/
theorem encode_eq_append {i : Instr} (h : i.port = .cmd) : encode i = i.opcode ++ i.arg := by
  cases i with
  | adpRead n => cases h
  | _ => rfl

/-- The opcodes of the table: the three with an operand, and the others (R141). -/
theorem opcode_listed {opc : BitVec 8} {mask : BitVec 24} (h : reservedMask opc = some mask) :
    opc = 0x01 ∨ opc = 0x11 ∨ opc = 0x41 ∨
      opc ∈ [0x00, 0x10, 0x20, 0x21, 0x22, 0x23, 0x30, 0x31, 0x32, 0x33, (0x40 : BitVec 8)] := by
  by_contra hn
  simp only [List.mem_cons, List.not_mem_nil, or_false, not_or] at hn
  simp only [reservedMask, hn, if_false, reduceCtorEq] at h

/-- A listed opcode with no reserved bit set is the opcode and operand of one command, which the decoder answers unless
it is FE_APPLY with f = 5, 6 or 7. -/
theorem decodeListed_cases {opc : BitVec 8} {arg mask : BitVec 24} (hmask : reservedMask opc = some mask)
    (hbits : arg &&& mask = 0) : ∃ i : Instr, i.port = .cmd ∧ i.opcode = opc ∧ i.arg = arg ∧
      (i.wellFormed = true ∧ decodeListed opc arg = .instr i ∨
        ∃ f, i = .feApply f ∧ 4 < f.toNat ∧ decodeListed opc arg = .reject (.illegalFilter f)) := by
  rcases opcode_listed hmask with rfl | rfl | rfl | hopc
  · obtain rfl := Option.some.inj hmask
    exact ⟨.sessionReset (modeOperand arg), rfl, rfl, (arg_eq_modeOperand hbits).symm, .inl ⟨rfl, rfl⟩⟩
  · obtain rfl := Option.some.inj hmask
    exact ⟨.crcByte (byteOperand arg), rfl, rfl, (arg_eq_operand 8 (by decide) hbits).symm, .inl ⟨rfl, rfl⟩⟩
  · obtain rfl := Option.some.inj hmask
    refine ⟨.feApply (filterOperand arg), rfl, rfl, (arg_eq_operand 3 (by decide) hbits).symm, ?_⟩
    rcases Nat.lt_or_ge 4 (filterOperand arg).toNat with hf | hf
    · exact .inr ⟨_, rfl, hf, decodeListed_feApply_of_lt hf⟩
    · exact .inl ⟨decide_eq_true hf, if_pos hf⟩
  · simp only [List.mem_cons, List.not_mem_nil, or_false] at hopc
    rcases hopc with rfl | rfl | rfl | rfl | rfl | rfl | rfl | rfl | rfl | rfl | rfl <;>
      obtain rfl := Option.some.inj hmask <;>
      obtain rfl := arg_eq_zero hbits <;>
      refine ⟨_, ?_, ?_, ?_, .inl ⟨?_, rfl⟩⟩ <;>
      rfl

/-- What the decoder can answer to a word of CMD: the instruction it encodes, or why there is none. -/
inductive DecodesTo (w : Word) : Decoded → Prop where
  | instr (i : Instr) (hwf : i.wellFormed = true) (hport : i.port = .cmd) (henc : encode i = w) : DecodesTo w (.instr i)
  | illegalFilter (f : BitVec 3) (hf : 4 < f.toNat) (henc : encode (.feApply f) = w) :
      DecodesTo w (.reject (.illegalFilter f))
  | noRow (why : Reject) (hnone : ∀ mask, reservedMask (opcOf w) = some mask → argOf w &&& mask ≠ 0) :
      DecodesTo w (.reject why)

theorem decodeCmd_decodesTo (w : Word) : DecodesTo w (decodeCmd w) := by
  cases hmask : reservedMask (opcOf w) with
  | none =>
    have hdec : decodeCmd w = .reject (.unknownOpcode (opcOf w)) := by rw [decodeCmd, hmask]
    exact hdec ▸ .noRow _ fun mask h => by simp [hmask] at h
  | some mask =>
    by_cases hbits : argOf w &&& mask = 0
    · obtain ⟨i, hport, hopc, harg, hanswer⟩ := decodeListed_cases hmask hbits
      have henc : encode i = w := by rw [encode_eq_append hport, hopc, harg, opcOf_append_argOf]
      have hdec : decodeCmd w = decodeListed (opcOf w) (argOf w) := by simp only [decodeCmd, hmask, if_pos hbits]
      rw [hdec]
      rcases hanswer with ⟨hwf, hlisted⟩ | ⟨f, rfl, hf, hlisted⟩
      · exact hlisted ▸ .instr i hwf hport henc
      · exact hlisted ▸ .illegalFilter f hf henc
    · have hdec : decodeCmd w = .reject (.reservedBits (opcOf w) (argOf w &&& mask)) := by
        simp only [decodeCmd, hmask, if_neg hbits]
      exact hdec ▸ .noRow _ fun mask' hmask' => Option.some.inj (hmask.symm.trans hmask') ▸ hbits

theorem decodeCmd_eq_instr {w : Word} {i : Instr} (h : decodeCmd w = .instr i) :
    i.wellFormed = true ∧ i.port = .cmd ∧ encode i = w := by
  cases h ▸ decodeCmd_decodesTo w with
  | instr i hwf hport henc => exact ⟨hwf, hport, henc⟩

theorem extractLsb'_setWidth_self {k : Nat} (hk : k ≤ 24) (b : BitVec k) : (b.setWidth 24).extractLsb' 0 k = b := by
  ext j hj
  simp [hj, show j < 24 by omega]

/-- An operand of `k` bits has no bit in the reserved part of ARG. -/
theorem operand_and_reserved {k : Nat} (hk : k ≤ 24) (b : BitVec k) :
    b.setWidth 24 &&& ~~~ BitVec.ofNat 24 (2 ^ k - 1) = 0 := by
  have hlow := and_lowMask (b.setWidth 24) hk
  rw [extractLsb'_setWidth_self hk] at hlow
  rw [← hlow, BitVec.and_assoc, BitVec.and_not_self]
  exact BitVec.and_zero

/-- The opcode of a command is listed, and its operand has no reserved bit set (R141). -/
theorem arg_and_reservedMask {i : Instr} (hport : i.port = .cmd) :
    ∃ mask, reservedMask i.opcode = some mask ∧ i.arg &&& mask = 0 := by
  cases i with
  | sessionReset m => exact ⟨_, rfl, by cases m <;> decide⟩
  | crcByte b => exact ⟨_, rfl, operand_and_reserved (k := 8) (by decide) b⟩
  | feApply f => exact ⟨_, rfl, operand_and_reserved (k := 3) (by decide) f⟩
  | adpRead n => cases hport
  | _ => exact ⟨_, rfl, by decide⟩

theorem opcOf_encode {i : Instr} (hport : i.port = .cmd) : opcOf (encode i) = i.opcode := by
  rw [encode_eq_append hport, opcOf, BitVec.extractLsb'_append_eq_of_le (by decide)]
  exact BitVec.extractLsb'_eq_self

theorem argOf_encode {i : Instr} (hport : i.port = .cmd) : argOf (encode i) = i.arg := by
  rw [encode_eq_append hport, argOf, BitVec.extractLsb'_append_eq_of_add_le (by decide)]
  exact BitVec.extractLsb'_eq_self

theorem decodeCmd_encode {i : Instr} (hwf : i.wellFormed = true) (hport : i.port = .cmd) :
    decodeCmd (encode i) = .instr i := by
  obtain ⟨mask, hmask, hbits⟩ := arg_and_reservedMask hport
  have hlisted : decodeCmd (encode i) = decodeListed i.opcode i.arg := by
    simp only [decodeCmd, opcOf_encode hport, argOf_encode hport, hmask, if_pos hbits]
  rw [hlisted]
  cases i with
  | sessionReset m => cases m <;> rfl
  | crcByte b => exact congrArg (Decoded.instr ∘ Instr.crcByte) (extractLsb'_setWidth_self (by decide) b)
  | feApply f =>
    have hf : filterOperand (Instr.feApply f).arg = f := extractLsb'_setWidth_self (by decide) f
    have hle : (filterOperand (Instr.feApply f).arg).toNat ≤ 4 := hf.symm ▸ of_decide_eq_true hwf
    exact (if_pos hle).trans (congrArg (Decoded.instr ∘ Instr.feApply) hf)
  | adpRead n => cases hport
  | _ => rfl

theorem decodeCmd_eq_instr_iff {w : Word} {i : Instr} :
    decodeCmd w = .instr i ↔ i.wellFormed = true ∧ i.port = .cmd ∧ encode i = w := by
  refine ⟨decodeCmd_eq_instr, ?_⟩
  rintro ⟨hwf, hport, rfl⟩
  exact decodeCmd_encode hwf hport

/-- Settles O2: on CMD by the inversion of the decoder's two tables, on ADP because every word is the request it is. -/
theorem decodeInvertsEncode : Obligations.DecodeInvertsEncode := by
  intro p w i
  cases p with
  | cmd => exact decodeCmd_eq_instr_iff
  | adp =>
    constructor
    · intro h
      obtain rfl := Decoded.instr.inj h
      exact ⟨rfl, rfl, rfl⟩
    · rintro ⟨-, hport, henc⟩
      cases i with
      | adpRead n => exact congrArg (Decoded.instr ∘ Instr.adpRead) henc.symm
      | _ => cases hport

/-! ### The rows of the opcode map -/

/-- Every CMD row of the map: its opcode is listed, no bit of its opcode is free, its operand bits are 0 in the base, and
its mask of ARG is the opcode's reserved bits. -/
theorem opcodeRows_reservedMask : ∀ r ∈ opcodeRows, r.port = .cmd →
    opcOf r.mask = 0xFF ∧ argOf r.base = 0 ∧ reservedMask (opcOf r.base) = some (argOf r.mask) := by
  decide

/-- A word selects the row of its opcode, when it has no bit of the row's mask of ARG (R148). -/
theorem selectsRow_iff {w : Word} {r : OpcodeRow} (hr : r ∈ opcodeRows) : selectsRow .cmd w r = true ↔
    r.port = .cmd ∧ opcOf w = opcOf r.base ∧ argOf w &&& argOf r.mask = 0 := by
  rw [selectsRow, Bool.and_eq_true, decide_eq_true_iff, decide_eq_true_iff]
  refine and_congr_right fun hport => ?_
  obtain ⟨hopcMask, hargBase, -⟩ := opcodeRows_reservedMask r hr hport
  have hopc : opcOf (w &&& r.mask) = opcOf w := by
    rw [opcOf, BitVec.extractLsb'_and, ← opcOf, ← opcOf, hopcMask]
    exact BitVec.and_allOnes
  have harg : argOf (w &&& r.mask) = argOf w &&& argOf r.mask := BitVec.extractLsb'_and
  constructor
  · intro hsel
    rw [← hopc, ← harg, hsel]
    exact ⟨rfl, hargBase⟩
  · rintro ⟨hopcBase, hargMask⟩
    rw [← opcOf_append_argOf (w &&& r.mask), hopc, harg, hopcBase, hargMask, ← hargBase, opcOf_append_argOf]

/-- The word of a command selects exactly one row, the one of its mnemonic. -/
theorem selectedRows_encode {i : Instr} (hport : i.port = .cmd) :
    ∃ r, opcodeRows.filter (selectsRow .cmd (encode i)) = [r] ∧ r.mnemonic = i.mnemonic := by
  have hrows : opcodeRows.filter (selectsRow .cmd (encode i)) =
      opcodeRows.filter (fun r => decide (r.port = .cmd ∧ i.opcode = opcOf r.base)) := by
    refine List.filter_congr fun r hr => ?_
    rw [Bool.eq_iff_iff, selectsRow_iff hr, opcOf_encode hport, argOf_encode hport, decide_eq_true_iff]
    refine ⟨fun h => ⟨h.1, h.2.1⟩, fun ⟨hcmd, hopc⟩ => ⟨hcmd, hopc, ?_⟩⟩
    obtain ⟨mask, hmask, hbits⟩ := arg_and_reservedMask hport
    obtain ⟨-, -, hrowMask⟩ := opcodeRows_reservedMask r hr hcmd
    rw [hopc, hrowMask] at hmask
    rw [Option.some.inj hmask, hbits]
  rw [hrows]
  cases i with
  | adpRead n => cases hport
  | _ => exact ⟨_, rfl, rfl⟩

/-- Settles O3: a decoded word is the word of its instruction, which selects one row; a word rejected for its opcode or
for a reserved bit meets no row's mask. -/
theorem mapRowsAreDisjointAndComplete : Obligations.MapRowsAreDisjointAndComplete := by
  refine ⟨fun w i h => ?decoded, fun w why h => ?rejected⟩
  case decoded =>
    obtain ⟨-, hport, rfl⟩ := decodeCmd_eq_instr h
    exact selectedRows_encode hport
  case rejected =>
    cases h ▸ decodeCmd_decodesTo w with
    | illegalFilter f hf henc =>
      subst henc
      have hoperand : (encode (.feApply f)).extractLsb' 0 3 = f :=
        (filterOperand_argOf _).symm.trans (argOf_encode (i := .feApply f) rfl ▸ extractLsb'_setWidth_self (by decide) f)
      exact .inr ⟨selectedRows_encode rfl, hoperand.symm ▸ hf⟩
    | noRow why hnone =>
      refine .inl (List.filter_eq_nil_iff.mpr fun r hr hsel => ?_)
      obtain ⟨hport, hopc, hbits⟩ := (selectsRow_iff hr).mp hsel
      exact hnone _ (hopc ▸ (opcodeRows_reservedMask r hr hport).2.2) hbits

end Sys2Proof.Proofs
end

section
/-! Proofs about the bytes of a bank (10_state.md R57) as rows: what a read of a whole row gives after a write of one. -/

namespace Sys2Proof.Proofs
open Sys2Proof.Machine Sys2Proof.Claims

@[simp] theorem readBytes_length (m : Memory) (sel : Bool) (i n : Nat) : (m.readBytes sel i n).length = n := by
  simp [Memory.readBytes]

theorem readBytes_congr {m m' : Memory} {sel sel' : Bool} {i n : Nat}
    (h : ∀ j, i ≤ j → j < i + n → m'.readByte sel' j = m.readByte sel j) :
    m'.readBytes sel' i n = m.readBytes sel i n :=
  List.map_congr_left fun j hj => h (i + j) (by omega) (by have := List.mem_range.mp hj; omega)

/-- The row just written is the row read. -/
theorem readBytes_writeBytes_same (m : Memory) (sel : Bool) (i : Nat) (d : List Byte) :
    (m.writeBytes sel i d).readBytes sel i d.length = d := by
  refine List.ext_getElem (by simp) fun k _ hk => ?_
  simpa [Memory.readBytes] using Memory.readByte_writeBytes_inside d m sel i k hk

/-- A row in the other bank is as before. -/
theorem readBytes_writeBytes_other (m : Memory) (sel : Bool) (i j n : Nat) (d : List Byte) :
    (m.writeBytes sel i d).readBytes (!sel) j n = m.readBytes (!sel) j n :=
  readBytes_congr fun _ _ _ => Memory.readByte_writeBytes_outside _ _ _ _ _ _ (.inl (by simp))

/-- Settles O42: the acceptance zeroes bytes 0 to 4·w of both banks, `1 + 4·w` bytes. -/
theorem acceptedHeaderZeroesBothBanks : Obligations.AcceptedHeaderZeroesBothBanks := by
  intro s w sel i
  rw [show (rowsAccepted s w).mem = s.mem.zeroBoth (1 + 4 * w.toNat) from rfl, Memory.readByte_zeroBoth]
  simp only [Nat.lt_one_add_iff]

/-! ### The row-buffer port (20_memory.md R111) -/

theorem viewBank_eq_ite (s : State) (v : View) : s.viewBank v = if v = .cur then s.bufSel else !s.bufSel := by
  cases v <;> rfl

theorem feBusy_eq_true {s : State} (h : s.fe ≠ .idle) : s.feBusy = true := decide_eq_true h

/-- Settles O41: the index decides first, then FE's record, on both accesses. -/
theorem rowPortFollowsItsRules : Obligations.RowPortFollowsItsRules := by
  intro s v i b
  refine ⟨fun hbeyond => ?beyond, fun hin hbusy => ?busy, fun hin hidle sel hsel => ?idle⟩
  case beyond =>
    have hbeyond : s.params.rowbufBytes ≤ i.toNat := hbeyond
    simp [perform, rowRead, rowWrite, State.rowValue, State.emit, hbeyond]
  case busy =>
    have hin : ¬ s.params.rowbufBytes ≤ i.toNat := not_le.mpr hin
    have hbusy := feBusy_eq_true hbusy
    refine ⟨⟨Config.busyRowByte s.draws, s.draws + 1, ?_⟩, ?_⟩
    · simp [perform, rowRead, State.rowValue, State.emit, hin, hbusy]
    · simp [perform, rowWrite, busyWriteInfo, hin, hbusy]
  case idle =>
    have hin : ¬ s.params.rowbufBytes ≤ i.toNat := not_le.mpr hin
    have hidle := (feBusy_eq_false_iff s).mpr hidle
    rw [← viewBank_eq_ite] at hsel
    subst hsel
    refine ⟨by simp [perform, rowRead, State.rowValue, State.emit, hin, hidle],
      { s with mem := s.mem.writeByte (s.viewBank v) i.toNat b }, by simp [perform, rowWrite, hin, hidle], rfl, ?_, ?_⟩
    · simp [Memory.readByte_writeByte]
    · intro sel' j hother
      have hne : ¬ (sel' = s.viewBank v ∧ j = i.toNat) := fun h => hother.elim (· h.1) (· h.2)
      exact (Memory.readByte_writeByte ..).trans (if_neg hne)

end Sys2Proof.Proofs
end

section
/-! Proofs about FE_RECON (43_filter.md R310): where its segment over ZIN ends, the row it delivers, and its errors. -/

namespace Sys2Proof.Proofs
open Sys2Proof.Machine Sys2Proof.Claims

/-! ### The end of a row -/

theorem reconRow_of_tag {n : Nat} {s : State} {f : Filter} (hf : filterOfTag (s.mem.readByte s.bufSel 0) = some f) :
    reconRow n s = { s with
      mem := s.mem.writeBytes s.bufSel 1
        (recon f (s.mem.readBytes s.bufSel 1 (n - 1)) (s.mem.readBytes (!s.bufSel) 1 (n - 1)))
      bufSel := !s.bufSel, rowY := s.rowY + 1, feResult := 0, fe := .idle } := by
  have hf : filterOfTag (s.curByte 0) = some f := hf
  rw [reconRow, hf]
  rfl

theorem reconRow_of_badTag {n : Nat} {s : State} (hf : filterOfTag (s.mem.readByte s.bufSel 0) = none) :
    reconRow n s = raise .badFilterType ((s.mem.readByte s.bufSel 0).setWidth 32) s := by
  have hf : filterOfTag (s.curByte 0) = none := hf
  rw [reconRow, hf]
  rfl

/-! ### A segment over ZIN -/

/-- The segment of FE with `k` of `n` row bytes read, `s` before it and `t` after it: the bytes `d` that the row lacked
were there, or ZIN ran dry. -/
def RowSegment (n k : Nat) (s t : State) : Prop :=
  (∃ d rest, s.zin.q = d ++ rest ∧ k + d.length = max n k ∧
    t = reconRow n { s with zin := { s.zin with q := rest }, mem := s.mem.writeBytes s.bufSel k d }) ∨
  (k + s.zin.q.length < n ∧ t = if s.zin.eos then
      raise .notEnoughPixelData (rowCountInfo (k + s.zin.q.length))
        { s with zin := { s.zin with q := [] }, mem := s.mem.writeBytes s.bufSel k s.zin.q }
    else { s with
      zin := { s.zin with q := [] }, mem := s.mem.writeBytes s.bufSel k s.zin.q
      fe := .row n (k + s.zin.q.length) })

theorem rowLoop_of_le {n k : Nat} (h : n ≤ k) (q : List Byte) (s : State) : rowLoop q n k s = reconRow n s := by
  cases q <;> rw [rowLoop, if_pos h]

/-- Every segment of FE ends in one of these ways. -/
theorem rowLoop_segment (n k : Nat) (s : State) : RowSegment n k s (rowLoop s.zin.q n k s) := by
  rcases Nat.lt_or_ge (k + s.zin.q.length) n with hshort | henough
  · exact .inr ⟨hshort, rowLoop_short _ n k s rfl hshort⟩
  rcases Nat.le_total n k with hle | hlt
  · exact .inl ⟨[], s.zin.q, rfl, by simp [hle], rowLoop_of_le hle _ s⟩
  · have hsplit : s.zin.q = s.zin.q.take (n - k) ++ s.zin.q.drop (n - k) := (List.take_append_drop ..).symm
    have hlen : k + (s.zin.q.take (n - k)).length = n := by rw [List.length_take]; omega
    refine .inl ⟨_, _, hsplit, by rw [hlen, Nat.max_eq_left hlt], ?_⟩
    conv_lhs => rw [hsplit]
    exact rowLoop_enough _ _ n k s hsplit hlen

/-- A row whose missing bytes `data` are there is delivered, or refused for its tag (R310). -/
theorem rowLoop_delivers {s : State} {n k : Nat} {data rest : List Byte} {m : Memory} (hq : s.zin.q = data ++ rest)
    (hlen : k + data.length = n) (hm : m = s.mem.writeBytes s.bufSel k data) :
    (∀ f, filterOfTag (m.readByte s.bufSel 0) = some f → rowLoop s.zin.q n k s = { s with
      zin := { s.zin with q := rest }
      mem := m.writeBytes s.bufSel 1
        (recon f (m.readBytes s.bufSel 1 (n - 1)) (m.readBytes (!s.bufSel) 1 (n - 1)))
      bufSel := !s.bufSel, rowY := s.rowY + 1, feResult := 0, fe := .idle }) ∧
    (filterOfTag (m.readByte s.bufSel 0) = none → rowLoop s.zin.q n k s =
      raise .badFilterType ((m.readByte s.bufSel 0).setWidth 32)
        { s with zin := { s.zin with q := rest }, mem := m }) := by
  subst hm
  rw [hq, rowLoop_enough data rest n k s hq hlen]
  exact ⟨fun f hf => reconRow_of_tag hf, fun hf => reconRow_of_badTag hf⟩

theorem rowCountInfo_of_lt {k : Nat} (h : k < 2 ^ 32) : rowCountInfo k = BitVec.ofNat 32 k := if_pos h

/-! ### The command -/

theorem decodeCmd_feReconWord : decodeCmd 0x40000000 = .instr .feRecon := by decide

section
variable {s : State}

theorem exec_feRecon_badState (h : s.mode ≠ .decode ∨ s.dstage = .start ∨ s.dstage = .seenHeader) :
    exec .feRecon s = .next (raise .badState 0x40 s) :=
  congrArg Host.Outcome.next (if_pos (by rcases h with h | h | h <;> simp [h]))

theorem exec_feRecon_endOfRows (hmode : s.mode = .decode) (hstage : s.dstage = .seenData ∨ s.dstage = .seenEnd)
    (hrow : s.height.toNat ≤ s.rowY.toNat) :
    exec .feRecon s = .next { s with eor := true, feResult := 1, fe := .idle } :=
  congrArg Host.Outcome.next ((if_neg (by simp [hmode, hstage])).trans (if_pos hrow))

theorem exec_feRecon_closed (hmode : s.mode = .decode) (hstage : s.dstage = .seenEnd)
    (hrow : s.rowY.toNat < s.height.toNat) : exec .feRecon s = .next (raise .badState 0x40 s) :=
  congrArg Host.Outcome.next ((if_neg (by simp [hmode, hstage])).trans ((if_neg (not_le.mpr hrow)).trans (if_pos hstage)))

theorem exec_feRecon_row (hmode : s.mode = .decode) (hstage : s.dstage = .seenData)
    (hrow : s.rowY.toNat < s.height.toNat) : exec .feRecon s = .next (rowLoop s.zin.q s.rowSize.toNat 0 s) :=
  congrArg Host.Outcome.next ((if_neg (by simp [hmode, hstage])).trans
    ((if_neg (not_le.mpr hrow)).trans (if_neg (by simp [hstage]))))

end

/-- FE_RECON on a row whose bytes are all in ZIN, in terms of the row: the tag and the reconstructed data stand in the
bank that was CUR, every other byte is as before (R310). -/
theorem exec_feRecon_delivers {s : State} {tag : Byte} {data rest : List Byte} {f : Filter} (hmode : s.mode = .decode)
    (hstage : s.dstage = .seenData) (hrow : s.rowY.toNat < s.height.toNat) (hq : s.zin.q = tag :: data ++ rest)
    (hlen : 1 + data.length = s.rowSize.toNat) (hf : filterOfTag tag = some f) :
    ∃ t, exec .feRecon s = .next t ∧
      t = { s with
        zin := { s.zin with q := rest }, mem := t.mem, bufSel := !s.bufSel, rowY := s.rowY + 1
        feResult := 0, fe := .idle } ∧
      t.mem.readByte s.bufSel 0 = tag ∧
      t.mem.readBytes s.bufSel 1 data.length = recon f data (s.mem.readBytes (!s.bufSel) 1 data.length) ∧
      ∀ sel j, sel ≠ s.bufSel ∨ s.rowSize.toNat ≤ j → t.mem.readByte sel j = s.mem.readByte sel j := by
  have hn : s.rowSize.toNat - 1 = data.length := by omega
  have htag : (s.mem.writeBytes s.bufSel 0 (tag :: data)).readByte s.bufSel 0 = tag :=
    Memory.readByte_writeBytes_inside (tag :: data) s.mem s.bufSel 0 0 (Nat.succ_pos _)
  have hdata : (s.mem.writeBytes s.bufSel 0 (tag :: data)).readBytes s.bufSel 1 data.length = data :=
    readBytes_writeBytes_same (s.mem.writeByte s.bufSel 0 tag) s.bufSel 1 data
  have hrun := (rowLoop_delivers hq (k := 0) (n := s.rowSize.toNat) (by simp; omega) rfl).1 f (htag.symm ▸ hf)
  rw [hn, hdata, readBytes_writeBytes_other] at hrun
  refine ⟨_, (exec_feRecon_row hmode hstage hrow).trans (congrArg Host.Outcome.next hrun), rfl, ?_, ?_, ?_⟩
  · exact (Memory.readByte_writeBytes_outside _ _ _ _ _ _ (.inr (.inl Nat.one_pos))).trans htag
  · have hkeep := readBytes_writeBytes_same (s.mem.writeBytes s.bufSel 0 (tag :: data)) s.bufSel 1
      (recon f data (s.mem.readBytes (!s.bufSel) 1 data.length))
    rwa [recon_length] at hkeep
  · intro sel j hother
    have hbeyond : sel ≠ s.bufSel ∨ j < 0 ∨ 0 + (tag :: data).length ≤ j := by
      simp only [List.length_cons]
      rcases hother with h | h
      · exact .inl h
      · omega
    have hbeyond' : sel ≠ s.bufSel ∨ j < 1 ∨
        1 + (recon f data (s.mem.readBytes (!s.bufSel) 1 data.length)).length ≤ j := by
      rw [recon_length]
      rcases hother with h | h
      · exact .inl h
      · omega
    exact (Memory.readByte_writeBytes_outside _ _ _ _ _ _ hbeyond').trans
      (Memory.readByte_writeBytes_outside _ _ _ _ _ _ hbeyond)

theorem exec_feRecon_badTag {s : State} {tag : Byte} {data rest : List Byte} (hmode : s.mode = .decode)
    (hstage : s.dstage = .seenData) (hrow : s.rowY.toNat < s.height.toNat) (hq : s.zin.q = tag :: data ++ rest)
    (hlen : 1 + data.length = s.rowSize.toNat) (hf : filterOfTag tag = none) :
    exec .feRecon s = .next (raise .badFilterType (tag.setWidth 32) { s with
      zin := { s.zin with q := rest }, mem := s.mem.writeBytes s.bufSel 0 (tag :: data) }) := by
  have htag : (s.mem.writeBytes s.bufSel 0 (tag :: data)).readByte s.bufSel 0 = tag :=
    Memory.readByte_writeBytes_inside (tag :: data) s.mem s.bufSel 0 0 (Nat.succ_pos _)
  have hrun := (rowLoop_delivers hq (k := 0) (n := s.rowSize.toNat) (by simp; omega) rfl).2 (htag.symm ▸ hf)
  rw [htag] at hrun
  exact (exec_feRecon_row hmode hstage hrow).trans (congrArg Host.Outcome.next hrun)

theorem exec_feRecon_short {s : State} (hmode : s.mode = .decode) (hstage : s.dstage = .seenData)
    (hrow : s.rowY.toNat < s.height.toNat) (hshort : s.zin.q.length < s.rowSize.toNat) :
    exec .feRecon s = .next (if s.zin.eos then
        raise .notEnoughPixelData (rowCountInfo s.zin.q.length)
          { s with zin := { s.zin with q := [] }, mem := s.mem.writeBytes s.bufSel 0 s.zin.q }
      else { s with
        zin := { s.zin with q := [] }, mem := s.mem.writeBytes s.bufSel 0 s.zin.q
        fe := .row s.rowSize.toNat s.zin.q.length }) := by
  rw [exec_feRecon_row hmode hstage hrow, rowLoop_short _ _ 0 s rfl (by omega), Nat.zero_add]

/-- Settles O37: the state check and the row counter first, then what ZIN holds of the row. -/
theorem feReconDeliversARow : Obligations.FeReconDeliversARow := by
  refine ⟨feGate_of_decodeCmd decodeCmd_feReconWord target_feRecon, fun s =>
    ⟨exec_feRecon_badState, exec_feRecon_endOfRows, exec_feRecon_closed, fun hmode hstage hrow => ?_⟩⟩
  refine ⟨fun tag data rest hq hlen => ⟨fun f => exec_feRecon_delivers hmode hstage hrow hq hlen,
    exec_feRecon_badTag hmode hstage hrow hq hlen⟩, fun hshort heos hfits => ?count, fun hshort heos => ?ended,
    fun hshort hopen => ?hold⟩
  case count =>
    rw [exec_feRecon_short hmode hstage hrow hshort, if_pos heos, rowCountInfo_of_lt hfits]
  case ended =>
    refine ⟨_, (exec_feRecon_short hmode hstage hrow hshort).trans (congrArg _ (if_pos heos)), fun herr => ?_, rfl⟩
    simp [herr]
  case hold =>
    rw [exec_feRecon_short hmode hstage hrow hshort, if_neg (Bool.eq_false_iff.mp hopen)]

/-! ### A row there and back -/

theorem filterOfTag_of_le {f : BitVec 3} (h : f.toNat ≤ 4) : ∃ flt, filterOfTag (f.setWidth 8) = some flt := by
  have hsome : (filterOfTag (f.setWidth 8)).isSome = true := by
    revert f
    decide
  exact Option.isSome_iff_exists.mp hsome

/-- Settles O40: FE_APPLY appends the tag and Apply of the row, which FE_RECON reads as a row of that tag, and Recon over
the same row above inverts Apply. -/
theorem filteredRowDecodesToTheOriginal : Obligations.FilteredRowDecodesToTheOriginal := by
  intro e e2 d f rest hf hemode hestage herow hsize happly hdmode hdstage hdrow hrowSize hup hrow
  obtain ⟨flt, hflt⟩ := filterOfTag_of_le hf
  obtain ⟨row, hzout, hzin⟩ := hrow
  have he2 := ((feApplyFiltersARow.2.2 e f flt hflt).2 hemode hestage herow).symm.trans happly
  obtain rfl := Host.Outcome.next.inj he2
  obtain rfl := List.append_cancel_left hzout
  have hlen : (e.mem.readBytes e.bufSel 1 (e.rowSize.toNat - 1)).length = e.rowSize.toNat - 1 := readBytes_length ..
  obtain ⟨t, hexec, ht, htag, hdata, -⟩ := exec_feRecon_delivers hdmode hdstage hdrow hzin
    (by rw [applyFilter_length, hlen, hrowSize]; omega) hflt
  rw [applyFilter_length, hlen, hup, recon_applyFilter] at hdata
  refine ⟨t, hexec, ?_⟩
  rw [ht]
  simpa using ⟨htag, hdata⟩

end Sys2Proof.Proofs
end

section
/-! Proofs about bytes that arrive in pieces (20_memory.md R102, R120, R121), for FE_RECON and ZIN. -/

namespace Sys2Proof.Proofs
open Sys2Proof.Machine Sys2Proof.Claims

theorem runEvents_cons {e : Event} {s t : State} (h : perform e s = .next t) (es : List Event) :
    runEvents (e :: es) s = runEvents es t := by
  rw [runEvents, h]

theorem runEvents_singleton (e : Event) (s : State) : runEvents [e] s = perform e s := by
  rw [runEvents]
  cases perform e s <;> rfl

/-- The bytes INF pushes to an open ZIN stand behind those it holds (R104). -/
theorem runEvents_pushZin (d : List Byte) (es : List Event) {s : State} (hopen : s.zin.eos = false) :
    runEvents (d.map Event.pushZin ++ es) s = runEvents es { s with zin := ⟨s.zin.q ++ d, false⟩ } := by
  induction d generalizing s with
  | nil => simp [← hopen]
  | cons b d ih =>
    have hpush : perform (.pushZin b) s = .next { s with zin := ⟨s.zin.q ++ [b], false⟩ } := by
      simp [perform, Fifo.push, hopen]
    rw [List.map_cons, List.cons_append, runEvents_cons hpush, ih rfl]
    simp

/-- INF pushes `d` to an open ZIN and, where `e` is set, ends it; then FE runs. -/
theorem runEvents_zinArrives (d : List Byte) {s : State} (hopen : s.zin.eos = false) :
    runEvents (d.map Event.pushZin ++ [.feRun]) s = feRun { s with zin := ⟨s.zin.q ++ d, false⟩ } ∧
    runEvents (d.map Event.pushZin ++ [.endZin, .feRun]) s = feRun { s with zin := ⟨s.zin.q ++ d, true⟩ } := by
  refine ⟨(runEvents_pushZin d _ hopen).trans (runEvents_singleton _ _), (runEvents_pushZin d _ hopen).trans ?_⟩
  exact (runEvents_cons rfl _).trans (runEvents_singleton _ _)

/-- A segment of FE leaves the end of ZIN alone, and ends with FE idle or holding on a drained ZIN. -/
theorem rowLoop_leaves (n k : Nat) (s : State) :
    (rowLoop s.zin.q n k s).zin.eos = s.zin.eos ∧ ((rowLoop s.zin.q n k s).fe = .idle ∨
      (∃ n' k', (rowLoop s.zin.q n k s).fe = .row n' k') ∧ (rowLoop s.zin.q n k s).zin.q = []) := by
  rcases rowLoop_segment n k s with ⟨d, rest, -, -, ht⟩ | ⟨-, ht⟩
  · rw [ht, reconRow_zin n { s with mem := s.mem.writeBytes s.bufSel k d }]
    exact ⟨rfl, .inl (reconRow_idle ..)⟩
  · rw [ht]
    split
    · exact ⟨rfl, .inl rfl⟩
    · exact ⟨rfl, .inr ⟨⟨_, _, rfl⟩, rfl⟩⟩

/-- FE's segment over ZIN with `d` already there is its segment without `d`, and FE's next step once `d` is there. -/
theorem rowLoop_pieces (d : List Byte) (e : Bool) (n k : Nat) {s t : State} (hopen : s.zin.eos = false)
    (ht : rowLoop s.zin.q n k s = t) :
    t.zin.eos = false ∧
      Host.Outcome.next (rowLoop (s.zin.q ++ d) n k { s with zin := ⟨s.zin.q ++ d, e⟩ }) =
        feRun { t with zin := ⟨t.zin.q ++ d, e⟩ } := by
  obtain ⟨heos, hfe⟩ := rowLoop_leaves n k s
  have hs : { s with zin := ⟨s.zin.q, false⟩ } = s := by rw [← hopen]
  have happ := rowLoop_append s.zin.q d e n k s
  rw [hs, ht] at happ
  rw [ht] at heos hfe
  refine ⟨heos.trans hopen, ?_⟩
  rcases hfe with hidle | ⟨⟨n', k', hrow⟩, hq⟩
  · simp only [hidle] at happ
    rw [happ]
    simp only [feRun, hidle]
  · simp only [hrow] at happ
    rw [happ]
    simp only [feRun, hrow, hq, List.nil_append]

/-- FE_RECON's start does not look at ZIN before its first ReadZinByte. -/
theorem exec_feRecon_cases (s : State) :
    (∃ t : State, t.fe = .idle ∧ t.zin = s.zin ∧ ∀ z, exec .feRecon { s with zin := z } = .next { t with zin := z }) ∨
    (∀ z, exec .feRecon { s with zin := z } = .next (rowLoop z.q s.rowSize.toNat 0 { s with zin := z })) := by
  simp only [exec, execFeRecon, ge_iff_le]
  split_ifs
  · exact .inl ⟨raise .badState 0x40 s, rfl, rfl, fun _ => rfl⟩
  · exact .inl ⟨{ s with eor := true }.feDone 1, rfl, rfl, fun _ => rfl⟩
  · exact .inl ⟨raise .badState 0x40 s, rfl, rfl, fun _ => rfl⟩
  · exact .inr fun _ => rfl

/-- What FE does in one step with all of `d` in ZIN, it does in two with `d` arriving between them. -/
theorem feRun_pieces (d : List Byte) (e : Bool) {s : State} (hopen : s.zin.eos = false)
    (hfe : (∃ n k, s.fe = .row n k) ∨ s.fe = .accepted .feRecon) :
    ∃ t, feRun s = .next t ∧ t.zin.eos = false ∧
      feRun { s with zin := ⟨s.zin.q ++ d, e⟩ } = feRun { t with zin := ⟨t.zin.q ++ d, e⟩ } := by
  rcases hfe with ⟨n, k, hrow⟩ | hacc
  · obtain ⟨heos, hrun⟩ := rowLoop_pieces d e n k hopen rfl
    exact ⟨_, by simp only [feRun, hrow], heos, by rw [← hrun]; simp only [feRun, hrow]⟩
  · have hexec : ∀ z, feRun { s with zin := z } = exec .feRecon { s with zin := z } := fun z => by
      simp only [feRun, hacc]
    rcases exec_feRecon_cases s with ⟨t, hidle, hzin, hrun⟩ | hrun
    · refine ⟨t, (hexec s.zin).trans ((hrun s.zin).trans (by rw [← hzin])), hzin ▸ hopen, ?_⟩
      rw [hexec, hrun, hzin]
      simp only [feRun, hidle]
    · obtain ⟨heos, hpieces⟩ := rowLoop_pieces d e s.rowSize.toNat 0 hopen rfl
      exact ⟨_, (hexec s.zin).trans (hrun s.zin), heos, ((hexec _).trans (hrun _)).trans hpieces⟩

/-- Settles O38: the two schedules by the law of FE's segment over an appended ZIN, the outcomes from a hold by what ZIN
holds of the row. -/
theorem rowMayArriveInPieces : Obligations.RowMayArriveInPieces := by
  refine ⟨fun s d hopen hfe => ⟨?pieces, ?piecesEnded⟩, fun s n k hrow heos hshort hfits => ?lacking,
    fun s n k data rest m hrow hq hlen hm => ?there⟩
  case pieces =>
    obtain ⟨t, ht, htopen, hrun⟩ := feRun_pieces d false hopen hfe
    rw [(runEvents_zinArrives d hopen).1, List.append_assoc, List.singleton_append, runEvents_cons (e := .feRun) ht,
      (runEvents_zinArrives d htopen).1, hrun]
  case piecesEnded =>
    obtain ⟨t, ht, htopen, hrun⟩ := feRun_pieces d true hopen hfe
    rw [(runEvents_zinArrives d hopen).2, List.append_assoc, List.singleton_append, runEvents_cons (e := .feRun) ht,
      (runEvents_zinArrives d htopen).2, hrun]
  case lacking =>
    have hrun : perform .feRun s = .next (rowLoop s.zin.q n k s) := by simp only [perform, feRun, hrow]
    rw [hrun, rowLoop_short _ n k s rfl hshort, if_pos heos, rowCountInfo_of_lt (by omega)]
  case there =>
    have hrun : perform .feRun s = .next (rowLoop s.zin.q n k s) := by simp only [perform, feRun, hrow]
    obtain ⟨hdelivers, hrefuses⟩ := rowLoop_delivers hq hlen hm
    exact ⟨fun f hf => hrun.trans (congrArg _ (hdelivers f hf)), fun hf => hrun.trans (congrArg _ (hrefuses hf))⟩

end Sys2Proof.Proofs
end

section
/-! Proofs about the pieces of FR's pseudocode that several commands share (41_framer_decode.md R201, R202): a checksum
from its four bytes, and a chunk's header from its eight. -/

namespace Sys2Proof.Proofs
open Sys2Proof.Machine Sys2Proof.Claims

theorem withIn_self {s : State} {q : List Byte} (h : s.inp.q = q) : withIn s q = s := by
  rw [withIn, ← h]

/-- A CRC field that agrees lets the command go on (R202). -/
theorem verifyChecksum_right (s : State) (next : Go) : verifyChecksum (be32Bytes s.crcValue) s next = next :=
  if_pos (be32At_be32Bytes _)

theorem verifyChecksum_wrong {c : List Byte} {s : State} (hlen : c.length = 4) (hc : c ≠ be32Bytes s.crcValue)
    (next : Go) : verifyChecksum c s next = goRaise .checksumMismatch (be32At c 0) s :=
  if_neg fun h => hc ((be32At_eq_iff hlen _).mp h)

theorem runGo_goRaise (r : Reason) (info : Word) (s : State) : runGo (goRaise r info s) = raise r info s := rfl

theorem be32At_be32Bytes_append_four (w : Word) (d : List Byte) : be32At (be32Bytes w ++ d) 4 = be32At d 0 := rfl

theorem drop_four_be32Bytes_append (w : Word) (d : List Byte) : (be32Bytes w ++ d).drop 4 = d := rfl

/-- `s` after a chunk's header of length `len` and tag `tag` was taken from IN, `rest` left there (R201). -/
def headRead (s : State) (len : Word) (tag rest : List Byte) : State :=
  { withIn s rest with chunkLen := len, chunkTag := be32At tag 0, crc := crcFeed 0xFFFFFFFF tag }

theorem chunkHeader_eq_headRead (s : State) (len : Word) (tag rest : List Byte) :
    chunkHeader (be32Bytes len ++ tag) (withIn s rest) = headRead s len tag rest := by
  rw [chunkHeader, be32At_be32Bytes_append, be32At_be32Bytes_append_four, drop_four_be32Bytes_append]
  rfl

theorem headRead_tagIhdr (s : State) (len : Word) (rest : List Byte) : headRead s len tagIhdr rest =
    { withIn s rest with chunkLen := len, chunkTag := 0x49484452, crc := 0x575E51F5 } := by
  rw [← crcFeed_tagIhdr]
  rfl

theorem headRead_tagIdat (s : State) (len : Word) (rest : List Byte) : headRead s len tagIdat rest =
    { withIn s rest with chunkLen := len, chunkTag := 0x49444154, crc := 0xCA50F9E1 } := by
  rw [← crcFeed_tagIdat]
  rfl

theorem headRead_tagIend (s : State) (len : Word) (rest : List Byte) : headRead s len tagIend rest =
    { withIn s rest with chunkLen := len, chunkTag := 0x49454E44, crc := 0x51BD9F7D } := by
  rw [← crcFeed_tagIend]
  rfl

/-- Eight bytes of IN are a length and a tag. -/
theorem readIn_chunkHead {s : State} {len : Word} {tag rest : List Byte} (p : FrPoint)
    (hq : s.inp.q = be32Bytes len ++ tag ++ rest) (htag : tag.length = 4) :
    readIn 8 p s = runGo (afterRead p (be32Bytes len ++ tag) (withIn s rest)) :=
  readIn_eq_afterRead p hq (by simp [htag]) (by decide)

end Sys2Proof.Proofs
end

section
/-! Proofs about the chunk scan (41_framer_decode.md R203, R204, R221): from a chunk's header to the chunk's end, inside
FR_STEP and inside FR_OPEN (`o`). -/

namespace Sys2Proof.Proofs
open Sys2Proof.Machine Sys2Proof.Claims

/-! ### The dispatch on the tag -/

theorem tagIdat_ne_tagIhdr : tagIdat ≠ tagIhdr := by decide
theorem tagIend_ne_tagIhdr : tagIend ≠ tagIhdr := by decide
theorem tagIend_ne_tagIdat : tagIend ≠ tagIdat := by decide

section
variable (o : Bool) {h tag : List Byte} {s : State} (htag : h.drop 4 = tag)
include htag

theorem afterHeader_outOfOrder (hcase : (tag = tagIhdr ∧ s.dstage ≠ .start) ∨
    (tag = tagIdat ∧ s.dstage ≠ .seenHeader) ∨ tag = tagIend) :
    afterHeader o h s = goRaise .chunkOrder (be32At tag 0) (chunkHeader h s) := by
  simp only [afterHeader, htag, chunkHeader_dstage]
  rcases hcase with ⟨rfl, hstage⟩ | ⟨rfl, hstage⟩ | rfl
  · rw [if_pos rfl, if_pos hstage]
  · rw [if_neg tagIdat_ne_tagIhdr, if_pos rfl, if_pos hstage]
  · rw [if_neg tagIend_ne_tagIhdr, if_neg tagIend_ne_tagIdat, if_pos rfl]

theorem afterHeader_ihdr (hcase : tag = tagIhdr) (hstage : s.dstage = .start) :
    afterHeader o h s = if be32At h 0 = 13 then .read 13 (.ihdr o) (chunkHeader h s)
      else goRaise .badIhdrLength (be32At h 0) (chunkHeader h s) := by
  simp only [afterHeader, htag, chunkHeader_dstage]
  rw [if_pos hcase, if_neg (not_not.mpr hstage), ite_not]

theorem afterHeader_idat (hcase : tag = tagIdat) (hstage : s.dstage = .seenHeader) :
    afterHeader o h s =
      afterChunk o { chunkHeader h s with idatRemain := be32At h 0, dstage := .seenData, frResult := 2 } := by
  simp only [afterHeader, htag, chunkHeader_dstage]
  rw [if_neg (hcase ▸ tagIdat_ne_tagIhdr), if_pos hcase, if_neg (not_not.mpr hstage)]

theorem afterHeader_other (hihdr : tag ≠ tagIhdr) (hidat : tag ≠ tagIdat) (hiend : tag ≠ tagIend) :
    afterHeader o h s = skipChunk o (be32At h 0) (chunkHeader h s) := by
  simp only [afterHeader, htag]
  rw [if_neg hihdr, if_neg hidat, if_neg hiend]

end

section
variable {o : Bool} {s : State} {len : Word} {tag rest : List Byte} (hq : s.inp.q = be32Bytes len ++ tag ++ rest)
include hq

/-- A chunk that may not come here: its header is taken, and nothing more (R223). -/
theorem readIn_header_outOfOrder (hcase : (tag = tagIhdr ∧ s.dstage ≠ .start) ∨
    (tag = tagIdat ∧ s.dstage ≠ .seenHeader) ∨ tag = tagIend) :
    readIn 8 (.header o) s = raise .chunkOrder (be32At tag 0) (headRead s len tag rest) := by
  have hlen : tag.length = 4 := by rcases hcase with h | h | h <;> simp [h, tagIhdr, tagIdat, tagIend]
  rw [readIn_chunkHead _ hq hlen, afterRead,
    afterHeader_outOfOrder o (s := withIn s rest) (drop_four_be32Bytes_append ..) hcase,
    chunkHeader_eq_headRead, runGo_goRaise]

theorem readIn_header_ihdr (hcase : tag = tagIhdr) (hstage : s.dstage = .start) :
    readIn 8 (.header o) s = if len = 13 then readIn 13 (.ihdr o) (headRead s len tag rest)
      else raise .badIhdrLength len (headRead s len tag rest) := by
  rw [readIn_chunkHead _ hq (by rw [hcase]; rfl), afterRead,
    afterHeader_ihdr o (s := withIn s rest) (drop_four_be32Bytes_append ..) hcase hstage,
    be32At_be32Bytes_append, chunkHeader_eq_headRead,
    runGo_ite, runGo_read, runGo_goRaise]

theorem readIn_header_idat (hcase : tag = tagIdat) (hstage : s.dstage = .seenHeader) :
    readIn 8 (.header o) s = runGo (afterChunk o
      { headRead s len tag rest with idatRemain := len, dstage := .seenData, frResult := 2 }) := by
  rw [readIn_chunkHead _ hq (by rw [hcase]; rfl), afterRead,
    afterHeader_idat o (s := withIn s rest) (drop_four_be32Bytes_append ..) hcase hstage,
    be32At_be32Bytes_append, chunkHeader_eq_headRead]

theorem readIn_header_other (hlen : tag.length = 4) (hihdr : tag ≠ tagIhdr) (hidat : tag ≠ tagIdat)
    (hiend : tag ≠ tagIend) :
    readIn 8 (.header o) s = if len.toNat > 0x7FFFFFFF then raise .badChunkLength len (headRead s len tag rest)
      else runGo (skipNext o len.toNat (headRead s len tag rest)) := by
  rw [readIn_chunkHead _ hq hlen, afterRead, afterHeader_other o (drop_four_be32Bytes_append ..) hihdr hidat hiend,
    be32At_be32Bytes_append, chunkHeader_eq_headRead, skipChunk, runGo_ite, runGo_goRaise, maxChunkLength]

end

/-! ### The end of a chunk -/

theorem runGo_afterChunk_step (s : State) : runGo (afterChunk false s) = { s with fr := .idle } := rfl

theorem runGo_afterChunk_open {s : State} (h : s.dstage ≠ .seenData) :
    runGo (afterChunk true s) = readIn 8 (.header true) s :=
  congrArg runGo ((if_pos rfl).trans (if_neg h))

theorem runGo_afterChunk_found {s : State} (h : s.dstage = .seenData) :
    runGo (afterChunk true s) = { s with frResult := 2, fr := .idle } :=
  congrArg runGo ((if_pos rfl).trans (if_pos h))

/-! ### The header chunk -/

theorem depthTypeInfo_eq (p : List Byte) : depthTypeInfo p = be32 0 0 (byteAt p 8) (byteAt p 9) := by
  have hzero : be32 0 0 (byteAt p 8) (byteAt p 9) = ((0 : BitVec 16) ++ (byteAt p 8 ++ byteAt p 9) : BitVec 32) := by
    rw [be32, BitVec.append_assoc]
    rfl
  rw [hzero, depthTypeInfo, BitVec.setWidth_eq_append (by decide)]
  rfl

theorem ihdrCheck_eq_headerError (params : Config.Params) (p : List Byte) :
    ihdrCheck params p = headerError params.maxWidth p := by
  simp only [ihdrCheck, headerError, dimensionCheck_eq, depthTypeInfo_eq, tooWide_eq_true_iff]
  split_ifs <;> rfl

theorem headerError_of_headerPasses {maxWidth : Nat} {p : List Byte} (h : headerPasses maxWidth p) :
    headerError maxWidth p = none := by
  obtain ⟨-, hcomp, hfilt, hw, hh, hfits, hdepth, htype, hil, hwide⟩ := h
  rw [headerError, if_neg (not_not.mpr hcomp), if_neg (not_not.mpr hfilt), if_neg (not_le.mpr hw), if_neg (not_le.mpr hh),
    if_neg (not_lt.mpr hfits), if_neg (not_or.mpr ⟨not_not.mpr hdepth, not_not.mpr htype⟩), if_neg (not_not.mpr hil),
    if_neg (not_lt.mpr hwide)]

theorem afterIhdr_fails (o : Bool) {p : List Byte} {s : State} {r : Reason} {info : Word}
    (herr : headerError s.params.maxWidth p = some (r, info)) : afterIhdr o p s = goRaise r info { s with
      crc := crcFeed s.crc p, width := be32At p 0, height := be32At p 4, hdrFmt := hdrFmtOf p
      hdrIl := (byteAt p 12).setWidth 32 } := by
  rw [← ihdrCheck_eq_headerError] at herr
  simp only [afterIhdr, herr]

theorem afterIhdr_passes (o : Bool) {p : List Byte} {s : State} (herr : headerError s.params.maxWidth p = none) :
    afterIhdr o p s = .read 4 (.ihdrCrc o) { s with
      crc := crcFeed s.crc p, width := be32At p 0, height := be32At p 4, hdrFmt := hdrFmtOf p
      hdrIl := (byteAt p 12).setWidth 32 } := by
  rw [← ihdrCheck_eq_headerError] at herr
  simp only [afterIhdr, herr]

/-- The registers of an IHDR chunk are those of its header and then those of its payload. -/
theorem headerRead_eq (s : State) (p rest : List Byte) : headerRead s p rest =
    { withIn (headRead s 13 tagIhdr (p ++ rest)) rest with
      crc := crcFeed (withIn (headRead s 13 tagIhdr (p ++ rest)) rest).crc p
      width := be32At p 0
      height := be32At p 4
      hdrFmt := hdrFmtOf p
      hdrIl := (byteAt p 12).setWidth 32 } := by
  rw [headRead_tagIhdr]
  rfl

section
variable {o : Bool} {s : State} {p rest : List Byte} (hstage : s.dstage = .start) (hlen : p.length = 13)
  (hq : s.inp.q = [0x00, 0x00, 0x00, 0x0D, 0x49, 0x48, 0x44, 0x52] ++ p ++ rest)
include hstage hlen hq

theorem readIn_header_payload :
    readIn 8 (.header o) s = runGo (afterIhdr o p (withIn (headRead s 13 tagIhdr (p ++ rest)) rest)) := by
  have hqHead : s.inp.q = be32Bytes 13 ++ tagIhdr ++ (p ++ rest) := hq.trans (List.append_assoc ..)
  rw [readIn_header_ihdr hqHead rfl hstage, if_pos rfl, readIn_eq_afterRead (d := p) (rest := rest) _ rfl hlen (by decide),
    afterRead]

/-- ParseIHDR writes the header registers before the checks 1 to 7 (R204). -/
theorem readIn_header_fails {r : Reason} {info : Word} (herr : headerError s.params.maxWidth p = some (r, info)) :
    readIn 8 (.header o) s = raise r info (headerRead s p rest) := by
  rw [readIn_header_payload hstage hlen hq,
    afterIhdr_fails o (s := withIn (headRead s 13 tagIhdr (p ++ rest)) rest) herr, runGo_goRaise]
  exact congrArg (raise r info) (headerRead_eq s p rest).symm

theorem readIn_header_passes (hpass : headerPasses s.params.maxWidth p) :
    readIn 8 (.header o) s = readIn 4 (.ihdrCrc o) (headerRead s p rest) := by
  rw [readIn_header_payload hstage hlen hq,
    afterIhdr_passes o (s := withIn (headRead s 13 tagIhdr (p ++ rest)) rest) (headerError_of_headerPasses hpass), runGo_read]
  exact congrArg (readIn 4 (.ihdrCrc o)) (headerRead_eq s p rest).symm

end

theorem headerRead_crcValue (s : State) (p rest : List Byte) :
    (headerRead s p rest).crcValue = chunkCrc tagIhdr p := by
  rw [chunkCrc, crcFeed_tagIhdr]
  rfl

theorem chunkBytes_tagIhdr {p : List Byte} (hlen : p.length = 13) : chunkBytes tagIhdr p =
    [0x00, 0x00, 0x00, 0x0D, 0x49, 0x48, 0x44, 0x52] ++ p ++ be32Bytes (chunkCrc tagIhdr p) := by
  rw [chunkBytes, hlen]
  rfl

theorem headerRead_withIn (s : State) (p c rest : List Byte) :
    withIn (headerRead s p (c ++ rest)) rest = headerRead s p rest := rfl

/-- A header chunk that passes every check is accepted (R204). -/
theorem readIn_header_accepts {o : Bool} {s : State} {p rest : List Byte} (hstage : s.dstage = .start)
    (hpass : headerPasses s.params.maxWidth p) (hq : s.inp.q = chunkBytes tagIhdr p ++ rest) :
    readIn 8 (.header o) s = runGo (afterChunk o
      { rowsAccepted (headerRead s p rest) (be32At p 0) with dstage := .seenHeader, frResult := 1 }) := by
  have hlen : p.length = 13 := hpass.1
  rw [chunkBytes_tagIhdr hlen, List.append_assoc, ← headerRead_crcValue s p rest] at hq
  rw [readIn_header_passes hstage hlen hq hpass, readIn_eq_afterRead (rest := rest) _ rfl (be32Bytes_length _) (by decide),
    headerRead_withIn, afterRead, afterIhdrCrc, verifyChecksum_right, acceptRows_eq_rowsAccepted]
  rfl

/-- A header chunk that passes every check but whose CRC field differs (R204 check 8). -/
theorem readIn_header_wrongCrc {o : Bool} {s : State} {p c rest : List Byte} (hstage : s.dstage = .start)
    (hpass : headerPasses s.params.maxWidth p) (hc : c.length = 4) (hne : c ≠ be32Bytes (chunkCrc tagIhdr p))
    (hq : s.inp.q = [0x00, 0x00, 0x00, 0x0D, 0x49, 0x48, 0x44, 0x52] ++ p ++ c ++ rest) :
    readIn 8 (.header o) s = raise .checksumMismatch (be32At c 0) (headerRead s p rest) := by
  rw [List.append_assoc] at hq
  rw [← headerRead_crcValue s p rest] at hne
  rw [readIn_header_passes hstage hpass.1 hq hpass, readIn_eq_afterRead (d := c) (rest := rest) _ rfl hc (by decide),
    headerRead_withIn, afterRead, afterIhdrCrc, verifyChecksum_wrong hc hne, runGo_goRaise]

/-! ### Any other chunk -/

/-- SkipChunk takes the payload a byte at a time and feeds it to the CRC (R203). -/
theorem runGo_skipNext (o : Bool) (d rest : List Byte) {s : State} (hq : s.inp.q = d ++ rest) :
    runGo (skipNext o d.length s) = readIn 4 (.skipCrc o) { withIn s rest with crc := crcFeed s.crc d } := by
  induction d generalizing s with
  | nil =>
    have hself : withIn s rest = s := withIn_self hq
    rw [hself]
    rfl
  | cons b d ih =>
    have hread : runGo (skipNext o (b :: d).length s) = readIn 1 (.skip o d.length) s := rfl
    rw [hread, readIn_eq_afterRead (d := [b]) (rest := d ++ rest) _ hq (List.length_singleton) le_rfl]
    exact ih rfl

/-- `s` after an other chunk's header and payload were taken, `rest` left in IN (R203). -/
def payloadSkipped (s : State) (tag payload rest : List Byte) : State :=
  { withIn s rest with
    chunkLen := BitVec.ofNat 32 payload.length, chunkTag := be32At tag 0
    crc := crcFeed (crcFeed 0xFFFFFFFF tag) payload }

theorem payloadSkipped_crcValue (s : State) (tag payload rest : List Byte) :
    (payloadSkipped s tag payload rest).crcValue = chunkCrc tag payload := rfl

section
variable {o : Bool} {s : State} {tag payload rest : List Byte} (hlen : tag.length = 4) (hihdr : tag ≠ tagIhdr)
  (hidat : tag ≠ tagIdat) (hiend : tag ≠ tagIend) (hshort : payload.length ≤ 0x7FFFFFFF)
include hlen hihdr hidat hiend hshort

theorem readIn_header_skips {c : List Byte} (hc : c.length = 4)
    (hq : s.inp.q = be32Bytes (BitVec.ofNat 32 payload.length) ++ tag ++ payload ++ c ++ rest) :
    readIn 8 (.header o) s = runGo (afterSkipCrc o c (payloadSkipped s tag payload rest)) := by
  have hnat : (BitVec.ofNat 32 payload.length).toNat = payload.length := by
    rw [BitVec.toNat_ofNat, Nat.mod_eq_of_lt (by omega)]
  rw [List.append_assoc, List.append_assoc] at hq
  rw [readIn_header_other hq hlen hihdr hidat hiend, hnat, if_neg (not_lt.mpr hshort),
    runGo_skipNext o payload (c ++ rest) rfl, readIn_eq_afterRead (d := c) (rest := rest) _ rfl hc (by decide), afterRead]
  rfl

theorem readIn_header_skipsRight (hq : s.inp.q = chunkBytes tag payload ++ rest) :
    readIn 8 (.header o) s =
      runGo (afterChunk o { payloadSkipped s tag payload rest with frResult := 3 }) := by
  rw [readIn_header_skips hlen hihdr hidat hiend hshort (be32Bytes_length _) hq, afterSkipCrc,
    ← payloadSkipped_crcValue s tag payload rest, verifyChecksum_right]

theorem readIn_header_skipsWrong {c : List Byte} (hc : c.length = 4) (hne : c ≠ be32Bytes (chunkCrc tag payload))
    (hq : s.inp.q = be32Bytes (BitVec.ofNat 32 payload.length) ++ tag ++ payload ++ c ++ rest) :
    readIn 8 (.header o) s = raise .checksumMismatch (be32At c 0) (payloadSkipped s tag payload rest) := by
  rw [← payloadSkipped_crcValue s tag payload rest] at hne
  rw [readIn_header_skips hlen hihdr hidat hiend hshort hc hq, afterSkipCrc, verifyChecksum_wrong hc hne, runGo_goRaise]

end

end Sys2Proof.Proofs
end

section
/-! Proofs about FR_STEP (41_framer_decode.md R221, R223): its state check, then one chunk of the scan. -/

namespace Sys2Proof.Proofs
open Sys2Proof.Machine Sys2Proof.Claims

theorem decodeCmd_frStepWord : decodeCmd 0x21000000 = .instr .frStep := by decide

theorem exec_frStep_ready {s : State} (h : scanReady s) : exec .frStep s = .next (readIn 8 (.header false) s) := by
  obtain ⟨hmode, hsig, hstage⟩ := h
  exact congrArg Host.Outcome.next (if_neg (by simp [hmode, hsig, hstage]))

theorem exec_frStep_refused {s : State} (h : ¬ scanReady s) : exec .frStep s = .next (raise .badState 0x21 s) := by
  refine congrArg Host.Outcome.next (if_pos ?_)
  by_contra hpass
  rw [not_or, not_or, not_not, not_not, Bool.not_eq_false] at hpass
  exact h hpass

/-- Settles O14: the header chunk is accepted, and FR_STEP ends with it. -/
theorem frStepAcceptsAHeader : Obligations.FrStepAcceptsAHeader := by
  refine ⟨frGate_of_decodeCmd decodeCmd_frStepWord target_frStep, fun s p rest hready hstage hpass hq => ?_⟩
  rw [exec_frStep_ready hready, readIn_header_accepts hstage hpass hq, runGo_afterChunk_step]

/-- Settles O15: the length, then the checks 1 to 7 in `headerError`'s order, then the CRC field. -/
theorem headerChecksRunInOrder : Obligations.HeaderChecksRunInOrder := by
  intro s rest hready hstage
  rw [exec_frStep_ready hready]
  refine ⟨fun p r info hlen herr hq => ?fails, fun len hlen hq => ?length, fun p c hpass hc hne hq => ?crc⟩
  case fails => rw [readIn_header_fails hstage hlen hq herr]
  case length => rw [readIn_header_ihdr hq rfl hstage, if_neg hlen, headRead_tagIhdr]
  case crc => rw [readIn_header_wrongCrc hstage hpass hc hne hq]

/-- Settles O16: the dispatch on TAG_IDAT, with which FR_STEP ends. -/
theorem frStepFindsTheFirstDataChunk : Obligations.FrStepFindsTheFirstDataChunk := by
  intro s len rest hready hstage hq
  have hq : s.inp.q = be32Bytes len ++ tagIdat ++ rest := hq
  rw [exec_frStep_ready hready, readIn_header_idat hq rfl hstage, headRead_tagIdat, runGo_afterChunk_step]

/-- Settles O17: the length check of SkipChunk, then the payload, then the CRC field. -/
theorem frStepSkipsAnOtherChunk : Obligations.FrStepSkipsAnOtherChunk := by
  intro s tag rest hready hlen hihdr hidat hiend
  rw [exec_frStep_ready hready]
  refine ⟨fun payload hshort hq => ?right, fun payload c hshort hc hne hq => ?wrong, fun len hlong hq => ?long⟩
  case right =>
    rw [readIn_header_skipsRight hlen hihdr hidat hiend hshort hq, runGo_afterChunk_step]
    rfl
  case wrong =>
    rw [readIn_header_skipsWrong hlen hihdr hidat hiend hshort hc hne hq]
    rfl
  case long =>
    rw [readIn_header_other hq hlen hihdr hidat hiend, if_pos hlong]
    rfl

/-- Settles O18: what the dispatch refuses by the stage, and what the state check refuses. -/
theorem chunkOrderIsEnforced : Obligations.ChunkOrderIsEnforced := by
  refine ⟨fun s len tag rest hready htag hq => ?_, fun s => exec_frStep_refused⟩
  rw [exec_frStep_ready hready, readIn_header_outOfOrder hq (htag.imp (And.imp_right ?_) (.imp_left (And.imp_right ?_)))]
  · rfl
  · simp +contextual
  · simp +contextual

/-! ### The header FW_IHDR writes -/

theorem encodeCheck_eq_none {params : Config.Params} {w h : Word} (hcheck : encodeCheck params w h = none) :
    0 < w.toInt ∧ 0 < h.toInt ∧ w.toNat * h.toNat * 8 ≤ 2 ^ 63 - 1 ∧ w.toNat ≤ params.maxWidth := by
  cases hdim : dimensionCheck w h with
  | some e => exact absurd ((encodeCheck_of_dimensionCheck_some hdim).symm.trans hcheck) (by simp)
  | none =>
    rw [encodeCheck_of_dimensionCheck_none hdim] at hcheck
    rw [dimensionCheck_eq] at hdim
    split_ifs at hdim hcheck with hw hh hover hwide
    exact ⟨not_le.mp hw, not_le.mp hh, not_lt.mp hover, not_lt.mp hwide⟩

/-- The checks FW_IHDR makes are those the decoder makes on the payload it writes (R271, R204). -/
theorem headerPasses_headerPayload {params : Config.Params} {w h : Word} (hcheck : encodeCheck params w h = none) :
    headerPasses params.maxWidth (headerPayload w h) := by
  have hw : be32At (headerPayload w h) 0 = w := be32_extract w
  have hh : be32At (headerPayload w h) 4 = h := be32_extract h
  obtain ⟨hwpos, hhpos, hfits, hwide⟩ := encodeCheck_eq_none hcheck
  refine ⟨rfl, rfl, rfl, ?_, ?_, ?_, rfl, rfl, rfl, ?_⟩
  · rwa [hw]
  · rwa [hh]
  · rwa [hw, hh]
  · rwa [hw]

/-- The four profile bytes of the payload, read as HDR_FMT, are the value FW_IHDR writes (R271, R43). -/
theorem hdrFmtOf_headerPayload (w h : Word) : hdrFmtOf (headerPayload w h) = 0x00000608 := by
  change be32 0x00 0x00 0x06 0x08 = 0x00000608
  decide

/-- FW_IHDR that leaves ESTAGE at EHeader has passed its checks and written the header (R271). -/
theorem exec_fwIhdr_completes {e t : State} (hmode : e.mode = .encode) (hstage : e.estage = .sig)
    (hexec : exec .fwIhdr e = .next t) (ht : t.estage = .header) :
    encodeCheck e.params e.width e.height = none ∧ t = writeHeader e := by
  cases hcheck : encodeCheck e.params e.width e.height with
  | none => exact ⟨rfl, Host.Outcome.next.inj (hexec.symm.trans (exec_fwIhdr_writes hmode hstage hcheck))⟩
  | some error =>
    rw [exec_fwIhdr_raises hmode hstage hcheck] at hexec
    obtain rfl := Host.Outcome.next.inj hexec
    exact absurd (hstage.symm.trans ht) (by decide)

/-- Settles O29: the payload FW_IHDR writes passes the decoder's checks, and its chunk is one FR_STEP accepts. -/
theorem encodedHeaderIsAccepted : Obligations.EncodedHeaderIsAccepted := by
  intro e t d rest hexec hmode hestage ht hready hdstage hparams hchunk
  obtain ⟨chunk, hout, hin⟩ := hchunk
  obtain ⟨hcheck, rfl⟩ := exec_fwIhdr_completes hmode hestage hexec ht
  have hpass : headerPasses d.params.maxWidth (headerPayload e.width e.height) :=
    hparams ▸ headerPasses_headerPayload hcheck
  obtain rfl : chunkBytes tagIhdr (headerPayload e.width e.height) = chunk := List.append_cancel_left hout
  refine ⟨_, frStepAcceptsAHeader.2 d _ rest hready hdstage hpass hin, rfl, rfl, rfl, rfl, ?_, ?_, ?_,
    hdrFmtOf_headerPayload .., rfl, ?_⟩
  · exact be32_extract e.width
  · exact be32_extract e.height
  · exact congrArg rowSizeOf (be32_extract e.width)
  · have hcrc : (writeHeader e).crc = crcFeed 0x575E51F5 (headerPayload e.width e.height) := by rw [writeHeader_eq]
    exact hcrc.symm

end Sys2Proof.Proofs
end

section
/-! Proofs about FR_OPEN (41_framer_decode.md R222): FR_SIG and then FR_STEP until the first data chunk. -/

namespace Sys2Proof.Proofs
open Sys2Proof.Machine Sys2Proof.Claims

theorem decodeCmd_frOpenWord : decodeCmd 0x22000000 = .instr .frOpen := by decide

theorem exec_frOpen_refused {s : State} (h : s.mode ≠ .decode ∨ s.dstage = .seenData ∨ s.dstage = .seenEnd) :
    exec .frOpen s = .next (raise .badState 0x22 s) :=
  congrArg Host.Outcome.next (if_pos (by rcases h with h | h | h <;> simp [h]))

theorem exec_frOpen_unsigned {s : State} (hmode : s.mode = .decode) (hsig : s.sigOk = false)
    (hstage : s.dstage = .start) : exec .frOpen s = .next (readIn 8 (.sig true) s) :=
  congrArg Host.Outcome.next ((if_neg (by simp [hmode, hstage])).trans (if_pos hsig))

theorem exec_frOpen_signed {s : State} (h : scanReady s) : exec .frOpen s = .next (readIn 8 (.header true) s) := by
  obtain ⟨hmode, hsig, hstage⟩ := h
  exact congrArg Host.Outcome.next ((if_neg (by simp [hmode, hstage])).trans (if_neg (by simp [hsig])))

theorem runGo_afterSig_match (o : Bool) (s : State) : runGo (afterSig o sigBytes s) =
    if o then runGo (afterChunk true { s with sigOk := true, frResult := 0 })
      else { s with sigOk := true, frResult := 0, fr := .idle } := by
  rw [afterSig, if_pos rfl, runGo_ite]
  rfl

theorem runGo_afterSig_mismatch (o : Bool) {b : List Byte} (hb : b ≠ sigBytes) (s : State) :
    runGo (afterSig o b s) = raise .notPng 0 s :=
  congrArg runGo (if_neg hb)

/-- `s` after the signature was taken from IN, `rest` left there (R220). -/
def sigRead (s : State) (rest : List Byte) : State := { withIn s rest with sigOk := true, frResult := 0 }

/-- FR_OPEN takes the signature and goes on with the scan (R222). -/
theorem readIn_sig_open {s : State} {rest : List Byte} (hq : s.inp.q = sigBytes ++ rest) (hstage : s.dstage = .start) :
    readIn 8 (.sig true) s = readIn 8 (.header true) (sigRead s rest) := by
  have hnotData : (withIn s rest).dstage ≠ .seenData := fun h => absurd (hstage.symm.trans h) (by decide)
  rw [readIn_eq_afterRead _ hq sigBytes_length (by decide), afterRead, runGo_afterSig_match, if_pos rfl]
  exact runGo_afterChunk_open hnotData

/-- The scan goes from an accepted header chunk to the data chunk behind it, and ends there (R222). -/
theorem readIn_header_open {s : State} {p rest : List Byte} {len : Word} (hstage : s.dstage = .start)
    (hpass : headerPasses s.params.maxWidth p)
    (hq : s.inp.q = chunkBytes tagIhdr p ++ (be32Bytes len ++ tagIdat ++ rest)) :
    readIn 8 (.header true) s = { rowsAccepted (headerRead s p rest) (be32At p 0) with
      chunkLen := len, chunkTag := 0x49444154, crc := 0xCA50F9E1, idatRemain := len, dstage := .seenData
      frResult := 2, fr := .idle } := by
  rw [readIn_header_accepts hstage hpass hq, runGo_afterChunk_open,
    readIn_header_idat (len := len) (tag := tagIdat) (rest := rest) rfl rfl rfl, headRead_tagIdat,
    runGo_afterChunk_found rfl]
  · rfl
  · simp

/-- Settles O19: the signature, then the header chunk, then the data chunk's header. -/
theorem frOpenReachesTheFirstDataChunk : Obligations.FrOpenReachesTheFirstDataChunk := by
  refine ⟨frGate_of_decodeCmd decodeCmd_frOpenWord target_frOpen, fun s p rest len hmode hsig hstage hpass hq => ?_,
    fun s => exec_frOpen_refused⟩
  rw [exec_frOpen_unsigned hmode hsig hstage, readIn_sig_open hq hstage]
  exact congrArg Host.Outcome.next (readIn_header_open (s := sigRead s _) hstage hpass rfl)

/-! ### FR_SIG and FR_STEP at FR_OPEN's front (R442) -/

/-- A point of FR_STEP's body, and the point of FR_OPEN it is. -/
def opened : FrPoint → FrPoint
  | .header _ => .header true
  | .ihdr _ => .ihdr true
  | .ihdrCrc _ => .ihdrCrc true
  | .skip _ n => .skip true n
  | .skipCrc _ => .skipCrc true
  | p => p

/-- The points of FR_STEP. -/
inductive InStep : FrPoint → Prop where
  | header : InStep (.header false)
  | ihdr : InStep (.ihdr false)
  | ihdrCrc : InStep (.ihdrCrc false)
  | skip (n : Nat) : InStep (.skip false n)
  | skipCrc : InStep (.skipCrc false)

/-- What FR_OPEN finds after a body of FR_STEP that completed: the first data chunk, or more to scan. -/
def ScanGoesOn (t : State) : Prop := t.dstage = .seenData ∧ t.frResult = 2 ∨ scanReady t

/-- How a piece of FR_STEP's body ends there and in FR_OPEN, `s` before it: alike in an error, with the next chunk after
a body that completes, and at the same `ReadIn`. -/
inductive EndsInOpen (s : State) : Go → Go → Prop where
  | raises (r : Reason) (info : Word) (t : State) : EndsInOpen s (goRaise r info t) (goRaise r info t)
  | completes (t : State) (herr : t.err = s.err) (hfr : t.fr = s.fr) (hon : ScanGoesOn t) :
      EndsInOpen s (afterChunk false t) (afterChunk true t)
  | reads (k : Nat) (p : FrPoint) (t : State) (hp : InStep p) (herr : t.err = s.err) (hready : scanReady t) :
      EndsInOpen s (.read k p t) (.read k (opened p) t)

theorem endsInOpen_verifyChecksum {s : State} (c : List Byte) (t : State) {g g' : Go} (h : EndsInOpen s g g') :
    EndsInOpen s (verifyChecksum c t g) (verifyChecksum c t g') := by
  unfold verifyChecksum
  split
  · exact h
  · exact .raises ..

theorem endsInOpen_skipNext (n : Nat) {s t : State} (herr : t.err = s.err) (hready : scanReady t) :
    EndsInOpen s (skipNext false n t) (skipNext true n t) := by
  unfold skipNext
  split
  · exact .reads 4 (.skipCrc false) t .skipCrc herr hready
  · exact .reads 1 (.skip false (n - 1)) t (.skip _) herr hready

theorem afterHeader_endsInOpen (h : List Byte) {s : State} (hready : scanReady s) :
    EndsInOpen s (afterHeader false h s) (afterHeader true h s) := by
  simp only [afterHeader]
  split_ifs
  · exact .raises ..
  · exact .raises ..
  · exact .reads 13 (.ihdr false) (chunkHeader h s) .ihdr rfl hready
  · exact .raises ..
  · exact .completes { chunkHeader h s with idatRemain := be32At h 0, dstage := .seenData, frResult := 2 } rfl rfl
      (.inl ⟨rfl, rfl⟩)
  · exact .raises ..
  · unfold skipChunk
    split
    · exact .raises ..
    · exact endsInOpen_skipNext _ (t := chunkHeader h s) rfl hready

theorem afterIhdr_endsInOpen (d : List Byte) {s : State} (hready : scanReady s) :
    EndsInOpen s (afterIhdr false d s) (afterIhdr true d s) := by
  cases herr : headerError s.params.maxWidth d with
  | some error =>
    rw [afterIhdr_fails false herr, afterIhdr_fails true herr]
    exact .raises ..
  | none =>
    rw [afterIhdr_passes false herr, afterIhdr_passes true herr]
    exact .reads 4 (.ihdrCrc false) _ .ihdrCrc rfl hready

theorem afterRead_endsInOpen {p : FrPoint} (hp : InStep p) (d : List Byte) {s : State} (hready : scanReady s) :
    EndsInOpen s (afterRead p d s) (afterRead (opened p) d s) := by
  cases hp with
  | header => exact afterHeader_endsInOpen d hready
  | ihdr => exact afterIhdr_endsInOpen d hready
  | ihdrCrc =>
    exact endsInOpen_verifyChecksum d s (.completes { s.acceptRows s.width with dstage := .seenHeader, frResult := 1 } rfl rfl
      (.inr ⟨hready.1, hready.2.1, .inr rfl⟩))
  | skip n => exact endsInOpen_skipNext n (t := { s with crc := crcFeed s.crc d }) rfl hready
  | skipCrc => exact endsInOpen_verifyChecksum d s (.completes { s with frResult := 3 } rfl rfl (.inr hready))

/-- How a segment of FR_STEP ends there (`t`) and in FR_OPEN (`u`), `e` being the error recorded before it. -/
inductive SegmentInOpen (e : Option Reason) : State → State → Prop where
  | holds (t u : State) (hfr : t.fr ≠ .idle) (herr : t.err = e) : SegmentInOpen e t u
  | raises (t : State) (herr : t.err ≠ none) : SegmentInOpen e t t
  | completes (t : State) (hfr : t.fr = .idle) (herr : t.err = e) (hon : ScanGoesOn t) :
      SegmentInOpen e t (runGo (afterChunk true t))

theorem readIn_idle {k : Nat} {p : FrPoint} {s : State} (h : s.fr.serving = false) :
    readIn k p { s with fr := .idle } = readIn k p s :=
  readLoop_fr_irrelevant s.inp.q k [] p s .idle h.symm

/-- What FR_OPEN does after a chunk does not depend on FR's record, no request being served. -/
theorem runGo_afterChunk_idle {t : State} (h : t.fr.serving = false) :
    runGo (afterChunk true { t with fr := .idle }) = runGo (afterChunk true t) := by
  by_cases hdata : t.dstage = .seenData
  · rw [runGo_afterChunk_found hdata, runGo_afterChunk_found (s := { t with fr := .idle }) hdata]
  · rw [runGo_afterChunk_open hdata, runGo_afterChunk_open (s := { t with fr := .idle }) hdata]
    exact readIn_idle h

theorem readLoop_segmentInOpen (q : List Byte) (need : Nat) (got : List Byte) {p : FrPoint} {s : State}
    (hp : InStep p) (hready : scanReady s) (hserv : s.fr.serving = false) :
    SegmentInOpen s.err (readLoop q need got p s) (readLoop q need got (opened p) s) := by
  induction q generalizing need got p s with
  | nil =>
    rw [readLoop, readLoop]
    split
    · exact .raises _ (by simp)
    · exact .holds _ _ (by simp) rfl
  | cons b q ih =>
    by_cases hneed : need ≤ 1
    · rw [readLoop_last b q need got p s hneed, readLoop_last b q need got (opened p) s hneed]
      have hpiece := afterRead_endsInOpen hp (got ++ [b]) (s := { s with inp := { s.inp with q := q } }) hready
      generalize hg : afterRead p (got ++ [b]) { s with inp := { s.inp with q := q } } = g at hpiece
      generalize hg' : afterRead (opened p) (got ++ [b]) { s with inp := { s.inp with q := q } } = g' at hpiece
      cases hpiece with
      | raises r info t => exact .raises _ (by simp [runGo, goRaise])
      | completes t herr hfr hon =>
        rw [← runGo_afterChunk_idle (hfr ▸ hserv)]
        exact .completes { t with fr := .idle } rfl herr hon
      | reads k p2 t hp2 herr hready2 =>
        obtain ⟨hinp, hfr, -⟩ := afterRead_goes_on hg
        rw [runGo_read, runGo_read, readIn, readIn, hinp, ← herr]
        exact ih _ _ hp2 hready2 (hfr ▸ hserv)
    · rw [readLoop, readLoop, if_neg hneed, if_neg hneed]
      exact ih _ _ (s := { s with inp := { s.inp with q := q } }) hp hready hserv

/-- FR_STEP from a state in which it passes its state check, and FR_OPEN from there. -/
theorem exec_frOpen_of_frStep {s t : State} (hserv : s.fr.serving = false) (hready : scanReady s)
    (hstep : exec .frStep s = .next t) : ∃ u, exec .frOpen s = .next u ∧ SegmentInOpen s.err t u := by
  obtain rfl := Host.Outcome.next.inj ((exec_frStep_ready hready).symm.trans hstep)
  exact ⟨_, exec_frOpen_signed hready, readLoop_segmentInOpen s.inp.q 8 [] .header hready hserv⟩

/-- FR_SIG from a state in which it passes its state check, and FR_OPEN from there. -/
theorem exec_frOpen_of_frSig {s t : State} (hserv : s.fr.serving = false) (hmode : s.mode = .decode)
    (hsig : s.sigOk = false) (hstage : s.dstage = .start) (hstep : exec .frSig s = .next t) :
    ∃ u, exec .frOpen s = .next u ∧ (t.fr ≠ .idle ∧ t.err = s.err ∨ t.err ≠ none ∧ u = t ∨
      t.err = s.err ∧ scanReady t ∧ u = readIn 8 (.header true) t) := by
  obtain rfl := Host.Outcome.next.inj ((exec_frSig_readIn hmode hsig hstage).symm.trans hstep)
  refine ⟨_, exec_frOpen_unsigned hmode hsig hstage, ?_⟩
  rcases Nat.lt_or_ge s.inp.q.length 8 with hshort | henough
  · rw [readIn_eq_shortRead _ hshort, readIn_eq_shortRead _ hshort, shortRead, shortRead]
    split
    · exact .inr (.inl ⟨by simp, rfl⟩)
    · exact .inl ⟨by simp, rfl⟩
  · have hq : s.inp.q = s.inp.q.take 8 ++ s.inp.q.drop 8 := (List.take_append_drop 8 _).symm
    have hlen : (s.inp.q.take 8).length = 8 := List.length_take_of_le henough
    by_cases hb : s.inp.q.take 8 = sigBytes
    · rw [hb] at hq
      have hfr : runGo (afterRead (.sig false) sigBytes (withIn s (s.inp.q.drop 8))) =
          { sigRead s (s.inp.q.drop 8) with fr := .idle } := rfl
      rw [readIn_sig_open hq hstage, readIn_eq_afterRead _ hq sigBytes_length (by decide), hfr]
      exact .inr (.inr ⟨rfl, ⟨hmode, rfl, .inl hstage⟩, (readIn_idle (s := sigRead s (s.inp.q.drop 8)) hserv).symm⟩)
    · rw [readIn_eq_afterRead _ hq hlen (by decide), readIn_eq_afterRead _ hq hlen (by decide), afterRead, afterRead,
        runGo_afterSig_mismatch _ hb, runGo_afterSig_mismatch _ hb]
      exact .inr (.inl ⟨by simp, rfl⟩)

/-- Settles O20: FR_OPEN's segment follows FR_STEP's to the end of its body, and ends with it where that is an error. -/
theorem frOpenIsRepeatedFrStep : Obligations.FrOpenIsRepeatedFrStep := by
  refine ⟨fun s t hserv hmode hsig hstage hstep hidle hnone => ?sigDone, fun s t hserv hready hstep hidle hnone => ?stepDone,
    fun s t hserv hvalid hmode hsig hstage hstep herr => ?sigFails, fun s t hserv hvalid hready hstep herr => ?stepFails⟩
  case sigDone =>
    obtain ⟨u, hopen, ⟨hbusy, -⟩ | ⟨herr, -⟩ | ⟨-, hready, rfl⟩⟩ := exec_frOpen_of_frSig hserv hmode hsig hstage hstep
    · exact absurd hidle hbusy
    · exact absurd hnone herr
    · rw [hopen, exec_frOpen_signed hready]
  case stepDone =>
    obtain ⟨u, hopen, hseg⟩ := exec_frOpen_of_frStep hserv hready hstep
    cases hseg with
    | holds _ hbusy => exact absurd hidle hbusy
    | raises herr => exact absurd hnone herr
    | completes _ _ hon =>
      refine ⟨fun hdata => ?_, fun hdata => ?_⟩
      · have hresult : t.frResult = 2 := hon.elim And.right fun hready => by
          rcases hready.2.2 with h | h <;> rw [h] at hdata <;> cases hdata
        rw [hopen, runGo_afterChunk_found hdata, ← hresult, ← hidle]
      · have hready : scanReady t := hon.resolve_left fun h => hdata h.1
        rw [hopen, runGo_afterChunk_open hdata, exec_frOpen_signed hready]
  case sigFails =>
    obtain ⟨u, hopen, ⟨-, hkept⟩ | ⟨-, rfl⟩ | ⟨hkept, -⟩⟩ := exec_frOpen_of_frSig hserv hmode hsig hstage hstep
    · exact absurd (hkept.trans hvalid) herr
    · exact hopen
    · exact absurd (hkept.trans hvalid) herr
  case stepFails =>
    obtain ⟨u, hopen, hseg⟩ := exec_frOpen_of_frStep hserv hready hstep
    cases hseg with
    | holds _ _ hkept => exact absurd (hkept.trans hvalid) herr
    | raises => exact hopen
    | completes _ hkept => exact absurd (hkept.trans hvalid) herr

end Sys2Proof.Proofs
end

section
/-! Proofs about FR_CLOSE (41_framer_decode.md R224). -/

namespace Sys2Proof.Proofs
open Sys2Proof.Machine Sys2Proof.Claims

theorem decodeCmd_frCloseWord : decodeCmd 0x23000000 = .instr .frClose := by decide

section
variable {s : State}

theorem exec_frClose_badState (h : s.mode ≠ .decode ∨ s.dstage = .start ∨ s.dstage = .seenHeader) :
    exec .frClose s = .next (raise .badState 0x23 s) := by
  refine congrArg Host.Outcome.next ?_
  by_cases hmode : s.mode = .decode
  · have hstage := h.resolve_left (not_not.mpr hmode)
    rw [if_neg (not_not.mpr hmode), if_neg (by rcases hstage with h | h <;> simp [h]),
      if_pos (by rcases hstage with h | h <;> simp [h])]
  · exact if_pos hmode

theorem exec_frClose_repeated (hmode : s.mode = .decode) (hstage : s.dstage = .seenEnd) :
    exec .frClose s = .next { s with frResult := 1, fr := .idle } :=
  congrArg Host.Outcome.next ((if_neg (not_not.mpr hmode)).trans (if_pos hstage))

theorem exec_frClose_reads (hmode : s.mode = .decode) (hstage : s.dstage = .seenData) :
    exec .frClose s = .next (readIn 4 .closeDataCrc (s.emit .infClose)) :=
  congrArg Host.Outcome.next ((if_neg (not_not.mpr hmode)).trans
    ((if_neg (by simp [hstage])).trans (if_neg (not_not.mpr hstage))))

theorem readIn_closeDataCrc_wrong {c rest : List Byte} (hq : s.inp.q = c ++ rest) (hc : c.length = 4)
    (hne : c ≠ be32Bytes s.crcValue) :
    readIn 4 .closeDataCrc s = raise .checksumMismatch (be32At c 0) (withIn s rest) := by
  rw [readIn_eq_afterRead _ hq hc (by decide), afterRead, afterCloseDataCrc,
    verifyChecksum_wrong (s := withIn s rest) hc hne, runGo_goRaise]

theorem readIn_closeDataCrc_right {rest : List Byte} (hq : s.inp.q = be32Bytes s.crcValue ++ rest) :
    readIn 4 .closeDataCrc s = readIn 8 .closeHeader (withIn s rest) := by
  rw [readIn_eq_afterRead _ hq (be32Bytes_length _) (by decide), afterRead, afterCloseDataCrc]
  exact congrArg runGo (verifyChecksum_right (withIn s rest) _)

/-- The length of the next chunk is checked before its tag (R224). -/
theorem readIn_closeHeader_other {len : Word} {tag rest : List Byte} (hq : s.inp.q = be32Bytes len ++ tag ++ rest)
    (htag : tag.length = 4) (hcase : len ≠ 0 ∨ tag ≠ tagIend) :
    readIn 8 .closeHeader s = raise (if len ≠ 0 then .badIendLength else .notIend)
      (if len ≠ 0 then len else be32At tag 0) (headRead s len tag rest) := by
  rw [readIn_chunkHead _ hq htag, afterRead, afterCloseHeader]
  simp only [chunkHeader_eq_headRead, be32At_be32Bytes_append, drop_four_be32Bytes_append,
    be32At_be32Bytes_append_four]
  by_cases hlen : len = 0
  · have hne := hcase.resolve_left (not_not.mpr hlen)
    rw [if_neg (not_not.mpr hlen), if_pos hne, if_neg (not_not.mpr hlen), if_neg (not_not.mpr hlen), runGo_goRaise]
  · rw [if_pos hlen, if_pos hlen, if_pos hlen, runGo_goRaise]

theorem readIn_closeHeader_iend {rest : List Byte}
    (hq : s.inp.q = [0x00, 0x00, 0x00, 0x00, 0x49, 0x45, 0x4E, 0x44] ++ rest) :
    readIn 8 .closeHeader s = readIn 4 .closeIendCrc
      { withIn s rest with chunkLen := 0, chunkTag := 0x49454E44, crc := 0x51BD9F7D } := by
  have hq : s.inp.q = be32Bytes 0 ++ tagIend ++ rest := hq
  rw [readIn_chunkHead _ hq rfl, afterRead, afterCloseHeader]
  simp only [chunkHeader_eq_headRead, be32At_be32Bytes_append, drop_four_be32Bytes_append, ne_eq, not_true_eq_false,
    if_false, runGo_read, headRead_tagIend]

theorem readIn_closeIendCrc_wrong {c rest : List Byte} (hcrc : s.crc = 0x51BD9F7D) (hq : s.inp.q = c ++ rest)
    (hc : c.length = 4) (hne : c ≠ [0xAE, 0x42, 0x60, 0x82]) :
    readIn 4 .closeIendCrc s = raise .checksumMismatch (be32At c 0) (withIn s rest) := by
  have hvalue : be32Bytes (withIn s rest).crcValue = [0xAE, 0x42, 0x60, 0x82] := by
    change be32Bytes (s.crc ^^^ 0xFFFFFFFF) = _
    rw [hcrc]
    rfl
  rw [readIn_eq_afterRead _ hq hc (by decide), afterRead, afterCloseIendCrc,
    verifyChecksum_wrong hc (hvalue ▸ hne), runGo_goRaise]

theorem readIn_closeIendCrc_right {rest : List Byte} (hcrc : s.crc = 0x51BD9F7D)
    (hq : s.inp.q = [0xAE, 0x42, 0x60, 0x82] ++ rest) :
    readIn 4 .closeIendCrc s = { withIn s rest with dstage := .seenEnd, frResult := 0, fr := .idle } := by
  have hvalue : [0xAE, 0x42, 0x60, 0x82] = be32Bytes (withIn s rest).crcValue := by
    change _ = be32Bytes (s.crc ^^^ 0xFFFFFFFF)
    rw [hcrc]
    rfl
  rw [readIn_eq_afterRead (k := 4) _ hq rfl (by decide), afterRead, afterCloseIendCrc, hvalue, verifyChecksum_right]
  rfl

end

/-- Settles O21: the stage decides first; in SeenData the data chunk's CRC, then the terminal chunk's header, then its
CRC. -/
theorem frCloseChecksTheEnd : Obligations.FrCloseChecksTheEnd := by
  refine ⟨frGate_of_decodeCmd decodeCmd_frCloseWord target_frClose, fun s =>
    ⟨exec_frClose_badState, exec_frClose_repeated, fun hmode hstage c rest hc => ?_⟩⟩
  rw [exec_frClose_reads hmode hstage]
  refine ⟨fun hq hne => ?dataCrc, fun len tag hq htag hcase => ?header, fun hq hne => ?iendCrc, fun hq => ?closed⟩
  case dataCrc => exact congrArg _ (readIn_closeDataCrc_wrong (s := s.emit .infClose) hq hc hne)
  case header =>
    rw [readIn_closeDataCrc_right (s := s.emit .infClose) hq, readIn_closeHeader_other rfl htag hcase]
    rfl
  case iendCrc =>
    rw [List.append_assoc] at hq
    rw [readIn_closeDataCrc_right (s := s.emit .infClose) hq, readIn_closeHeader_iend rfl,
      readIn_closeIendCrc_wrong rfl rfl hc hne]
    rfl
  case closed =>
    rw [readIn_closeDataCrc_right (s := s.emit .infClose) hq,
      readIn_closeHeader_iend (rest := [0xAE, 0x42, 0x60, 0x82] ++ rest) rfl, readIn_closeIendCrc_right rfl rfl]
    rfl

end Sys2Proof.Proofs
end

section
/-! Proofs about the ADP service (41_framer_decode.md R230, R232). -/

namespace Sys2Proof.Proofs
open Sys2Proof.Machine Sys2Proof.Claims

/-- FR busy with the service of request `n`, whose first segment is still to run (R230). -/
def servesAdp (n : Word) (s : State) : State := { s with fr := .accepted (.adpRead n) }

section
variable (n : Word) {s : State}

theorem exec_adpRead_invalid (h : s.err.isSome = true) : exec (.adpRead n) s = .next { s with
    adp := none, fr := .idle, outputs := s.outputs ++ [.adpResponse [] false] } :=
  congrArg Host.Outcome.next (if_pos h)

variable (hvalid : s.err = none)
include hvalid

theorem exec_adpRead_badState (h : s.mode ≠ .decode ∨ s.dstage ≠ .seenData) :
    exec (.adpRead n) s = .next (raise .badState 0xAD (servesAdp n s)) :=
  congrArg Host.Outcome.next ((if_neg (by simp [hvalid])).trans (if_pos h))

variable (hmode : s.mode = .decode) (hstage : s.dstage = .seenData)
include hmode hstage

theorem exec_adpRead_zero : exec (.adpRead 0) s = .next { s with
    adp := none, fr := .idle, outputs := s.outputs ++ [.adpResponse [] true] } :=
  congrArg Host.Outcome.next ((if_neg (by simp [hvalid])).trans ((if_neg (by simp [hmode, hstage])).trans (if_pos rfl)))

theorem exec_adpRead_serves {n : Word} (hn : n ≠ 0) :
    exec (.adpRead n) s = .next (runGo (adpNext n (servesAdp n s))) :=
  congrArg Host.Outcome.next ((if_neg (by simp [hvalid])).trans ((if_neg (by simp [hmode, hstage])).trans (if_neg hn)))

end

section
variable (n : Word) {s : State}

theorem runGo_adpNext_exhausted (h : s.idatRemain = 0) : runGo (adpNext n s) = readIn 4 (.adpCrc n) s :=
  congrArg runGo (if_pos h)

theorem runGo_adpNext_overflow (h : s.idatRemain.toNat > 0x7FFFFFFF) :
    runGo (adpNext n s) = raise .idatLengthOverflow s.idatRemain s := by
  have hne : s.idatRemain ≠ 0 := fun h0 => by rw [h0] at h; exact absurd h (by decide)
  exact congrArg runGo ((if_neg hne).trans (if_pos h))

theorem runGo_adpNext_data (hne : s.idatRemain ≠ 0) (hle : s.idatRemain.toNat ≤ 0x7FFFFFFF) :
    runGo (adpNext n s) = readIn (min n.toNat s.idatRemain.toNat) (.adpData n) s :=
  congrArg runGo ((if_neg hne).trans (if_neg (not_lt.mpr hle)))

theorem toNat_pos_of_ne_zero {w : Word} (h : w ≠ 0) : 1 ≤ w.toNat :=
  Nat.pos_of_ne_zero fun h0 => h (BitVec.eq_of_toNat_eq h0)

theorem readIn_adpData {d rest : List Byte} (hq : s.inp.q = d ++ rest) (hpos : 1 ≤ d.length)
    (hle : d.length ≤ s.idatRemain.toNat) : readIn d.length (.adpData n) s = { withIn s rest with
      crc := crcFeed s.crc d, idatRemain := BitVec.ofNat 32 (s.idatRemain.toNat - d.length)
      adp := none, fr := .idle, outputs := s.outputs ++ [.adpResponse d true] } := by
  have hsub : s.idatRemain - BitVec.ofNat 32 d.length = BitVec.ofNat 32 (s.idatRemain.toNat - d.length) := by
    have hlt := s.idatRemain.isLt
    refine BitVec.eq_of_toNat_eq ?_
    rw [BitVec.toNat_sub, BitVec.toNat_ofNat, BitVec.toNat_ofNat]
    omega
  rw [readIn_eq_afterRead _ hq rfl hpos, ← hsub]
  rfl

theorem readIn_adpCrc_wrong {c rest : List Byte} (hq : s.inp.q = c ++ rest) (hc : c.length = 4)
    (hne : c ≠ be32Bytes s.crcValue) :
    readIn 4 (.adpCrc n) s = raise .checksumMismatch (be32At c 0) (withIn s rest) := by
  rw [readIn_eq_afterRead _ hq hc (by decide), afterRead, afterAdpCrc,
    verifyChecksum_wrong (s := withIn s rest) hc hne, runGo_goRaise]

theorem readIn_adpCrc_right {rest : List Byte} (hq : s.inp.q = be32Bytes s.crcValue ++ rest) :
    readIn 4 (.adpCrc n) s = readIn 8 (.adpHeader n) (withIn s rest) := by
  rw [readIn_eq_afterRead _ hq (be32Bytes_length _) (by decide), afterRead, afterAdpCrc]
  exact congrArg runGo (verifyChecksum_right (withIn s rest) _)

theorem readIn_adpHeader_other {len : Word} {tag rest : List Byte} (hq : s.inp.q = be32Bytes len ++ tag ++ rest)
    (htag : tag.length = 4) (hne : tag ≠ tagIdat) :
    readIn 8 (.adpHeader n) s = raise .notEnoughPixelData (be32At tag 0)
      { withIn s rest with chunkLen := len, chunkTag := be32At tag 0 } := by
  rw [readIn_chunkHead _ hq htag, afterRead, afterAdpHeader]
  simp only [be32At_be32Bytes_append, drop_four_be32Bytes_append, be32At_be32Bytes_append_four]
  rw [if_pos hne, runGo_goRaise]

theorem readIn_adpHeader_idat {len : Word} {rest : List Byte} (hq : s.inp.q = be32Bytes len ++ tagIdat ++ rest) :
    readIn 8 (.adpHeader n) s = runGo (adpNext n { withIn s rest with
      chunkLen := len, chunkTag := 0x49444154, idatRemain := len, crc := 0xCA50F9E1 }) := by
  rw [readIn_chunkHead _ hq rfl, afterRead, afterAdpHeader]
  simp only [be32At_be32Bytes_append, drop_four_be32Bytes_append, be32At_be32Bytes_append_four, ne_eq,
    not_true_eq_false, if_false, crcFeed_tagIdat]
  rfl

end

/-- Settles O22: the checks of R230 in their order, then one `ReadIn` of the bytes the chunk has. -/
theorem adpReadDeliversPayload : Obligations.AdpReadDeliversPayload := by
  refine ⟨fun n s => exec_adpRead_invalid n, fun n s hvalid => exec_adpRead_badState n hvalid,
    fun s => exec_adpRead_zero, fun n s d rest hvalid hmode hstage hn hne hle hlen hq => ?data,
    fun n s hvalid hmode hstage hn hover => ?overflow⟩
  case data =>
    have hpos := toNat_pos_of_ne_zero hn
    have hremain := toNat_pos_of_ne_zero hne
    rw [exec_adpRead_serves hvalid hmode hstage hn, runGo_adpNext_data n (s := servesAdp n s) hne hle]
    have hread := readIn_adpData n (s := servesAdp n s) hq (by omega) (by rw [hlen]; exact Nat.min_le_right ..)
    rw [hlen] at hread
    rw [hlen]
    exact congrArg _ hread
  case overflow =>
    rw [exec_adpRead_serves hvalid hmode hstage hn, runGo_adpNext_overflow n (s := servesAdp n s) hover]
    rfl

/-- Settles O23: one turn of R230's loop, from the exhausted chunk's CRC to the next chunk's header. -/
theorem adpReadCrossesIntoTheNextChunk : Obligations.AdpReadCrossesIntoTheNextChunk := by
  intro n s rest hvalid hmode hstage hn hzero
  have hstart := exec_adpRead_serves hvalid hmode hstage hn
  rw [runGo_adpNext_exhausted n (s := servesAdp n s) hzero] at hstart
  refine ⟨fun len hq => ?enters, fun len tag hq htag hne => ?otherTag, fun c hq hc hne => ?wrongCrc⟩
  case enters =>
    rw [hstart, readIn_adpCrc_right n (s := servesAdp n s) hq, readIn_adpHeader_idat n rfl,
      exec_adpRead_serves (s := { withIn s rest with
        chunkLen := len, chunkTag := 0x49444154, idatRemain := len, crc := 0xCA50F9E1 }) hvalid hmode hstage hn]
    rfl
  case otherTag =>
    rw [hstart, readIn_adpCrc_right n (s := servesAdp n s) hq, readIn_adpHeader_other n rfl htag hne]
    rfl
  case wrongCrc =>
    rw [hstart, readIn_adpCrc_wrong n (s := servesAdp n s) hq hc hne]
    rfl

/-- Settles O24: the request is taken up by an idle FR only, and a serving FR is busy. -/
theorem adpServiceAndCommandsExcludeEachOther : Obligations.AdpServiceAndCommandsExcludeEachOther := by
  refine ⟨fun s hbusy => ?busy, fun s n hidle hadp => ?idle, fun s w i hvalid hserv hdec hfr => ?command⟩
  case busy =>
    cases hfr : s.fr with
    | idle => exact absurd hfr hbusy
    | accepted i => simp only [perform, frServe, hfr]
    | reading need got p => simp only [perform, frServe, hfr]
    | flushing => simp only [perform, frServe, hfr]
  case idle => simp only [perform, frServe, hidle, hadp, decode]
  case command =>
    have hbusy : s.fr ≠ .idle := fun h => by rw [h] at hserv; cases hserv
    exact ((frGate_of_decodeCmd hdec hfr).2 s).2.1 hvalid hbusy

end Sys2Proof.Proofs
end

section
/-! Proofs about a `ReadIn` that IN runs dry on (20_memory.md R102, R105). -/

namespace Sys2Proof.Proofs
open Sys2Proof.Machine Sys2Proof.Claims

/-- FR's step from a hold is its segment over the bytes of IN. -/
theorem perform_frRun_reading {s : State} {need : Nat} {got : List Byte} {p : FrPoint}
    (hfr : s.fr = .reading need got p) : perform .frRun s = .next (readLoop s.inp.q need got p s) := by
  simp only [perform, frRun, hfr]

/-- Settles O25: from a hold and at each command's first `ReadIn` the segment is one short read. -/
theorem readInHoldsOrEnds : Obligations.ReadInHoldsOrEnds := by
  refine ⟨fun s need got p hfr hshort => ?hold, fun s hready hshort => ⟨?step, ?openSigned⟩,
    fun s hmode hsig hstage hshort => ?openUnsigned, fun s hmode hstage hshort => ?close,
    fun s n hvalid hmode hstage hn => ⟨fun hzero hshort => ?adpCrc, fun hne hle hshort => ?adpData⟩⟩
  case hold =>
    have hrun := (perform_frRun_reading hfr).trans (congrArg _ (readLoop_short _ need got p s rfl hshort))
    refine ⟨fun heos => ?_, fun hopen => ?_, fun hopen hnil => ?_⟩
    · rw [hrun, if_pos heos]
      rfl
    · rw [hrun, if_neg (Bool.eq_false_iff.mp hopen)]
      rfl
    · rw [hrun, if_neg (Bool.eq_false_iff.mp hopen), hnil, List.length_nil, Nat.sub_zero, List.append_nil, ← hfr, ← hnil]
  case step => rw [exec_frStep_ready hready, readIn_eq_shortRead _ hshort]
  case openSigned => rw [exec_frOpen_signed hready, readIn_eq_shortRead _ hshort]
  case openUnsigned => rw [exec_frOpen_unsigned hmode hsig hstage, readIn_eq_shortRead _ hshort]
  case close => rw [exec_frClose_reads hmode hstage, readIn_eq_shortRead (s := s.emit .infClose) _ hshort]
  case adpCrc =>
    rw [exec_adpRead_serves hvalid hmode hstage hn, runGo_adpNext_exhausted n (s := servesAdp n s) hzero,
      readIn_eq_shortRead (s := servesAdp n s) _ hshort]
    rfl
  case adpData =>
    rw [exec_adpRead_serves hvalid hmode hstage hn, runGo_adpNext_data n (s := servesAdp n s) hne hle]
    exact congrArg _ (readIn_eq_shortRead (s := servesAdp n s) _ hshort)

end Sys2Proof.Proofs
end

section
/-! Proofs about FW_FLUSH's loop and the segmenter (42_framer_encode.md R262, R272, R273). -/

namespace Sys2Proof.Proofs
open Sys2Proof.Machine Sys2Proof.Claims

/-! ### One byte into the segment buffer -/

theorem segPush_open {s : State} {b : Byte} (h : s.seg.length + 1 ≠ s.segMax.toNat) :
    s.segPush b = { s with seg := s.seg ++ [b] } :=
  if_neg (by simpa using h)

theorem segPush_full {s : State} {b : Byte} (h : s.seg.length + 1 = s.segMax.toNat) :
    s.segPush b = State.emitIdat { s with seg := s.seg ++ [b] } :=
  if_pos (by simpa using h)

/-- `s` with what the segmenter does not look at replaced: IN and the record of what was signalled. -/
def unsegmented (i : Fifo) (o : List Output) (s : State) : State := { s with inp := i, outputs := o }

theorem segPush_unsegmented (i : Fifo) (o : List Output) (s : State) (b : Byte) :
    (unsegmented i o s).segPush b = unsegmented i o (s.segPush b) := by
  by_cases h : s.seg.length + 1 = s.segMax.toNat
  · rw [segPush_full h, segPush_full (s := unsegmented i o s) h]
    rfl
  · rw [segPush_open h, segPush_open (s := unsegmented i o s) h]
    rfl

/-- `s` with FW_FLUSH completed (R273). -/
def flushMarked (s : State) : State := { s with estage := .flushed }.frDone 0

/-- The end of FW_FLUSH with nothing left to write (R273). -/
theorem flushEnd_written {s : State} (h : ¬ (s.seg.length > 0 ∨ s.idatCount = 0)) : flushEnd s = flushMarked s :=
  congrArg flushMarked (if_neg h)

/-- The end of FW_FLUSH with a last data chunk to write (R273, R262). -/
theorem flushEnd_emits {s : State} (h : s.seg.length > 0 ∨ s.idatCount = 0) : flushEnd s = flushMarked s.emitIdat :=
  congrArg flushMarked (if_pos h)

theorem flushEnd_unsegmented (i : Fifo) (o : List Output) (s : State) :
    flushEnd (unsegmented i o s) = unsegmented i o (flushEnd s) := by
  by_cases h : s.seg.length > 0 ∨ s.idatCount = 0
  · rw [flushEnd_emits h, flushEnd_emits (s := unsegmented i o s) h]
    rfl
  · rw [flushEnd_written h, flushEnd_written (s := unsegmented i o s) h]
    rfl

theorem flushLoop_unsegmented (i : Fifo) (o : List Output) (q : List Byte) (s : State) :
    flushLoop q (unsegmented i o s) = unsegmented i o (flushLoop q s) := by
  induction q generalizing s with
  | nil =>
    rw [flushLoop_nil, flushLoop_nil]
    by_cases heos : s.cz.eos = true
    · rw [if_pos heos, if_pos (show (unsegmented i o s).cz.eos = true from heos), flushEnd_unsegmented]
    · rw [if_neg heos, if_neg (show ¬ (unsegmented i o s).cz.eos = true from heos)]
      rfl
  | cons b q ih =>
    rw [flushLoop_cons, flushLoop_cons, ← ih, ← segPush_unsegmented]
    rfl

theorem segPush_cz (s : State) (b : Byte) : (s.segPush b).cz = s.cz := by
  by_cases h : s.seg.length + 1 = s.segMax.toNat
  · rw [segPush_full h]
    rfl
  · rw [segPush_open h]

/-- FW_FLUSH's loop ends with FR idle, or holding on a drained open CZ. -/
theorem flushLoop_leaves (q : List Byte) {s : State} (hq : s.cz.q = q) :
    (flushLoop q s).fr = .idle ∨ (flushLoop q s).fr = .flushing ∧ (flushLoop q s).cz = ⟨[], false⟩ := by
  induction q generalizing s with
  | nil =>
    rw [flushLoop_nil]
    cases heos : s.cz.eos with
    | true => exact .inl rfl
    | false =>
      rw [if_neg (by decide)]
      exact .inr ⟨rfl, by rw [← hq, ← heos]⟩
  | cons b q ih =>
    rw [flushLoop_cons]
    exact ih (by rw [segPush_cz])

/-! ### The segmenter step -/

theorem segmenterEnabled_iff (s : State) : s.segmenterEnabled = true ↔
    s.fr = .idle ∧ s.mode = .encode ∧ s.estage = .header ∧ s.err = none ∧ s.cz.q ≠ [] := by
  simp [State.segmenterEnabled, and_assoc]

theorem segmenterStep_disabled {s : State} (h : ¬ s.segmenterEnabled = true) : segmenterStep s = s :=
  if_neg h

theorem segmenterStep_enabled {s : State} (h : s.segmenterEnabled = true) {b : Byte} {q : List Byte}
    (hq : s.cz.q = b :: q) : segmenterStep s = { s with cz := { s.cz with q := q } }.segPush b := by
  rw [segmenterStep, if_pos h, hq]

/-- Settles O31: where the step is enabled it is one `segPush`, and elsewhere nothing. -/
theorem segmenterTakesOneByte : Obligations.SegmenterTakesOneByte := by
  intro s b q
  refine ⟨fun hfr hmode hstage herr hq => ?_, fun hoff => congrArg _ (segmenterStep_disabled fun hon => ?_)⟩
  · have hon : s.segmenterEnabled = true :=
      (segmenterEnabled_iff s).mpr ⟨hfr, hmode, hstage, herr, by rw [hq]; exact List.cons_ne_nil b q⟩
    have hstep : perform .frSegment s = .next ({ s with cz := { s.cz with q := q } }.segPush b) :=
      congrArg _ (segmenterStep_enabled hon hq)
    have hmax : s.seg.length + 1 = s.segMax.toNat → BitVec.ofNat 32 (s.seg ++ [b]).length = s.segMax := fun h => by
      rw [List.length_append, List.length_singleton, h, BitVec.ofNat_toNat, BitVec.setWidth_eq]
    refine ⟨fun h => ?room, fun h hcount => ?counts, fun h hcount => ?saturates⟩
    case room => rw [hstep, segPush_open (s := { s with cz := { s.cz with q := q } }) h]
    case counts =>
      rw [hstep, segPush_full (s := { s with cz := { s.cz with q := q } }) h, ← hmax h, ← crcFeed_tagIdat]
      simp only [State.emitIdat, State.writeChunk, saturatingSucc, if_neg hcount]
      rfl
    case saturates =>
      rw [hstep, segPush_full (s := { s with cz := { s.cz with q := q } }) h, ← hmax h, ← crcFeed_tagIdat]
      simp only [State.emitIdat, State.writeChunk, saturatingSucc, hcount, if_true]
      rfl
  · obtain ⟨hfr, hmode, hstage, herr, hq⟩ := (segmenterEnabled_iff s).mp hon
    simp [hfr, hmode, hstage, herr, hq] at hoff

/-! ### FW_FLUSH -/

theorem decodeCmd_fwFlushWord : decodeCmd 0x32000000 = .instr .fwFlush := by decide

theorem exec_fwFlush_badState {s : State} (h : s.mode ≠ .encode ∨ s.estage ≠ .header ∨ s.rowY ≠ s.height) :
    exec .fwFlush s = .next (raise .badState 0x32 s) := by
  refine congrArg Host.Outcome.next ?_
  by_cases hstage : s.mode ≠ .encode ∨ s.estage ≠ .header
  · exact if_pos hstage
  · rw [if_neg hstage, if_pos ((or_assoc.mpr h).resolve_left hstage)]

theorem exec_fwFlush_flushes {s : State} (hmode : s.mode = .encode) (hstage : s.estage = .header)
    (hrows : s.rowY = s.height) : exec .fwFlush s = .next (flushLoop s.cz.q (s.emit .defClose)) :=
  congrArg Host.Outcome.next ((if_neg (by simp [hmode, hstage])).trans (if_neg (not_not.mpr hrows)))

theorem perform_frRun_flushing {s : State} (hfr : s.fr = .flushing) :
    perform .frRun s = .next (flushLoop s.cz.q s) := by
  simp only [perform, frRun, hfr]

theorem count_eq_zero {w : Word} {k : Nat} (h : BitVec.ofNat 32 (min (w.toNat + k) 0xFFFFFFFF) = 0) :
    w = 0 ∧ k = 0 := by
  have hnat : min (w.toNat + k) 0xFFFFFFFF % 2 ^ 32 = 0 := by
    rw [← BitVec.toNat_ofNat, h]
    rfl
  have hzero : w.toNat = 0 ∧ k = 0 := by omega
  exact ⟨BitVec.eq_of_toNat_eq hzero.1, hzero.2⟩

theorem count_succ (w : Word) (k : Nat) :
    saturatingSucc (BitVec.ofNat 32 (min (w.toNat + k) 0xFFFFFFFF)) =
      BitVec.ofNat 32 (min (w.toNat + (k + 1)) 0xFFFFFFFF) := by
  rw [saturatingSucc_eq, BitVec.toNat_ofNat]
  congr 1
  omega

/-- One segment of the loop, from its start or a hold: the chunks are the full ones of `flushLoop_takes` and, on an ended
CZ, the last one of `flushEnd`. -/
theorem flushLoop_flushSegment {s : State} (hseg : s.seg.length < s.segMax.toNat) :
    FlushSegment s (flushLoop s.cz.q s) := by
  obtain ⟨u, cs, hloop, hcz, hbytes, hfull, hroom, hregs, hu⟩ := flushLoop_takes s.cz.q s rfl hseg
  have hout : u.out = { s.out with q := s.out.q ++ (cs.map (chunkBytes tagIdat)).flatten } := by rw [hu]
  have hcount : u.idatCount = BitVec.ofNat 32 (min (s.idatCount.toNat + cs.length) 0xFFFFFFFF) := by rw [hu]
  have hnonempty : ∀ c ∈ cs, c ≠ [] := fun c hc h0 => by
    have hlen := hfull c hc
    rw [h0, List.length_nil] at hlen
    omega
  rw [crcFeed_tagIdat] at hregs
  rw [hloop]
  cases heos : s.cz.eos with
  | false =>
    refine ⟨by rw [← hcz]; rfl, fun _ => ⟨rfl, by rw [hu]; rfl, by rw [hu]; rfl, hroom⟩, fun h => absurd h (by simp [heos]),
      ⟨cs, hbytes, hout, hcount, hregs, fun _ => hfull, fun h => absurd h (by simp [heos])⟩, by rw [hu]; rfl⟩
  | true =>
    rw [if_pos rfl]
    by_cases hlast : u.seg.length > 0 ∨ u.idatCount = 0
    · rw [flushEnd_emits hlast]
      refine ⟨hcz, fun h => absurd h (by simp [heos]), fun _ => ⟨rfl, rfl, rfl, rfl⟩,
        ⟨cs ++ [u.seg], ?bytes, ?out, ?count, ?regs, fun h => absurd h (by simp [heos]), fun _ => ⟨?full, ?last, ?some⟩⟩,
        by rw [hu]; rfl⟩
      case bytes =>
        rw [List.flatten_concat]
        exact (List.append_nil _).trans hbytes
      case out =>
        change u.out.append (chunkBytes tagIdat u.seg) = _
        rw [hout, List.map_append, List.flatten_append, ← List.append_assoc]
        simp [Fifo.append]
      case count =>
        rw [List.length_append, List.length_singleton, ← count_succ, ← hcount]
        rfl
      case regs =>
        rw [List.getLast?_concat, ← crcFeed_tagIdat]
        rfl
      case full => rwa [List.dropLast_concat]
      case last =>
        intro c hc
        rcases List.mem_append.mp hc with hc | hc
        · exact ⟨(hfull c hc).le, fun h0 => absurd h0 (hnonempty c hc)⟩
        · rw [List.mem_singleton.mp hc]
          refine ⟨hroom.le, fun h0 => ?_⟩
          obtain ⟨hzero, hnone⟩ := count_eq_zero (hcount ▸ hlast.resolve_left (by rw [h0]; decide))
          rw [List.length_eq_zero_iff.mp hnone, h0]
          exact ⟨rfl, hzero⟩
      case some => exact fun _ => by simp
    · obtain ⟨hlen, hne⟩ := not_or.mp hlast
      have hempty : u.seg = [] := List.length_eq_zero_iff.mp (by omega)
      rw [flushEnd_written hlast]
      refine ⟨hcz, fun h => absurd h (by simp [heos]), fun _ => ⟨rfl, rfl, rfl, hempty⟩,
        ⟨cs, hbytes, hout, hcount, hregs, fun h => absurd h (by simp [heos]),
          fun _ => ⟨fun c hc => hfull c (List.mem_of_mem_dropLast hc), ?last, ?some⟩⟩, by rw [hu]; rfl⟩
      case last => exact fun c hc => ⟨(hfull c hc).le, fun h0 => absurd h0 (hnonempty c hc)⟩
      case some =>
        intro hzero hnil
        rw [hcount, hzero, hnil] at hne
        exact hne rfl

/-- Settles O30: FW_FLUSH past its state checks, and FR's step from its hold, are each one segment of the loop. -/
theorem fwFlushWritesTheRestOfTheStream : Obligations.FwFlushWritesTheRestOfTheStream := by
  refine ⟨frGate_of_decodeCmd decodeCmd_fwFlushWord target_fwFlush, fun s => ⟨exec_fwFlush_badState,
    fun hmode hstage hrows hseg => ?start, fun hfr hseg => ?hold, fun hfr hcz => ?waits⟩⟩
  case start =>
    exact ⟨_, exec_fwFlush_flushes hmode hstage hrows, flushLoop_flushSegment (s := s.emit .defClose) hseg⟩
  case hold => exact ⟨_, perform_frRun_flushing hfr, flushLoop_flushSegment hseg⟩
  case waits =>
    rw [perform_frRun_flushing hfr, hcz, flushLoop_nil, hcz, if_neg (by decide), ← hfr, ← hcz]

theorem segPush_frame (s : State) (b : Byte) : s.segPush b = { s with
    seg := (s.segPush b).seg, out := (s.segPush b).out, idatCount := (s.segPush b).idatCount
    chunkLen := (s.segPush b).chunkLen, chunkTag := (s.segPush b).chunkTag, crc := (s.segPush b).crc } := by
  by_cases h : s.seg.length + 1 = s.segMax.toNat
  · rw [segPush_full h]
    rfl
  · rw [segPush_open h]

/-- Settles O32: the segmenter step is the first turn of FW_FLUSH's loop. -/
theorem segmenterStepBeforeFlushIsInvisible : Obligations.SegmenterStepBeforeFlushIsInvisible := by
  intro s hon hrows
  obtain ⟨-, hmode, hstage, -, hne⟩ := (segmenterEnabled_iff s).mp hon
  obtain ⟨b, q, hq⟩ := List.exists_cons_of_ne_nil hne
  have hframe := segPush_frame { s with cz := { s.cz with q := q } } b
  rw [segmenterStep_enabled hon hq, exec_fwFlush_flushes hmode hstage hrows,
    exec_fwFlush_flushes (by rw [hframe]; exact hmode) (by rw [hframe]; exact hstage) (by rw [hframe]; exact hrows),
    segPush_cz, hq, flushLoop_cons]
  have hemit := segPush_unsegmented s.inp (s.outputs ++ [.defClose]) { s with cz := { s.cz with q := q } } b
  refine congrArg (fun t => Host.Outcome.next (flushLoop q t)) (Eq.trans ?_ hemit.symm)
  rw [hframe]
  rfl

end Sys2Proof.Proofs
end

section
/-! Proofs about bytes that arrive in pieces (20_memory.md R102, R120, R121), for FR and IN. -/

namespace Sys2Proof.Proofs
open Sys2Proof.Machine Sys2Proof.Claims

/-- The bytes HOST pushes to an open IN stand behind those it holds (R104). -/
theorem runEvents_pushIn (d : List Byte) (es : List Event) {s : State} (hopen : s.inp.eos = false) :
    runEvents (d.map Event.pushIn ++ es) s = runEvents es { s with inp := ⟨s.inp.q ++ d, false⟩ } := by
  induction d generalizing s with
  | nil => simp [← hopen]
  | cons b d ih =>
    have hpush : perform (.pushIn b) s = .next { s with inp := ⟨s.inp.q ++ [b], false⟩ } := by
      simp [perform, Fifo.push, hopen]
    rw [List.map_cons, List.cons_append, runEvents_cons hpush, ih rfl]
    simp

/-- HOST pushes `d` to an open IN, and either leaves it open or ends it; then FR runs. -/
theorem runEvents_inArrives (d : List Byte) {s : State} (hopen : s.inp.eos = false) :
    runEvents (d.map Event.pushIn ++ [.frRun]) s = frRun { s with inp := ⟨s.inp.q ++ d, false⟩ } ∧
    runEvents (d.map Event.pushIn ++ [.endIn, .frRun]) s = frRun { s with inp := ⟨s.inp.q ++ d, true⟩ } := by
  refine ⟨(runEvents_pushIn d _ hopen).trans (runEvents_singleton _ _), (runEvents_pushIn d _ hopen).trans ?_⟩
  exact (runEvents_cons rfl _).trans (runEvents_singleton _ _)

/-- FR's segment over IN with `d` already there is its segment without `d`, and FR's next step once `d` is there. -/
theorem readLoop_pieces (d : List Byte) (e : Bool) (need : Nat) (got : List Byte) (p : FrPoint) {s t : State}
    (hserv : p.servs = s.fr.serving) (hopen : s.inp.eos = false) (ht : readLoop s.inp.q need got p s = t) :
    t.inp.eos = false ∧
      Host.Outcome.next (readLoop (s.inp.q ++ d) need got p { s with inp := ⟨s.inp.q ++ d, e⟩ }) =
        frRun { t with inp := ⟨t.inp.q ++ d, e⟩ } := by
  have heos := readLoop_eos s.inp.q need got p s rfl
  have hfr := readLoop_idle_or_holding s.inp.q need got p s rfl
  have hs : { s with inp := ⟨s.inp.q, false⟩ } = s := by rw [← hopen]
  have happ := readLoop_append s.inp.q d e need got p s hserv
  rw [hs, ht] at happ
  rw [ht] at heos hfr
  refine ⟨heos.trans hopen, ?_⟩
  rcases hfr with hidle | ⟨need', got', p', hread, hq⟩
  · simp only [hidle] at happ
    rw [happ]
    simp only [frRun, hidle]
  · simp only [hread] at happ
    rw [happ]
    simp only [frRun, hread, hq, List.nil_append]

/-- The first segment of `i` is over before it looks at IN: it leaves a state in which FR has no further step. -/
def StartsWithoutIn (i : Instr) (s : State) : Prop :=
  ∃ t : State, t.inp = s.inp ∧ (∀ z, exec i { s with inp := z } = .next { t with inp := z }) ∧
    ∀ z, frRun { t with inp := z } = .next { t with inp := z }

/-- The first segment of `i` comes to a `ReadIn` before it looks at IN. -/
def StartsWithReadIn (i : Instr) (s : State) : Prop :=
  ∃ k p, ∃ u : State, u.inp = s.inp ∧ p.servs = u.fr.serving ∧
    ∀ z, exec i { s with inp := z } = .next (readIn k p { u with inp := z })

theorem startsWithoutIn_of_idle {i : Instr} {s : State} (t : State) (hidle : t.fr = .idle) (hinp : t.inp = s.inp)
    (hexec : ∀ z, exec i { s with inp := z } = .next { t with inp := z }) : StartsWithoutIn i s :=
  ⟨t, hinp, hexec, fun z => by simp only [frRun, hidle]⟩

theorem startsWithoutIn_of_raise {i : Instr} {s : State} (r : Reason) (info : Word)
    (hexec : ∀ z, exec i { s with inp := z } = .next (raise r info { s with inp := z })) : StartsWithoutIn i s :=
  startsWithoutIn_of_idle (raise r info s) rfl rfl hexec

theorem startsWithoutIn_fwFlush (s : State) : StartsWithoutIn .fwFlush s := by
  by_cases h : s.mode ≠ .encode ∨ s.estage ≠ .header ∨ s.rowY ≠ s.height
  · exact startsWithoutIn_of_raise .badState 0x32 fun z => exec_fwFlush_badState (s := { s with inp := z }) h
  · obtain ⟨hmode, hstage, hrows⟩ : s.mode = .encode ∧ s.estage = .header ∧ s.rowY = s.height := by
      simpa [not_or] using h
    refine ⟨unsegmented s.inp (s.outputs ++ [.defClose]) (flushLoop s.cz.q s), rfl, fun z => ?_, fun z => ?_⟩
    · have hinp := flushLoop_unsegmented z (s.outputs ++ [Output.defClose]) s.cz.q s
      rw [exec_fwFlush_flushes (s := { s with inp := z }) hmode hstage hrows]
      exact congrArg _ hinp
    rcases flushLoop_leaves s.cz.q rfl with hidle | ⟨hflush, hcz⟩
    · simp only [frRun, unsegmented, hidle]
    · simp only [frRun, unsegmented, hflush, hcz, flushLoop_nil]
      rfl

/-- FW_IEND's last line does not look at IN, whatever chunk it follows. -/
theorem startsWithoutIn_chunkEnded {i : Instr} {s : State} (tag payload : List Byte)
    (hexec : ∀ z, exec i { s with inp := z } =
      .next ({ ({ s with inp := z } : State).writeChunk tag payload with estage := .ended }.frDone 0)) :
    StartsWithoutIn i s :=
  startsWithoutIn_of_idle ({ s.writeChunk tag payload with estage := .ended }.frDone 0) rfl rfl hexec

theorem exec_adpRead_start (n : Word) (s : State) :
    StartsWithoutIn (.adpRead n) s ∨ StartsWithReadIn (.adpRead n) s := by
  by_cases herr : s.err.isSome = true
  · exact .inl (startsWithoutIn_of_idle { s with
      adp := none, fr := .idle, outputs := s.outputs ++ [.adpResponse [] false] } rfl rfl fun z =>
        exec_adpRead_invalid n (s := { s with inp := z }) herr)
  have hvalid : s.err = none := by simpa using herr
  by_cases hstate : s.mode ≠ .decode ∨ s.dstage ≠ .seenData
  · exact .inl (startsWithoutIn_of_idle (raise .badState 0xAD (servesAdp n s)) rfl rfl fun z =>
      exec_adpRead_badState n (s := { s with inp := z }) hvalid hstate)
  obtain ⟨hmode, hstage⟩ : s.mode = .decode ∧ s.dstage = .seenData := by simpa [not_or] using hstate
  by_cases hn : n = 0
  · subst hn
    exact .inl (startsWithoutIn_of_idle { s with
      adp := none, fr := .idle, outputs := s.outputs ++ [.adpResponse [] true] } rfl rfl fun z =>
        exec_adpRead_zero (s := { s with inp := z }) hvalid hmode hstage)
  have hserves := fun z => exec_adpRead_serves (s := { s with inp := z }) hvalid hmode hstage hn
  by_cases hzero : s.idatRemain = 0
  · exact .inr ⟨4, .adpCrc n, servesAdp n s, rfl, rfl, fun z => (hserves z).trans
      (congrArg _ (runGo_adpNext_exhausted n (s := servesAdp n { s with inp := z }) hzero))⟩
  by_cases hover : s.idatRemain.toNat > 0x7FFFFFFF
  · exact .inl (startsWithoutIn_of_idle (raise .idatLengthOverflow s.idatRemain (servesAdp n s)) rfl rfl fun z =>
      (hserves z).trans (congrArg _ (runGo_adpNext_overflow n (s := servesAdp n { s with inp := z }) hover)))
  · exact .inr ⟨min n.toNat s.idatRemain.toNat, .adpData n, servesAdp n s, rfl, rfl, fun z => (hserves z).trans
      (congrArg _ (runGo_adpNext_data n (s := servesAdp n { s with inp := z }) hzero (not_lt.mp hover)))⟩

/-- Before its first `ReadIn` no command of FR looks at IN (R120). -/
theorem exec_start {i : Instr} (htarget : i.target = .fr) {s : State} (hfr : s.fr = .accepted i) :
    StartsWithoutIn i s ∨ StartsWithReadIn i s := by
  cases i with
  | nop => simp at htarget
  | sessionReset m => simp at htarget
  | feRecon => simp at htarget
  | feApply f => simp at htarget
  | crcInit => exact .inl (startsWithoutIn_of_idle ({ s with crc := crcStart }.frDone 0) rfl rfl fun _ => rfl)
  | crcByte b =>
    exact .inl (startsWithoutIn_of_idle ({ s with crc := crcFeedByte s.crc b }.frDone 0) rfl rfl fun _ => rfl)
  | frSig =>
    by_cases h : s.mode ≠ .decode ∨ s.sigOk = true ∨ s.dstage ≠ .start
    · exact .inl (startsWithoutIn_of_raise .badState 0x20 fun z => congrArg _ (if_pos h))
    · exact .inr ⟨8, .sig false, s, rfl, by rw [hfr]; rfl, fun z => congrArg _ (if_neg h)⟩
  | frStep =>
    by_cases h : s.mode ≠ .decode ∨ s.sigOk = false ∨ ¬ (s.dstage = .start ∨ s.dstage = .seenHeader)
    · exact .inl (startsWithoutIn_of_raise .badState 0x21 fun z => congrArg _ (if_pos h))
    · exact .inr ⟨8, .header false, s, rfl, by rw [hfr]; rfl, fun z => congrArg _ (if_neg h)⟩
  | frOpen =>
    by_cases h : s.mode ≠ .decode ∨ ¬ (s.dstage = .start ∨ s.dstage = .seenHeader)
    · exact .inl (startsWithoutIn_of_raise .badState 0x22 fun z => congrArg _ (if_pos h))
    · by_cases hsig : s.sigOk = false
      · exact .inr ⟨8, .sig true, s, rfl, by rw [hfr]; rfl, fun z => congrArg _ ((if_neg h).trans (if_pos hsig))⟩
      · exact .inr ⟨8, .header true, s, rfl, by rw [hfr]; rfl, fun z => congrArg _ ((if_neg h).trans (if_neg hsig))⟩
  | frClose =>
    by_cases hmode : s.mode = .decode
    · by_cases hend : s.dstage = .seenEnd
      · exact .inl (startsWithoutIn_of_idle { s with frResult := 1, fr := .idle } rfl rfl fun z =>
          exec_frClose_repeated (s := { s with inp := z }) hmode hend)
      · by_cases hdata : s.dstage = .seenData
        · exact .inr ⟨4, .closeDataCrc, s.emit .infClose, rfl, by rw [emit_fr, hfr]; rfl, fun z =>
            exec_frClose_reads (s := { s with inp := z }) hmode hdata⟩
        · refine .inl (startsWithoutIn_of_raise .badState 0x23 fun z =>
            exec_frClose_badState (s := { s with inp := z }) (.inr ?_))
          cases hstage : s.dstage <;> simp_all
    · exact .inl (startsWithoutIn_of_raise .badState 0x23 fun z =>
        exec_frClose_badState (s := { s with inp := z }) (.inl hmode))
  | fwSig =>
    by_cases h : s.mode ≠ .encode ∨ s.estage ≠ .start
    · exact .inl (startsWithoutIn_of_raise .badState 0x30 fun z => congrArg _ (if_pos h))
    · exact .inl (startsWithoutIn_of_idle
        ({ s with out := s.out.append sigBytes, sigOk := true, estage := .sig }.frDone 0) rfl rfl
        fun z => congrArg _ (if_neg h))
  | fwIhdr =>
    by_cases h : s.mode ≠ .encode ∨ s.estage ≠ .sig
    · exact .inl (startsWithoutIn_of_raise .badState 0x31 fun z => congrArg _ (if_pos h))
    · obtain ⟨hmode, hstage⟩ : s.mode = .encode ∧ s.estage = .sig := by simpa [not_or] using h
      cases hcheck : encodeCheck s.params s.width s.height with
      | some e => exact .inl (startsWithoutIn_of_raise e.1 e.2 fun z =>
          exec_fwIhdr_raises (s := { s with inp := z }) hmode hstage hcheck)
      | none => exact .inl (startsWithoutIn_of_idle (writeHeader s) rfl rfl fun z =>
          exec_fwIhdr_writes (s := { s with inp := z }) hmode hstage hcheck)
  | fwFlush => exact .inl (startsWithoutIn_fwFlush s)
  | fwIend =>
    by_cases h : s.mode ≠ .encode ∨ s.estage ≠ .flushed
    · exact .inl (startsWithoutIn_of_raise .badState 0x33 fun z => congrArg _ (if_pos h))
    · obtain ⟨hmode, hstage⟩ : s.mode = .encode ∧ s.estage = .flushed := by simpa [not_or] using h
      exact .inl (startsWithoutIn_chunkEnded tagIend [] fun z =>
        exec_fwIend_writes (s := { s with inp := z }) hmode hstage)
  | adpRead n => exact exec_adpRead_start n s

/-- What FR does in one step with all of `d` in IN, it does in two with `d` arriving between them. -/
theorem frRun_pieces (d : List Byte) (e : Bool) {s : State} (hopen : s.inp.eos = false)
    (hfr : (∃ need got p, s.fr = .reading need got p) ∨ ∃ i, s.fr = .accepted i ∧ i.target = .fr) :
    ∃ t, frRun s = .next t ∧ t.inp.eos = false ∧
      frRun { s with inp := ⟨s.inp.q ++ d, e⟩ } = frRun { t with inp := ⟨t.inp.q ++ d, e⟩ } := by
  rcases hfr with ⟨need, got, p, hread⟩ | ⟨i, hacc, htarget⟩
  · obtain ⟨heos, hrun⟩ := readLoop_pieces d e need got p (by rw [hread, serving_reading]) hopen rfl
    exact ⟨_, by simp only [frRun, hread], heos, by rw [← hrun]; simp only [frRun, hread]⟩
  · have hexec : ∀ z, frRun { s with inp := z } = exec i { s with inp := z } := fun z => by simp only [frRun, hacc]
    rcases exec_start htarget hacc with ⟨t, hinp, hrun, hrest⟩ | ⟨k, p, u, hinp, hserv, hrun⟩
    · refine ⟨t, (hexec s.inp).trans ((hrun s.inp).trans (by rw [← hinp])), hinp ▸ hopen, ?_⟩
      rw [hexec, hrun, hinp, hrest]
    · have hu : { u with inp := s.inp } = u := update_inp_same hinp
      obtain ⟨heos, hpieces⟩ := readLoop_pieces d e k [] p hserv (hinp ▸ hopen) rfl
      refine ⟨_, (hexec s.inp).trans ((hrun s.inp).trans (by rw [hu, readIn])), heos, ?_⟩
      rw [← hpieces, hexec, hrun, hinp, readIn]

/-- Settles O26: by the law of FR's segment over an appended IN. -/
theorem inputMayArriveInPieces : Obligations.InputMayArriveInPieces := by
  intro s d hopen hfr
  refine ⟨?pieces, ?piecesEnded⟩
  case pieces =>
    obtain ⟨t, ht, htopen, hrun⟩ := frRun_pieces d false hopen hfr
    rw [(runEvents_inArrives d hopen).1, List.append_assoc, List.singleton_append, runEvents_cons (e := .frRun) ht,
      (runEvents_inArrives d htopen).1, hrun]
  case piecesEnded =>
    obtain ⟨t, ht, htopen, hrun⟩ := frRun_pieces d true hopen hfr
    rw [(runEvents_inArrives d hopen).2, List.append_assoc, List.singleton_append, runEvents_cons (e := .frRun) ht,
      (runEvents_inArrives d htopen).2, hrun]

end Sys2Proof.Proofs
end

section
/-! Proofs about the CRC as a check (40_crc.md R189): every step of the accumulator can be undone. -/

namespace Sys2Proof.Proofs
open Sys2Proof.Machine Sys2Proof.Claims

/-- The bit a step shifts out comes back as the highest bit of the polynomial. -/
theorem crcBitStep_getLsbD_last (r : Word) : (crcBitStep r).getLsbD 31 = r.getLsbD 0 := by
  rw [crcBitStep]
  split
  next h => simp [h]
  next h => simpa using h

theorem shiftRight_one_injective {r r' : Word} (hbit : r.getLsbD 0 = r'.getLsbD 0) (h : r >>> 1 = r' >>> 1) :
    r = r' := by
  refine BitVec.eq_of_getLsbD_eq fun i _ => ?_
  cases i with
  | zero => exact hbit
  | succ i =>
    have hi := congrArg (BitVec.getLsbD · i) h
    simpa only [BitVec.getLsbD_ushiftRight, Nat.add_comm 1] using hi

theorem crcBitStep_injective : Function.Injective crcBitStep := by
  intro r r' h
  have hbit : r.getLsbD 0 = r'.getLsbD 0 := by rw [← crcBitStep_getLsbD_last, h, crcBitStep_getLsbD_last]
  refine shiftRight_one_injective hbit ?_
  rw [crcBitStep, crcBitStep, ← hbit] at h
  split at h
  · exact (BitVec.xor_left_inj _).mp h
  · exact h

theorem crcFeedByte_injective (b : Byte) : Function.Injective (crcFeedByte · b) := fun _ _ h =>
  (BitVec.xor_left_inj _).mp (crcBitStep_injective.iterate 8 h)

theorem crcFeed_injective (d : List Byte) : Function.Injective (crcFeed · d) := by
  induction d with
  | nil => exact fun _ _ h => h
  | cons b d ih => exact fun _ _ h => crcFeedByte_injective b (ih h)

theorem crcFeedByte_ne (r : Word) {x y : Byte} (hne : x ≠ y) : crcFeedByte r x ≠ crcFeedByte r y := by
  intro h
  have hwide : x.setWidth 32 = y.setWidth 32 := (BitVec.xor_right_inj _).mp (crcBitStep_injective.iterate 8 h)
  refine hne ?_
  have hback : ∀ b : Byte, (b.setWidth 32).setWidth 8 = b := fun b => by
    rw [BitVec.setWidth_setWidth_of_le b (by decide), BitVec.setWidth_eq]
  rw [← hback x, hwide, hback y]

/-- One changed byte changes the register from there on. -/
theorem crcFeed_ne (r : Word) (pre post : List Byte) {x y : Byte} (hne : x ≠ y) :
    crcFeed r (pre ++ x :: post) ≠ crcFeed r (pre ++ y :: post) := by
  rw [crcFeed, List.foldl_append, crcFeed, List.foldl_append]
  exact fun h => crcFeedByte_ne _ hne (crcFeed_injective post h)

/-- Settles O12: what follows the changed byte, and the final complement, keep two registers different. -/
theorem crcDetectsAChangedByte : Obligations.CrcDetectsAChangedByte := by
  refine ⟨fun pre post x y tag hne h => ?payload, fun pre post x y payload hne h => ?tag⟩
  case payload => exact crcFeed_ne _ pre post hne ((BitVec.xor_left_inj _).mp h)
  case tag => exact crcFeed_ne _ pre post hne (crcFeed_injective payload ((BitVec.xor_left_inj _).mp h))

/-- Settles O50: the table of R402, reason by reason. -/
theorem errorWordsOfTheTable : Obligations.ErrorWordsOfTheTable := by
  refine ⟨rfl, fun r e hrow => ?_⟩
  have htable : ∀ p : Reason × Word, p = (r, e) → errWord (some p.1) = p.2 := by
    simp only [List.mem_cons, Prod.mk.injEq, List.not_mem_nil, or_false] at hrow
    rintro p rfl
    rcases hrow with h | h | h | h | h | h | h | h | h | h | h | h | h | h | h | h | h | h | h | h | h | h <;>
      obtain ⟨rfl, rfl⟩ := h <;> rfl
  exact htable (r, e) rfl

theorem decodeCmd_crcInitWord : decodeCmd 0x10000000 = .instr .crcInit := by decide

theorem exec_crcInit (s : State) : exec .crcInit s = .next { s with crc := 0xFFFFFFFF, frResult := 0, fr := .idle } :=
  rfl

/-- Settles O10: the register's start value does not depend on what it held, and its complement is 0. -/
theorem crcInitResetsTheAccumulator : Obligations.CrcInitResetsTheAccumulator := by
  refine ⟨frGate_of_decodeCmd decodeCmd_crcInitWord target_crcInit, exec_crcInit, fun s t u ht hu => ?_⟩
  obtain rfl := Host.Outcome.next.inj ((exec_crcInit s).symm.trans ht)
  obtain rfl := Host.Outcome.next.inj ((exec_crcInit _).symm.trans hu)
  exact ⟨rfl, BitVec.xor_self⟩

end Sys2Proof.Proofs
end

section
/-! Proofs about the schedule and the dispatch (20_memory.md R120, 30_encoding.md R142). -/

namespace Sys2Proof.Proofs
open Sys2Proof.Machine Sys2Proof.Claims

/-- Settles O1: the decoder computes. -/
theorem wordsOfTheMapDecode : Obligations.WordsOfTheMapDecode := by
  unfold Obligations.WordsOfTheMapDecode
  decide

theorem exec_next (i : Instr) (s : State) : ∃ t, exec i s = .next t := by
  cases i <;> exact ⟨_, rfl⟩

theorem issue_next (w : Word) (s : State) : ∃ t, issue w s = .next t := by
  rw [issue]
  split
  · exact ⟨_, rfl⟩
  · split_ifs
    · exact exec_next _ s
    · exact ⟨_, rfl⟩
    · exact ⟨_, rfl⟩
    · exact ⟨_, rfl⟩

theorem regWrite_next (idx : BitVec 10) (w : Word) (s : State) : ∃ t, regWrite idx w s = .next t := by
  rw [regWrite]
  split
  · exact ⟨_, rfl⟩
  · split
    · exact issue_next w s
    · exact ⟨_, rfl⟩

theorem frRun_next (s : State) : ∃ t, frRun s = .next t := by
  rw [frRun]
  split
  · exact ⟨_, rfl⟩
  · exact exec_next _ s
  · exact ⟨_, rfl⟩
  · exact ⟨_, rfl⟩

theorem frServe_eq (s : State) : frServe s = .next s ∨
    ∃ n, s.fr = .idle ∧ s.adp = some n ∧ frServe s = exec (.adpRead n) s := by
  rw [frServe]
  split
  next n hidle hadp => exact .inr ⟨n, hidle, hadp, rfl⟩
  next => exact .inl rfl

theorem frServe_next (s : State) : ∃ t, frServe s = .next t := by
  rcases frServe_eq s with h | ⟨n, -, -, h⟩
  · exact ⟨s, h⟩
  · exact h ▸ exec_next _ s

theorem feRun_next (s : State) : ∃ t, feRun s = .next t := by
  rw [feRun]
  split
  · exact ⟨_, rfl⟩
  · exact exec_next _ s
  · exact ⟨_, rfl⟩

theorem perform_next (e : Event) (s : State) : ∃ t, perform e s = .next t := by
  cases e with
  | regWrite idx w => exact regWrite_next idx w s
  | frRun => exact frRun_next s
  | frServe => exact frServe_next s
  | feRun => exact feRun_next s
  | _ => exact ⟨_, rfl⟩

theorem step_of_sched {s : State} {e : Event} {rest : List Event} (h : s.sched = e :: rest) :
    step s = perform e { s with sched := rest } := by
  rw [step, h]

/-- Settles O7: every event answers a next state, by the kind of the event. -/
theorem everyStepAnswersANextState : Obligations.EveryStepAnswersANextState := by
  intro s
  cases h : s.sched with
  | nil => exact ⟨s, by rw [step, h]⟩
  | cons e rest => exact step_of_sched h ▸ perform_next e _

theorem perform_regWrite_cmd (w : Word) (s : State) : perform (.regWrite 2 w) s = issue w s := rfl

/-- The target of a CMD instruction is read off the high half of its opcode (R142). -/
theorem target_of_cmd {i : Instr} (hport : i.port = .cmd) : i.target =
    if i.opcode.extractLsb' 4 4 = 0 then .sys else if i.opcode.extractLsb' 4 4 = 4 then .fe else .fr :=
  if_neg (by rw [hport]; decide)

theorem extractLsb'_group {w : Word} {i : Instr} (h : decodeCmd w = .instr i) :
    w.extractLsb' 28 4 = i.opcode.extractLsb' 4 4 := by
  obtain ⟨-, hport, rfl⟩ := decodeCmd_eq_instr h
  rw [← opcOf_encode hport, opcOf]
  ext j hj
  simp [← Nat.add_assoc 24, show 4 + j < 8 by omega]

/-- Settles O6: SYS runs in the write, the other targets pass their agent's gate, and the target is the opcode's group. -/
theorem commandsAreDispatchedInOrder : Obligations.CommandsAreDispatchedInOrder := by
  refine ⟨fun s w => perform_regWrite_cmd w s, fun s w i hdec hsys => issue_eq_exec_of_target_sys hdec hsys s,
    fun w i => frGate_of_decodeCmd, fun w i => feGate_of_decodeCmd, fun w i hdec => ?_⟩
  obtain ⟨-, hport, -⟩ := decodeCmd_eq_instr hdec
  rw [extractLsb'_group hdec, target_of_cmd hport]
  split_ifs with hsys hfe
  · simp [hsys]
  · simp [hfe]
  · exact ⟨iff_of_false (by decide) hsys, iff_of_false (by decide) hfe⟩

theorem accept_sys {i : Instr} (h : i.target = .sys) (s : State) : accept i s = s := by rw [accept, h]

theorem accept_fr {i : Instr} (h : i.target = .fr) (s : State) : accept i s = { s with fr := .accepted i } := by
  rw [accept, h]

theorem accept_fe {i : Instr} (h : i.target = .fe) (s : State) : accept i s = { s with fe := .accepted i } := by
  rw [accept, h]

/-- FR's first step after an acceptance is the command (R142). -/
theorem frRun_accepted {s : State} {i : Instr} (h : s.fr = .accepted i) : frRun s = exec i s := by
  simp only [frRun, h]

theorem feRun_accepted {s : State} {i : Instr} (h : s.fe = .accepted i) : feRun s = exec i s := by
  simp only [feRun, h]

/-- A command's word placed by `placeWord` runs in the next step. -/
theorem step_placeWord_cmd {w : Word} {i : Instr} (hdec : decodeCmd w = .instr i) (s : State) :
    step (placeWord .cmd w s) = exec i (accept i s) := by
  cases htarget : i.target with
  | sys =>
    have hplace : placeWord .cmd w s = { s with sched := .regWrite 2 w :: s.sched } := by
      simp only [placeWord, hdec, htarget]
    rw [hplace, step_of_sched rfl, perform_regWrite_cmd, issue_eq_exec_of_target_sys hdec htarget, accept_sys htarget]
  | fr =>
    have hplace : placeWord .cmd w s = { accept i s with sched := .frRun :: s.sched } := by
      simp only [placeWord, hdec, htarget]
    rw [hplace, step_of_sched rfl, accept_fr htarget]
    rfl
  | fe =>
    have hplace : placeWord .cmd w s = { accept i s with sched := .feRun :: s.sched } := by
      simp only [placeWord, hdec, htarget]
    rw [hplace, step_of_sched rfl, accept_fe htarget]
    rfl

/-- Settles O4: each way a word is taken up, by the event that does it. -/
theorem stepRunsTheDecodedInstruction : Obligations.StepRunsTheDecodedInstruction := by
  refine ⟨fun s w i rest hsched hdec hsys => ?write, fun s i rest hsched hfr => ?fr, fun s i rest hsched hfe => ?fe,
    fun s n rest hsched hfr hadp => ?serve, fun s i hwf hport => ?placed, fun s => rfl⟩
  case write => rw [step_of_sched hsched, perform_regWrite_cmd, issue_eq_exec_of_target_sys hdec hsys]
  case fr => exact (step_of_sched hsched).trans (frRun_accepted hfr)
  case fe => exact (step_of_sched hsched).trans (feRun_accepted hfe)
  case serve =>
    rw [step_of_sched hsched]
    simp only [perform, frServe, hfr, hadp, decode]
  case placed =>
    have hword : BitVec.ofNat 32 ((encode i).toNat % 2 ^ 32) = encode i := by
      rw [Nat.mod_eq_of_lt (encode i).isLt, BitVec.ofNat_toNat, BitVec.setWidth_eq]
    rw [State.withFetchWord, hword]
    exact step_placeWord_cmd (decodeCmd_encode hwf hport) s

/-- Settles O5: a word with no instruction is rejected, and its issue is the raise. -/
theorem illegalWordsAreRecordedNotRun : Obligations.IllegalWordsAreRecordedNotRun := by
  intro s w hnone
  cases hdec : decodeCmd w with
  | instr i => exact absurd hdec (hnone i)
  | reject why =>
    obtain ⟨hraise, hignored⟩ := (illegalWord_of_decodeCmd_reject hdec).2 s
    exact ⟨fun herr => ⟨hraise herr, by simp [raise, herr], by simp [raise, herr], rfl, rfl⟩, hignored⟩

/-- Settles O49: the record's fields one by one; `raise` is an update of these fields. -/
theorem raiseRecordsTheFirstError : Obligations.RaiseRecordsTheFirstError := by
  intro r info s
  refine ⟨fun herr => ?first, fun herr => ?later, rfl, rfl, fun hserv => ?served, fun hserv => ?kept, rfl⟩
  case first => simp [raise, herr]
  case later =>
    obtain ⟨e, he⟩ := Option.ne_none_iff_exists'.mp herr
    simp [raise, he]
  case served => simp [raise, hserv]
  case kept => simp [raise, hserv]

end Sys2Proof.Proofs
end

section
/-! Proofs about the resets (10_state.md section 4, 44_system.md R341, 70_reset_and_hazards.md R440). -/

namespace Sys2Proof.Proofs
open Sys2Proof.Machine Sys2Proof.Claims

/-- Power-on is a reset to a decode session, from unspecified banks and the reset values of the three kept registers. -/
theorem powerOnReset_eq (s : State) : powerOnReset s = sessionReset .decode { State.reset with
    mem := { bank0 := Bank.unspecified, bank1 := Bank.unspecified, epoch := s.mem.epoch + 1 }
    params := s.params, draws := s.draws, outputs := s.outputs, sched := s.sched } := rfl

theorem irq_eq_false_of_disabled {s : State} (h : s.irqEn = 0) : s.irq = false := by
  simp [State.irq, h]

theorem statusWord_sessionReset (m : Mode) {s : State} (hirq : s.irqEn = 0) :
    (sessionReset m s).statusWord = if m = .encode then 8 else 0 := by
  have hfr : (sessionReset m s).frBusy = false := (frBusy_eq_false_iff _).mpr rfl
  have hfe : (sessionReset m s).feBusy = false := (feBusy_eq_false_iff _).mpr rfl
  have hsig : (sessionReset m s).sigOk = false := rfl
  have heor : (sessionReset m s).eor = false := rfl
  have herr : (sessionReset m s).errBit = false := rfl
  have hmode : (sessionReset m s).mode = m := rfl
  rw [State.statusWord, irq_eq_false_of_disabled (s := sessionReset m s) hirq, hfr, hfe, hsig, heor, herr, hmode]
  cases m <;> decide

theorem decodeCmd_sessionResetDecodeWord : decodeCmd 0x01000000 = .instr (.sessionReset .decode) := by decide

theorem decodeCmd_sessionResetEncodeWord : decodeCmd 0x01000001 = .instr (.sessionReset .encode) := by decide

/-- The reserved bits of SESSION_RESET are ARG[23:1], which stand at bits 23 to 1 of the word (R141). -/
theorem argOf_and_resetMask_ne_zero {w : Word} (hbits : w.extractLsb' 1 23 ≠ 0) : argOf w &&& 0xFFFFFE ≠ 0 := by
  intro hzero
  refine hbits ?_
  calc w.extractLsb' 1 23
      = (argOf w).extractLsb' 1 23 := (BitVec.extractLsb'_extractLsb'_of_le (by decide)).symm
    _ = (argOf w).extractLsb' 1 23 &&& (0xFFFFFE : BitVec 24).extractLsb' 1 23 := BitVec.and_allOnes.symm
    _ = (argOf w &&& 0xFFFFFE).extractLsb' 1 23 := BitVec.extractLsb'_and.symm
    _ = 0 := by rw [hzero]; rfl

/-- Settles O9: `sessionReset` is an update of the reset state, and the command a SYS command. -/
theorem sessionResetStartsANewSession : Obligations.SessionResetStartsANewSession := by
  refine ⟨fun m s => ⟨sessionReset m s, rfl, rfl, rfl, rfl, rfl, rfl, rfl, rfl, rfl, rfl, rfl, rfl, rfl, rfl, rfl, rfl, rfl,
    rfl, rfl, rfl, rfl, rfl, rfl, rfl, rfl, rfl, rfl, rfl, rfl, rfl, rfl, rfl, rfl, rfl, rfl, rfl, rfl, rfl,
    statusWord_sessionReset m, rfl, rfl, rfl⟩, fun s => ⟨?decode, ?encode⟩, fun w hopc hbits => ?reserved⟩
  case decode => exact issue_eq_exec_of_target_sys decodeCmd_sessionResetDecodeWord (target_sessionReset _) s
  case encode => exact issue_eq_exec_of_target_sys decodeCmd_sessionResetEncodeWord (target_sessionReset _) s
  case reserved =>
    have hmask : reservedMask (opcOf w) = some 0xFFFFFE := by rw [hopc]; rfl
    exact illegalWord_of_reservedBits hmask (argOf_and_resetMask_ne_zero hbits)

/-- A reset meets the invariant, whatever session it ends: what it keeps is legal in every session. -/
theorem sessionReset_inv (m : Mode) {s : State} (hmem : s.mem.wf = true) (hparams : s.params.legal)
    (hidat : 1 ≤ s.idatMax.toNat ∧ s.idatMax.toNat ≤ Config.maxSeg) (hlevel : s.level ≠ 3) : (sessionReset m s).Inv where
  mem_wf := hmem
  params_legal := hparams
  invalid_idle := fun h => absurd h (show ¬ ((none : Option Reason).isSome = true) by decide)
  info_with_err := fun _ => rfl
  decode_side := fun _ => ⟨rfl, rfl, rfl⟩
  encode_side := fun _ => ⟨rfl, rfl, rfl⟩
  sig_first := fun h => absurd h (show ¬ (DStage.start ≠ .start ∨ EStage.start ≠ .start) by decide)
  sig_encode := fun _ h => absurd h (show ¬ (false = true) by decide)
  idatMax_legal := hidat
  level_legal := hlevel
  fr_own := fun _ h => by cases h
  fe_own := fun _ h => by cases h
  geometry := fun h => absurd h (show ¬ (DStage.start ≠ .start ∨ 2 ≤ EStage.start.num) by decide)
  no_geometry := fun _ => ⟨rfl, rfl, rfl⟩
  eor_done := fun h => absurd h (show ¬ (false = true) by decide)
  seg_open := fun h => absurd h (show ¬ (EStage.start = .header) by decide)
  seg_empty := fun _ => rfl
  flushed := fun h => absurd h (show ¬ (3 ≤ EStage.start.num) by decide)
  fr_reading := fun _ _ _ h => by cases h
  fr_flushing := fun h => by cases h
  fe_row := fun _ _ h => by cases h
  outputs_open := ⟨rfl, rfl⟩

theorem powerOnReset_inv {s : State} (hparams : s.params.legal) : (powerOnReset s).Inv := by
  have hidat : 1 ≤ Config.idatMaxReset.toNat ∧ Config.idatMaxReset.toNat ≤ Config.maxSeg := by decide
  have hlevel : (0 : BitVec 2) ≠ 3 := by decide
  rw [powerOnReset_eq]
  refine sessionReset_inv .decode ?_ hparams hidat hlevel
  exact (Memory.wf_iff _).mpr ⟨Bank.wf_unspecified, Bank.wf_unspecified⟩

/-- Settles O53: the reset state is its own reset to a decode session. -/
theorem resetMeetsTheInvariant : Obligations.ResetMeetsTheInvariant :=
  sessionReset_inv .decode (s := State.reset) reset_mem_wf (by decide) (by decide) (by decide)

/-- Settles O59: both states are a reset to a decode session with unspecified banks. -/
theorem powerOnResetValues : Obligations.PowerOnResetValues := by
  refine ⟨fun s hs => ?values, fun u => ⟨_, rfl⟩⟩
  obtain ⟨u, hirq, hidat, hlevel, hread0, hread1, rfl⟩ : ∃ u : State, u.irqEn = 0 ∧ u.idatMax = 32768 ∧ u.level = 0 ∧
      u.mem.bank0.read = (fun _ => none) ∧ u.mem.bank1.read = (fun _ => none) ∧ s = sessionReset .decode u := by
    rcases hs with rfl | ⟨u, hu⟩
    · exact ⟨State.reset, rfl, rfl, rfl, rfl, rfl, rfl⟩
    · obtain rfl := Host.Outcome.next.inj hu
      exact ⟨_, rfl, rfl, rfl, rfl, rfl, powerOnReset_eq u⟩
  have hoff := irq_eq_false_of_disabled (s := sessionReset .decode u) hirq
  exact ⟨rfl, rfl, rfl, rfl, rfl, rfl, rfl, rfl, rfl, rfl, BitVec.xor_self, rfl, rfl, rfl, rfl, rfl, rfl, rfl, rfl,
    rfl, rfl, rfl, rfl, hidat, hlevel, hirq, rfl, rfl, rfl, rfl, rfl, rfl, rfl, rfl, rfl, hoff,
    statusWord_sessionReset .decode hirq, hread0,
    hread1⟩

end Sys2Proof.Proofs
end

section
/-! Proofs about the register port and the stream steps (10_state.md R33 to R53, 20_memory.md R104, R110). -/

namespace Sys2Proof.Proofs
open Sys2Proof.Machine Sys2Proof.Claims

/-- Settles O43: each index names its register, and ROW_SIZE is its two halves. -/
theorem registerReadsShowTheState : Obligations.RegisterReadsShowTheState := by
  intro s
  have herr : s.regRead 4 = errWord s.err := rfl
  have hrowSize : s.regRead 17 ++ s.regRead 16 = s.rowSize := by
    change (s.rowSize.extractLsb' 32 32 ++ s.rowSize.extractLsb' 0 32 : BitVec 64) = s.rowSize
    rw [BitVec.extractLsb'_append_extractLsb'_eq_extractLsb' (by decide)]
    exact BitVec.extractLsb'_eq_self
  exact ⟨fun _ => rfl, rfl, rfl, rfl, rfl, fun h => by rw [herr, h]; rfl, fun r h => by rw [herr, h]; rfl, rfl, rfl, rfl,
    rfl, rfl, rfl, rfl, rfl, rfl, rfl, rfl, hrowSize, rfl, rfl, rfl, rfl, rfl, rfl, rfl, rfl, rfl, rfl⟩

/-- The index of a register is the one it is addressed by (R33). -/
theorem toNat_of_regAt {idx : BitVec 10} {r : Reg} (h : regAt idx = some r) : idx.toNat = r.index.toNat := by
  unfold regAt at h
  split at h <;> cases h <;> assumption

theorem regWrite_of_regAt {idx : BitVec 10} {r : Reg} (h : regAt idx = some r) (hcmd : r ≠ .cmd) (w : Word) (s : State) :
    regWrite idx w s = .next (regStore r w s) := by
  simp only [regWrite, h, if_neg hcmd]

/-- Every register but the five the host may write ignores a write (R33). -/
theorem regStore_readOnly {r : Reg} (h : r ∉ [Reg.width, .height, .idatMax, .level, .irqEn]) (w : Word) (s : State) :
    regStore r w s = s := by
  cases r with
  | width => exact absurd (by decide) h
  | height => exact absurd (by decide) h
  | idatMax => exact absurd (by decide) h
  | level => exact absurd (by decide) h
  | irqEn => exact absurd (by decide) h
  | _ => rfl

theorem dimsWritable_iff (s : State) :
    s.dimsWritable = true ↔ s.mode = .encode ∧ (s.estage = .start ∨ s.estage = .sig) := by
  simp [State.dimsWritable]

theorem regWrite_readOnly {idx : BitVec 10} (h : idx.toNat ∉ [2, 12, 13, 22, 23, 27]) (w : Word) (s : State) :
    regWrite idx w s = .next s := by
  cases hreg : regAt idx with
  | none => exact regWrite_of_regAt_none hreg w s
  | some r =>
    have hidx := toNat_of_regAt hreg
    have hwritable : ∀ x ∈ [Reg.cmd, .width, .height, .idatMax, .level, .irqEn],
      x.index.toNat ∈ [2, 12, 13, 22, 23, 27] := by decide
    have hr : r ∉ [Reg.cmd, .width, .height, .idatMax, .level, .irqEn] := fun hmem =>
      h (hidx ▸ hwritable r hmem)
    rw [List.mem_cons, not_or] at hr
    rw [regWrite_of_regAt hreg hr.1, regStore_readOnly hr.2]

/-- Settles O45: the write of each register by its rule. -/
theorem registerWritesStoreLegalValues : Obligations.RegisterWritesStoreLegalValues := by
  intro s w
  refine ⟨fun idx h => regWrite_readOnly h w s, fun h => ?dims, fun h => ?noDims, fun h => ?idatMax, fun h => ?noIdatMax,
    fun h => ?noLevel, fun h => ?level, rfl⟩
  case dims =>
    have hdims := (dimsWritable_iff s).mpr h
    exact ⟨congrArg Host.Outcome.next (if_pos hdims), congrArg Host.Outcome.next (if_pos hdims)⟩
  case noDims =>
    have hdims := mt (dimsWritable_iff s).mp h
    exact ⟨congrArg Host.Outcome.next (if_neg hdims), congrArg Host.Outcome.next (if_neg hdims)⟩
  case idatMax => exact congrArg Host.Outcome.next (if_pos h)
  case noIdatMax =>
    refine congrArg Host.Outcome.next (if_neg fun hlegal => ?_)
    have hmax : w.toNat ≤ 65536 := hlegal.2
    omega
  case noLevel => exact congrArg Host.Outcome.next (if_pos h)
  case level => exact congrArg Host.Outcome.next (if_neg h)

/-- The fields of STAGE are the numbers of the two stages (R39). -/
theorem stageWord_fields (d : DStage) (e : EStage) :
    (BitVec.ofNat 32 (d.num + 16 * e.num)).extractLsb' 0 2 = BitVec.ofNat 2 d.num ∧
    (BitVec.ofNat 32 (d.num + 16 * e.num)).extractLsb' 4 3 = BitVec.ofNat 3 e.num ∧
    (BitVec.ofNat 32 (d.num + 16 * e.num)).extractLsb' 2 2 = 0 ∧
    (BitVec.ofNat 32 (d.num + 16 * e.num)).extractLsb' 7 25 = 0 := by
  cases d <;> cases e <;> decide

/-- Each flag stands at its bit of STATUS, and nothing above them (R36). -/
theorem statusWord_getLsbD (s : State) :
    s.statusWord.getLsbD 0 = s.frBusy ∧ s.statusWord.getLsbD 1 = s.feBusy ∧ s.statusWord.getLsbD 2 = s.errBit ∧
    s.statusWord.getLsbD 3 = modeBit s.mode ∧ s.statusWord.getLsbD 4 = s.sigOk ∧ s.statusWord.getLsbD 5 = s.eor ∧
    ∀ i, 7 ≤ i → s.statusWord.getLsbD i = false := by
  refine ⟨?_, ?_, ?_, ?_, ?_, ?_, fun i hi => ?_⟩
  case refine_7 =>
    rw [State.statusWord, BitVec.getLsbD_setWidth, BitVec.getLsbD_of_ge _ _ (by omega), Bool.and_false]
  all_goals
    simp only [State.statusWord, BitVec.getLsbD_setWidth, BitVec.getLsbD_append]
    simp

theorem modeBit_eq_true_iff (m : Mode) : modeBit m = true ↔ m = .encode := by
  cases m <;> decide

/-- Settles O46: the flags and stage numbers of the state, each read at its bits. -/
theorem statusAndStageShowTheFields : Obligations.StatusAndStageShowTheFields := by
  intro s
  obtain ⟨hfr, hfe, herr, hmode, hsig, heor, hrest⟩ := statusWord_getLsbD s
  obtain ⟨hdstage, hestage, hlow, hhigh⟩ := stageWord_fields s.dstage s.estage
  refine ⟨?_, ?_, ?_, ?_, hsig, heor, statusWord_getLsbD_six s, hrest, hdstage.trans ?_, hestage.trans ?_, hlow, hhigh⟩
  · rw [hfr]
    exact decide_eq_true_iff
  · rw [hfe]
    exact decide_eq_true_iff
  · rw [herr]
    exact errBit_eq_true_iff s
  · rw [hmode]
    exact modeBit_eq_true_iff s.mode
  · cases s.dstage <;> rfl
  · cases s.estage <;> rfl

/-- A push to a stream, by its end-of-stream bit (R104). -/
theorem push_eq (f : Fifo) (b : Byte) : f.push b = if f.eos then f else ⟨f.q ++ [b], false⟩ := by
  rw [Fifo.push]
  split
  next => rfl
  next h => rw [← Bool.eq_false_iff.mpr h]

/-- Settles O48: each stream step by the state of its stream. -/
theorem streamStepsOfTheOutside : Obligations.StreamStepsOfTheOutside := by
  intro s b n
  refine ⟨?pushIn, rfl, ?pushZin, rfl, ?pushCz, rfl, fun h => ?request, fun h => ?pending, fun h => ?noOut,
    fun q h => ?takeOut, fun h => ?noZout, fun q h => ?takeZout⟩
  case pushIn =>
    simp only [perform, push_eq]
    split <;> rfl
  case pushZin =>
    simp only [perform, push_eq]
    split <;> rfl
  case pushCz =>
    simp only [perform, push_eq]
    split <;> rfl
  case request => exact congrArg Host.Outcome.next (if_pos (by rw [h]; rfl))
  case pending => exact congrArg Host.Outcome.next (if_neg (by simpa using h))
  case noOut => simp only [perform, takeOut, h]
  case takeOut =>
    simp only [perform, takeOut, h]
    rfl
  case noZout => simp only [perform, takeZout, h]
  case takeZout =>
    simp only [perform, takeZout, h]
    rfl

end Sys2Proof.Proofs
end

section
/-! Proofs about what the outside may change (20_memory.md R104, R110, R111), and about the invalid session
(60_exceptions.md R403, R408). -/

namespace Sys2Proof.Proofs
open Sys2Proof.Machine Sys2Proof.Claims

theorem regStore_frame (r : Reg) (w : Word) (s : State) : regStore r w s = { s with
    idatMax := (regStore r w s).idatMax, level := (regStore r w s).level, irqEn := (regStore r w s).irqEn
    width := (regStore r w s).width, height := (regStore r w s).height } := by
  cases r with
  | width => by_cases h : s.dimsWritable = true <;> simp only [regStore, h] <;> rfl
  | height => by_cases h : s.dimsWritable = true <;> simp only [regStore, h] <;> rfl
  | idatMax =>
    by_cases h : 1 ≤ w.toNat ∧ w.toNat ≤ Config.maxSeg
    · simp only [regStore, if_pos h]
    · simp only [regStore, if_neg h]
  | level =>
    by_cases h : w.extractLsb' 0 2 = 3
    · simp only [regStore, if_pos h]
    · simp only [regStore, if_neg h]
  | _ => rfl

theorem takeOut_frame (s : State) : takeOut s = { s with
    out := ⟨(takeOut s).out.q, s.out.eos⟩, outputs := (takeOut s).outputs } := by
  cases h : s.out.q with
  | nil => simp only [takeOut, h]; rw [← h]
  | cons b q => simp only [takeOut, h]; rfl

theorem takeOut_eos (s : State) : (takeOut s).out.eos = s.out.eos := by
  rw [takeOut_frame s]

theorem takeZout_frame (s : State) : takeZout s = { s with
    zout := ⟨(takeZout s).zout.q, s.zout.eos⟩, outputs := (takeZout s).outputs } := by
  cases h : s.zout.q with
  | nil => simp only [takeZout, h]; rw [← h]
  | cons b q => simp only [takeZout, h]; rfl

theorem takeZout_eos (s : State) : (takeZout s).zout.eos = s.zout.eos := by
  rw [takeZout_frame s]

theorem adpRequest_frame (n : Word) (s : State) : adpRequest n s = { s with adp := (adpRequest n s).adp } := by
  rw [adpRequest]
  split <;> rfl

/-- A row-buffer write with FE idle: one byte of the view's bank below the capacity, nothing above it (R111). -/
theorem rowWrite_idle {s : State} (hidle : s.fe = .idle) (v : View) (i : BitVec 34) (b : Byte) :
    rowWrite v i b s = s ∨ rowWrite v i b s = { s with mem := s.mem.writeByte (s.viewBank v) i.toNat b } := by
  have hbusy : ¬ s.feBusy = true := by simp [State.feBusy, hidle]
  by_cases h : s.params.rowbufBytes ≤ i.toNat
  · exact .inl (if_pos h)
  · exact .inr ((if_neg h).trans (if_neg hbusy))

/-- What a CMD write comes to while an error is recorded: nothing, or a reset (R142, R403). -/
theorem issue_invalid {s : State} (herr : s.err.isSome = true) (w : Word) :
    issue w s = .next s ∨ ∃ m, decodeCmd w = .instr (.sessionReset m) := by
  cases hdec : decodeCmd w with
  | reject why => exact .inl (((illegalWord_of_decodeCmd_reject hdec).2 s).2 herr)
  | instr i =>
    cases htarget : i.target with
    | fr => exact .inl (((frGate_of_decodeCmd hdec htarget).2 s).1 herr)
    | fe => exact .inl (((feGate_of_decodeCmd hdec htarget).2 s).1 herr)
    | sys =>
      cases i with
      | nop => exact .inl (issue_eq_exec_of_target_sys hdec htarget s)
      | sessionReset m => exact .inr ⟨m, rfl⟩
      | _ => simp at htarget

section
variable {s t : State} (herr : s.err.isSome = true)
include herr

theorem frozen_regWrite {idx : BitVec 10} {w : Word} (hreset : ¬ isReset (.regWrite idx w))
    (h : regWrite idx w s = .next t) : FrozenStep (.regWrite idx w) s t := by
  have hsame : Host.Outcome.next s = (.next t : Host.Outcome State Fault Refusal) → FrozenStep (.regWrite idx w) s t :=
    fun h => by obtain rfl := Host.Outcome.next.inj h; exact rfl
  cases hreg : regAt idx with
  | none => exact hsame ((regWrite_of_regAt_none hreg w s).symm.trans h)
  | some r =>
    by_cases hcmd : r = .cmd
    · subst hcmd
      have hissue : regWrite idx w s = issue w s := by simp only [regWrite, hreg, if_true]
      rcases issue_invalid herr w with hnext | ⟨m, hdec⟩
      · exact hsame ((hissue.trans hnext).symm.trans h)
      · exact absurd (.inr ⟨idx, w, m, rfl, hreg, hdec⟩) hreset
    · obtain rfl := Host.Outcome.next.inj ((regWrite_of_regAt hreg hcmd w s).symm.trans h)
      exact regStore_frame r w s

theorem frozen_frServe (hidle : s.fr = .idle) (h : frServe s = .next t) : FrozenStep .frServe s t := by
  rcases frServe_eq s with hnone | ⟨n, -, -, hserve⟩
  · exact .inl (Host.Outcome.next.inj (h.symm.trans hnone))
  · refine .inr ((Host.Outcome.next.inj (h.symm.trans (hserve.trans (exec_adpRead_invalid n herr)))).trans ?_)
    rw [← hidle]

theorem segmenterStep_invalid : segmenterStep s = s :=
  segmenterStep_disabled fun hon => by
    obtain ⟨-, -, -, hnone, -⟩ := (segmenterEnabled_iff s).mp hon
    simp [hnone] at herr

end

theorem perform_invalid {s t : State} {e : Event} (hinv : s.Inv) (herr : s.err.isSome = true) (hreset : ¬ isReset e)
    (h : perform e s = .next t) : FrozenStep e s t := by
  obtain ⟨hfr, hfe⟩ := hinv.invalid_idle herr
  cases e with
  | regRead idx => obtain rfl := Host.Outcome.next.inj h; exact rfl
  | regWrite idx w => exact frozen_regWrite herr hreset h
  | rowRead v i => obtain rfl := Host.Outcome.next.inj h; exact rfl
  | rowWrite v i b =>
    obtain rfl := Host.Outcome.next.inj h
    rcases rowWrite_idle hfe v i b with hw | hw
    · rw [hw]
      exact ⟨rfl, fun _ _ _ => rfl⟩
    · rw [hw]
      refine ⟨rfl, fun sel j hother => ?_⟩
      rw [Memory.readByte_writeByte, if_neg (by rintro ⟨rfl, rfl⟩; simp at hother)]
  | pushIn b => obtain rfl := Host.Outcome.next.inj h; exact rfl
  | endIn => obtain rfl := Host.Outcome.next.inj h; exact rfl
  | takeOut => obtain rfl := Host.Outcome.next.inj h; exact (takeOut_frame s).trans (by rw [← takeOut_eos s])
  | pushZin b => obtain rfl := Host.Outcome.next.inj h; exact rfl
  | endZin => obtain rfl := Host.Outcome.next.inj h; exact rfl
  | request n => obtain rfl := Host.Outcome.next.inj h; exact adpRequest_frame n s
  | takeZout => obtain rfl := Host.Outcome.next.inj h; exact (takeZout_frame s).trans (by rw [← takeZout_eos s])
  | pushCz b => obtain rfl := Host.Outcome.next.inj h; exact rfl
  | endCz => obtain rfl := Host.Outcome.next.inj h; exact rfl
  | frRun =>
    have hrun : frRun s = .next s := by simp only [frRun, hfr]
    exact Host.Outcome.next.inj (h.symm.trans hrun)
  | frServe => exact frozen_frServe herr hfr h
  | frSegment => exact (Host.Outcome.next.inj h).symm.trans (segmenterStep_invalid herr)
  | feRun =>
    have hrun : feRun s = .next s := by simp only [feRun, hfe]
    exact Host.Outcome.next.inj (h.symm.trans hrun)
  | powerOn => exact absurd (.inl rfl) hreset

theorem inv_sched {s : State} (h : s.Inv) (rest : List Event) : ({ s with sched := rest } : State).Inv :=
  h.of_agree rfl

/-- Settles O51: the invariant has both agents idle, and each port's rule bounds what its own step changes. -/
theorem invalidSessionIsFrozenUntilReset : Obligations.InvalidSessionIsFrozenUntilReset := by
  intro s t e rest hinv herr hsched hreset hstep
  exact perform_invalid (inv_sched hinv rest) (Option.isSome_iff_ne_none.mpr herr) hreset
    ((step_of_sched hsched).symm.trans hstep)

end Sys2Proof.Proofs
end

section
/-! The one induction over a segment of FR, in the form the proofs about all of its pieces use (20_memory.md R102,
R120): what each piece of pseudocode keeps, a segment keeps. -/

namespace Sys2Proof.Proofs
open Sys2Proof.Machine Sys2Proof.Claims

/-- A piece of pseudocode that ends, ends in a state of `Q`; one that reads on, reads the bytes of its next point, in a
state of `R`. -/
def Meets (R : FrPoint → State → Prop) (Q : State → Prop) : Go → Prop
  | .ended t => Q t
  | .read k p t => 1 ≤ k ∧ k = p.size t.idatRemain ∧ R p t

/-- What a segment of FR keeps: `R` at every point of it, and `Q` where it ends or holds. -/
structure SegmentRule (R : FrPoint → State → Prop) (Q : State → Prop) : Prop where
  take : ∀ p s i, i.eos = s.inp.eos → R p s → R p { s with inp := i }
  read : ∀ p d s, R p s → d.length = p.size s.idatRemain → Meets R Q (afterRead p d s)
  eos : ∀ p s, R p s → Q (raise .unexpectedEOS 0 s)
  hold : ∀ need got p s, R p s → 1 ≤ need → need + got.length = p.size s.idatRemain →
    Q { s with fr := .reading need got p }

section
variable {R : FrPoint → State → Prop} {Q : State → Prop}

theorem meets_ite {c : Prop} [Decidable c] {g h : Go} (hg : c → Meets R Q g) (hh : ¬ c → Meets R Q h) :
    Meets R Q (if c then g else h) := by
  split
  next hc => exact hg hc
  next hc => exact hh hc

theorem meets_verifyChecksum {c : List Byte} {s : State} {g : Go} (hraise : ∀ r info, Q (raise r info s))
    (hg : Meets R Q g) : Meets R Q (verifyChecksum c s g) :=
  meets_ite (fun _ => hg) fun _ => hraise _ _

theorem meets_skipNext {o : Bool} {n : Nat} {s : State} (hcrc : R (.skipCrc o) s) (hskip : ∀ left, R (.skip o left) s) :
    Meets R Q (skipNext o n s) :=
  meets_ite (fun _ => ⟨by decide, rfl, hcrc⟩) fun _ => ⟨by decide, rfl, hskip _⟩

theorem meets_adpNext {n : Word} {s : State} (hn : n ≠ 0) (hraise : ∀ r info, Q (raise r info s))
    (hcrc : s.idatRemain = 0 → R (.adpCrc n) s)
    (hdata : s.idatRemain ≠ 0 → s.idatRemain.toNat ≤ maxChunkLength → R (.adpData n) s) :
    Meets R Q (adpNext n s) := by
  refine meets_ite (fun h0 => ⟨by decide, rfl, hcrc h0⟩) fun h0 => meets_ite (fun _ => hraise _ _) fun hle => ?_
  have hasks := toNat_pos_of_ne_zero hn
  have hleft := toNat_pos_of_ne_zero h0
  exact ⟨by omega, rfl, hdata h0 (not_lt.mp hle)⟩

theorem readLoop_meets (rule : SegmentRule R Q) {need : Nat} {got : List Byte} {p : FrPoint} {s : State} (h : R p s)
    (hneed : 1 ≤ need) (hsize : need + got.length = p.size s.idatRemain) : Q (readLoop s.inp.q need got p s) := by
  refine readLoop_induct
    (I := fun need got p s => R p s ∧ 1 ≤ need ∧ need + got.length = p.size s.idatRemain) (Q := Q)
    ?eos ?hold ?take ?ends ?reads s.inp.q need got p s rfl ⟨h, hneed, hsize⟩
  case eos => exact fun _ _ p s ⟨hR, _, _⟩ _ _ => rule.eos p s hR
  case hold => exact fun need got p s ⟨hR, hneed, hsize⟩ _ _ => rule.hold need got p s hR hneed hsize
  case take =>
    rintro need got p s b q ⟨hR, -, hsize⟩ - hmore
    refine ⟨rule.take p s _ rfl hR, by omega, ?_⟩
    rw [← hsize, List.length_append, List.length_singleton]
    omega
  case ends =>
    rintro need got p s b q t ⟨hR, hneed, hsize⟩ - hlast hend
    have hmeets := rule.read p (got ++ [b]) _ (rule.take p s { s.inp with q := q } rfl hR) (by
      rw [List.length_append, List.length_singleton]
      exact Eq.trans (by omega) hsize)
    rwa [hend] at hmeets
  case reads =>
    rintro need got p s b q k p2 t ⟨hR, hneed, hsize⟩ - hlast hread
    have hmeets := rule.read p (got ++ [b]) _ (rule.take p s { s.inp with q := q } rfl hR) (by
      rw [List.length_append, List.length_singleton]
      exact Eq.trans (by omega) hsize)
    rw [hread] at hmeets
    exact ⟨hmeets.2.2, hmeets.1, hmeets.2.1⟩

theorem readIn_meets (rule : SegmentRule R Q) {k : Nat} {p : FrPoint} {s : State} (h : R p s) (hk : 1 ≤ k)
    (hsize : k = p.size s.idatRemain) : Q (readIn k p s) :=
  readLoop_meets rule h hk (by simpa using hsize)

theorem runGo_meets (rule : SegmentRule R Q) {g : Go} (h : Meets R Q g) : Q (runGo g) := by
  cases g with
  | ended t => exact h
  | read k p t => exact readIn_meets rule h.2.2 h.1 h.2.1

end

/-- How a segment of FR that serves no request ends: it raises an error, or changes FR's record last. -/
def EndsFrom (R : State → Prop) (t : State) : Prop :=
  ∃ s, R s ∧ ((∃ r info, t = raise r info s) ∨ ∃ f, t = { s with fr := f })

theorem endsFrom_raise {R : State → Prop} {s : State} (h : R s) (r : Reason) (info : Word) :
    EndsFrom R (raise r info s) :=
  ⟨s, h, .inl ⟨r, info, rfl⟩⟩

theorem endsFrom_fr {R : State → Prop} {s : State} (h : R s) (f : FrActivity) : EndsFrom R { s with fr := f } :=
  ⟨s, h, .inr ⟨f, rfl⟩⟩

end Sys2Proof.Proofs
end

section
/-! Proofs about the frame of the chunk scan (41_framer_decode.md R220 to R222). -/

namespace Sys2Proof.Proofs
open Sys2Proof.Machine Sys2Proof.Claims

/-- What the pieces of the chunk scan leave alone: `s` without the fields they write. -/
def scanRest (s : State) : State := { s with
  sigOk := false, frResult := 0, chunkLen := 0, chunkTag := 0, crc := 0, idatRemain := 0, width := 0, height := 0
  hdrFmt := 0, hdrIl := 0, rowSize := 0, rowY := 0, bufSel := false, mem := State.reset.mem, dstage := .start
  inp := ⟨[], s.inp.eos⟩ }

/-- The row geometry and the banks are as before. -/
def RowsKept (s t : State) : Prop :=
  t.rowSize = s.rowSize ∧ t.rowY = s.rowY ∧ t.bufSel = s.bufSel ∧ t.mem = s.mem

/-- The first header of the session was accepted between `s` and `t` (R204). -/
def HeaderTaken (s t : State) : Prop :=
  s.dstage = .start ∧ t.dstage ≠ .start ∧ t.rowY = 0 ∧ t.bufSel = false ∧ t.mem = s.mem.zeroBoth t.rowSize.toNat

/-- What the pieces of the chunk scan have made of `s` by the time they reach `t`. -/
structure Scans (s t : State) : Prop where
  rest : scanRest t = scanRest s
  stage : s.dstage.num ≤ t.dstage.num
  rows : RowsKept s t ∨ HeaderTaken s t

theorem num_pos_iff (d : DStage) : 1 ≤ d.num ↔ d ≠ .start := by
  cases d <;> decide

theorem scans_refl (s : State) : Scans s s := ⟨rfl, le_rfl, .inl ⟨rfl, rfl, rfl, rfl⟩⟩

theorem Scans.keeps {s t u : State} (h : Scans s t) (hrest : scanRest u = scanRest t) (hrows : RowsKept t u)
    (hstage : t.dstage.num ≤ u.dstage.num) : Scans s u := by
  obtain ⟨hsize, hy, hsel, hmem⟩ := hrows
  refine ⟨hrest.trans h.rest, h.stage.trans hstage, ?_⟩
  rcases h.rows with ⟨hsize', hy', hsel', hmem'⟩ | ⟨hstart, hafter, hy', hsel', hmem'⟩
  · exact .inl ⟨hsize.trans hsize', hy.trans hy', hsel.trans hsel', hmem.trans hmem'⟩
  · refine .inr ⟨hstart, (num_pos_iff _).mp (((num_pos_iff _).mpr hafter).trans hstage), hy.trans hy', hsel.trans hsel', ?_⟩
    rw [hmem, hmem', hsize]

/-- A header is accepted only in `Start`, so nothing of the rows had changed before. -/
theorem Scans.accepts {s t u : State} (h : Scans s t) (hstart : t.dstage = .start) (hrest : scanRest u = scanRest t)
    (hstage : u.dstage ≠ .start) (hy : u.rowY = 0) (hsel : u.bufSel = false)
    (hmem : u.mem = t.mem.zeroBoth u.rowSize.toNat) : Scans s u := by
  have hstart0 : s.dstage = .start := by
    have hle := h.stage
    rw [hstart] at hle
    exact not_not.mp (mt (num_pos_iff s.dstage).mpr (by exact Nat.not_le.mpr (Nat.lt_one_iff.mpr (Nat.le_zero.mp hle))))
  refine ⟨hrest.trans h.rest, hstart0 ▸ Nat.zero_le _, .inr ⟨hstart0, hstage, hy, hsel, ?_⟩⟩
  rcases h.rows with ⟨-, -, -, hmem'⟩ | ⟨-, hafter, -⟩
  · rw [hmem, hmem']
  · exact absurd hstart hafter

/-- The points of the chunk scan; the header's own points stand in `Start`. -/
def scanning (p : FrPoint) (d : DStage) : Prop :=
  match p with
  | .sig _ => True
  | .header _ => True
  | .ihdr _ => d = .start
  | .ihdrCrc _ => d = .start
  | .skip _ _ => True
  | .skipCrc _ => True
  | _ => False

/-- At a point of the chunk scan that began in `s`. -/
def ScanAt (s : State) (p : FrPoint) (t : State) : Prop := scanning p t.dstage ∧ Scans s t

section
variable {s t : State}

theorem meets_afterChunk_scan (o : Bool) (h : Scans s t) : Meets (ScanAt s) (EndsFrom (Scans s)) (afterChunk o t) := by
  refine meets_ite (fun _ => meets_ite (fun _ => ?_) fun _ => ⟨by decide, rfl, trivial, h⟩) fun _ => endsFrom_fr h _
  exact endsFrom_fr (s := { t with frResult := 2 }) (h.keeps rfl ⟨rfl, rfl, rfl, rfl⟩ le_rfl) .idle

theorem meets_afterHeader_scan (o : Bool) (d : List Byte) (h : Scans s t) :
    Meets (ScanAt s) (EndsFrom (Scans s)) (afterHeader o d t) := by
  have hhead : Scans s (chunkHeader d t) := h.keeps rfl ⟨rfl, rfl, rfl, rfl⟩ le_rfl
  have hraise : ∀ r info, EndsFrom (Scans s) (raise r info (chunkHeader d t)) := endsFrom_raise hhead
  refine meets_ite (fun _ => ?ihdr) fun _ => meets_ite (fun _ => ?idat) fun _ => meets_ite (fun _ => hraise _ _)
    fun _ => ?other
  case ihdr =>
    exact meets_ite (fun _ => hraise _ _) fun hstage => meets_ite (fun _ => hraise _ _) fun _ =>
      ⟨by decide, rfl, not_not.mp hstage, hhead⟩
  case idat =>
    refine meets_ite (fun _ => hraise _ _) fun hstage => meets_afterChunk_scan o ?_
    refine hhead.keeps rfl ⟨rfl, rfl, rfl, rfl⟩ ?_
    rw [not_not.mp hstage]
    exact (by decide : 1 ≤ 2)
  case other =>
    exact meets_ite (fun _ => hraise _ _) fun _ => meets_skipNext ⟨trivial, hhead⟩ fun _ => ⟨trivial, hhead⟩

theorem meets_afterIhdr_scan (o : Bool) (d : List Byte) (hstart : t.dstage = .start) (h : Scans s t) :
    Meets (ScanAt s) (EndsFrom (Scans s)) (afterIhdr o d t) := by
  have hregs : Scans s { t with
      crc := crcFeed t.crc d, width := be32At d 0, height := be32At d 4, hdrFmt := hdrFmtOf d
      hdrIl := (byteAt d 12).setWidth 32 } := h.keeps rfl ⟨rfl, rfl, rfl, rfl⟩ le_rfl
  rw [afterIhdr]
  split
  · exact endsFrom_raise hregs _ _
  · exact ⟨by decide, rfl, hstart, hregs⟩

theorem scanRule (s : State) : SegmentRule (ScanAt s) (EndsFrom (Scans s)) where
  take p t i hi h := ⟨h.1, h.2.keeps (by simp only [scanRest, hi]) ⟨rfl, rfl, rfl, rfl⟩ le_rfl⟩
  eos p t h := endsFrom_raise h.2 _ _
  hold need got p t h _ _ := endsFrom_fr h.2 _
  read p d t h _ := by
    obtain ⟨hp, h⟩ := h
    cases p with
    | sig o =>
      have hsig : Scans s { t with sigOk := true, frResult := 0 } := h.keeps rfl ⟨rfl, rfl, rfl, rfl⟩ le_rfl
      exact meets_ite (fun _ => meets_ite (fun _ => meets_afterChunk_scan true hsig) fun _ => endsFrom_fr hsig _)
        fun _ => endsFrom_raise h _ _
    | header o => exact meets_afterHeader_scan o d h
    | ihdr o => exact meets_afterIhdr_scan o d hp h
    | ihdrCrc o =>
      refine meets_verifyChecksum (endsFrom_raise h) (meets_afterChunk_scan o ?_)
      exact h.accepts hp rfl (show DStage.seenHeader ≠ .start by decide) rfl rfl rfl
    | skip o left =>
      have hcrc : Scans s { t with crc := crcFeed t.crc d } := h.keeps rfl ⟨rfl, rfl, rfl, rfl⟩ le_rfl
      exact meets_skipNext ⟨trivial, hcrc⟩ fun _ => ⟨trivial, hcrc⟩
    | skipCrc o =>
      exact meets_verifyChecksum (endsFrom_raise h) (meets_afterChunk_scan o
        (h.keeps rfl ⟨rfl, rfl, rfl, rfl⟩ le_rfl))
    | _ => exact hp.elim

end

theorem exec_scan {i : Instr} {s t : State} (hi : i ∈ [Instr.frSig, .frStep, .frOpen]) (h : exec i s = .next t) :
    EndsFrom (Scans s) t := by
  have hraise := endsFrom_raise (scans_refl s)
  have hread : ∀ p, scanning p s.dstage → 8 = p.size s.idatRemain → EndsFrom (Scans s) (readIn 8 p s) :=
    fun p hp hsize => readIn_meets (scanRule s) ⟨hp, scans_refl s⟩ (by decide) hsize
  simp only [List.mem_cons, List.not_mem_nil, or_false] at hi
  rcases hi with rfl | rfl | rfl
  · obtain rfl := Host.Outcome.next.inj h
    split
    · exact hraise _ _
    · exact hread (.sig false) trivial rfl
  · obtain rfl := Host.Outcome.next.inj h
    split
    · exact hraise _ _
    · exact hread (.header false) trivial rfl
  · obtain rfl := Host.Outcome.next.inj h
    split
    · exact hraise _ _
    · split
      · exact hread (.sig true) trivial rfl
      · exact hread (.header true) trivial rfl

theorem raise_not_serving {s : State} (h : s.fr.serving = false) (r : Reason) (info : Word) : raise r info s = { s with
    err := some (s.err.getD r), errInfo := if s.err.isNone then info else s.errInfo, fr := .idle, fe := .idle } := by
  simp only [raise, h, Bool.false_eq_true, if_false]

/-- What FR_SIG, FR_STEP and FR_OPEN leave alone, errors included. -/
def scanFrame (s : State) : State := { scanRest s with err := none, errInfo := 0, fr := .idle, fe := .idle }

theorem eq_of_scanFrame {s t : State} (h : scanFrame t = scanFrame s) : t = { s with
    sigOk := t.sigOk, frResult := t.frResult, chunkLen := t.chunkLen, chunkTag := t.chunkTag, crc := t.crc
    idatRemain := t.idatRemain, width := t.width, height := t.height, hdrFmt := t.hdrFmt, hdrIl := t.hdrIl
    rowSize := t.rowSize, rowY := t.rowY, bufSel := t.bufSel, mem := t.mem, dstage := t.dstage
    inp := ⟨t.inp.q, s.inp.eos⟩, err := t.err, errInfo := t.errInfo, fr := t.fr, fe := t.fe } :=
  calc t = { scanFrame t with
        sigOk := t.sigOk, frResult := t.frResult, chunkLen := t.chunkLen, chunkTag := t.chunkTag, crc := t.crc
        idatRemain := t.idatRemain, width := t.width, height := t.height, hdrFmt := t.hdrFmt, hdrIl := t.hdrIl
        rowSize := t.rowSize, rowY := t.rowY, bufSel := t.bufSel, mem := t.mem, dstage := t.dstage
        inp := ⟨t.inp.q, (scanFrame t).inp.eos⟩, err := t.err, errInfo := t.errInfo, fr := t.fr, fe := t.fe } := rfl
    _ = _ := by rw [h]; rfl

/-- Settles O57: from how a segment of the scan ends. -/
theorem chunkScanFrame : Obligations.ChunkScanFrame := by
  intro i s t hi hserv hexec
  obtain ⟨u, hscans, hends⟩ := exec_scan hi hexec
  have hserv' : u.fr.serving = false := (congrArg (fun v : State => v.fr.serving) hscans.rest).trans hserv
  have hframe : scanFrame t = scanFrame u := by
    rcases hends with ⟨r, info, rfl⟩ | ⟨f, rfl⟩
    · rw [raise_not_serving hserv']
      rfl
    · rfl
  refine ⟨eq_of_scanFrame (hframe.trans (congrArg (fun v : State => { v with
    err := none, errInfo := 0, fr := .idle, fe := .idle }) hscans.rest)), fun hvalid hnone => ?kept, fun sel j => ?bytes⟩
  case kept =>
    rcases hends with ⟨r, info, rfl⟩ | ⟨f, rfl⟩
    · exact absurd hnone (by simp [raise])
    · exact ⟨(congrArg State.errInfo hscans.rest :), (congrArg State.fe hscans.rest :), (congrArg State.adp hscans.rest :)⟩
  case bytes =>
    have hmem : t.mem = u.mem ∧ t.rowSize = u.rowSize ∧ t.dstage = u.dstage := by
      rcases hends with ⟨r, info, rfl⟩ | ⟨f, rfl⟩ <;> exact ⟨rfl, rfl, rfl⟩
    obtain ⟨hmem, hsize, hstage⟩ := hmem
    rw [hmem, hsize, hstage]
    rcases hscans.rows with ⟨-, -, -, hkept⟩ | ⟨hstart, hafter, -, -, hzero⟩
    · exact .inl (by rw [hkept])
    · rw [hzero, Memory.readByte_zeroBoth]
      by_cases hj : j < u.rowSize.toNat
      · exact .inr ⟨hstart, hafter, hj, if_pos hj⟩
      · exact .inl (if_neg hj)

end Sys2Proof.Proofs
end

section
/-! Proofs about the frame of FR_CLOSE (41_framer_decode.md R224). -/

namespace Sys2Proof.Proofs
open Sys2Proof.Machine Sys2Proof.Claims

/-- What the pieces of FR_CLOSE leave alone: `s` without the fields they write. -/
def closeRest (s : State) : State := { s with
  chunkLen := 0, chunkTag := 0, crc := 0, dstage := .start, frResult := 0, inp := ⟨[], s.inp.eos⟩ }

/-- What the pieces of FR_CLOSE have made of `s` by the time they reach `t`. -/
structure Closes (s t : State) : Prop where
  rest : closeRest t = closeRest s
  stage : s.dstage.num ≤ t.dstage.num

theorem closes_refl (s : State) : Closes s s := ⟨rfl, le_rfl⟩

theorem Closes.keeps {s t u : State} (h : Closes s t) (hrest : closeRest u = closeRest t)
    (hstage : t.dstage.num ≤ u.dstage.num) : Closes s u :=
  ⟨hrest.trans h.rest, h.stage.trans hstage⟩

theorem num_le_seenEnd (d : DStage) : d.num ≤ DStage.seenEnd.num := by
  cases d <;> decide

/-- The points of FR_CLOSE. -/
def closing (p : FrPoint) : Prop := p = .closeDataCrc ∨ p = .closeHeader ∨ p = .closeIendCrc

/-- At a point of FR_CLOSE that began in `s`. -/
def CloseAt (s : State) (p : FrPoint) (t : State) : Prop := closing p ∧ Closes s t

theorem closeRule (s : State) : SegmentRule (CloseAt s) (EndsFrom (Closes s)) where
  take p t i hi h := ⟨h.1, h.2.keeps (by simp only [closeRest, hi]) le_rfl⟩
  eos p t h := endsFrom_raise h.2 _ _
  hold need got p t h _ _ := endsFrom_fr h.2 _
  read p d t h _ := by
    obtain ⟨hp, h⟩ := h
    rcases hp with rfl | rfl | rfl
    · exact meets_verifyChecksum (endsFrom_raise h) ⟨by decide, rfl, .inr (.inl rfl), h⟩
    · have hhead : Closes s (chunkHeader d t) := h.keeps rfl le_rfl
      exact meets_ite (fun _ => endsFrom_raise hhead _ _) fun _ => meets_ite (fun _ => endsFrom_raise hhead _ _) fun _ =>
        ⟨by decide, rfl, .inr (.inr rfl), hhead⟩
    · refine meets_verifyChecksum (endsFrom_raise h) ?_
      exact endsFrom_fr (s := { t with dstage := .seenEnd, frResult := 0 }) (h.keeps rfl (num_le_seenEnd _)) .idle

theorem exec_close {s t : State} (h : exec .frClose s = .next t) :
    EndsFrom (Closes s) t ∨ EndsFrom (Closes (s.emit .infClose)) t := by
  have hraise : ∀ r info, EndsFrom (Closes s) (raise r info s) := endsFrom_raise (closes_refl s)
  obtain rfl := Host.Outcome.next.inj h
  split
  · exact .inl (hraise _ _)
  · split
    · exact .inl (endsFrom_fr (s := { s with frResult := 1 }) ⟨rfl, le_rfl⟩ .idle)
    · split
      · exact .inl (hraise _ _)
      · exact .inr (readIn_meets (closeRule _) ⟨.inl rfl, closes_refl _⟩ (by decide) rfl)

/-- What FR_CLOSE leaves alone, errors and outputs included. -/
def closeFrame (s : State) : State := { closeRest s with
  outputs := [], err := none, errInfo := 0, fr := .idle, fe := .idle }

theorem eq_of_closeFrame {s t : State} (h : closeFrame t = closeFrame s) : t = { s with
    chunkLen := t.chunkLen, chunkTag := t.chunkTag, crc := t.crc, dstage := t.dstage, frResult := t.frResult
    inp := ⟨t.inp.q, s.inp.eos⟩, outputs := t.outputs, err := t.err, errInfo := t.errInfo, fr := t.fr, fe := t.fe } :=
  calc t = { closeFrame t with
        chunkLen := t.chunkLen, chunkTag := t.chunkTag, crc := t.crc, dstage := t.dstage, frResult := t.frResult
        inp := ⟨t.inp.q, (closeFrame t).inp.eos⟩, outputs := t.outputs, err := t.err, errInfo := t.errInfo, fr := t.fr
        fe := t.fe } := rfl
    _ = _ := by rw [h]; rfl

theorem closeFrame_of_closes {s t : State} (h : Closes s t) : closeFrame t = closeFrame s :=
  congrArg (fun v : State => { v with outputs := [], err := none, errInfo := 0, fr := .idle, fe := .idle }) h.rest

/-- What the end of a segment of FR_CLOSE says of its frame. -/
theorem endsFrom_closes {s t : State} (hserv : s.fr.serving = false) (h : EndsFrom (Closes s) t) :
    closeFrame t = closeFrame s ∧ keptUnlessRaised s t ∧ t.outputs = s.outputs := by
  obtain ⟨u, hu, hends⟩ := h
  have hframe := closeFrame_of_closes hu
  have hout : u.outputs = s.outputs := (congrArg State.outputs hu.rest :)
  have hserv' : u.fr.serving = false := (congrArg (fun v : State => v.fr.serving) hu.rest).trans hserv
  rcases hends with ⟨r, info, rfl⟩ | ⟨f, rfl⟩
  · refine ⟨?_, fun _ hnone => absurd hnone (by simp [raise]), ?_⟩
    · rw [raise_not_serving hserv']
      exact hframe
    · rw [raise_not_serving hserv']
      exact hout
  · exact ⟨hframe, fun _ _ => ⟨(congrArg State.errInfo hu.rest :), (congrArg State.fe hu.rest :),
      (congrArg State.adp hu.rest :)⟩, hout⟩

end Sys2Proof.Proofs
end

section
/-! Proofs about the frame of the ADP service (41_framer_decode.md R230). -/

namespace Sys2Proof.Proofs
open Sys2Proof.Machine Sys2Proof.Claims

/-- What the pieces of the ADP service leave alone before it responds: `s` without the fields they write. -/
def adpRest (s : State) : State := { s with
  chunkLen := 0, chunkTag := 0, crc := 0, idatRemain := 0, inp := ⟨[], s.inp.eos⟩ }

/-- At a point of the service of request `n` that began in `s`. -/
def AdpAt (n : Word) (s : State) (p : FrPoint) (t : State) : Prop :=
  n ≠ 0 ∧ (p = .adpCrc n ∨ p = .adpHeader n ∨ p = .adpData n) ∧ adpRest t = adpRest s

/-- How a segment of the service of request `n` that began in `s` ends: an error, a hold, or the response. -/
def AdpEnds (n : Word) (s t : State) : Prop :=
  ∃ u, adpRest u = adpRest s ∧ ((∃ r info, t = raise r info u) ∨
    (∃ need got p, t = { u with fr := .reading need got p }) ∨ ∃ d, d.length ≤ n.toNat ∧ t = u.respond d true)

section
variable {n : Word} {s t : State}

theorem adpEnds_raise (h : adpRest t = adpRest s) (r : Reason) (info : Word) : AdpEnds n s (raise r info t) :=
  ⟨t, h, .inl ⟨r, info, rfl⟩⟩

theorem adpEnds_respond {d : List Byte} (hd : d.length ≤ n.toNat) (h : adpRest t = adpRest s) :
    AdpEnds n s (t.respond d true) :=
  ⟨t, h, .inr (.inr ⟨d, hd, rfl⟩)⟩

theorem meets_adpNext_frame (hn : n ≠ 0) (h : adpRest t = adpRest s) : Meets (AdpAt n s) (AdpEnds n s) (adpNext n t) :=
  meets_adpNext hn (adpEnds_raise h) (fun _ => ⟨hn, .inl rfl, h⟩) fun _ _ => ⟨hn, .inr (.inr rfl), h⟩

theorem adpRule (n : Word) (s : State) : SegmentRule (AdpAt n s) (AdpEnds n s) where
  take p t i hi h := ⟨h.1, h.2.1, Eq.trans (by simp only [adpRest, hi]) h.2.2⟩
  eos p t h := adpEnds_raise h.2.2 _ _
  hold need got p t h _ _ := ⟨t, h.2.2, .inr (.inl ⟨need, got, p, rfl⟩)⟩
  read p d t h hlen := by
    obtain ⟨hn, hp, h⟩ := h
    rcases hp with rfl | rfl | rfl
    · exact meets_verifyChecksum (adpEnds_raise h) ⟨by decide, rfl, hn, .inr (.inl rfl), h⟩
    · exact meets_ite (fun _ => adpEnds_raise (t := { t with chunkLen := be32At d 0, chunkTag := be32At d 4 }) h _ _)
        fun _ => meets_adpNext_frame hn h
    · exact adpEnds_respond (t := { t with
        crc := crcFeed t.crc d, idatRemain := t.idatRemain - BitVec.ofNat 32 d.length })
        (hlen ▸ Nat.min_le_left ..) h

/-- The service of a request, from its start: in an invalid session the empty answer, else a segment of it. -/
theorem exec_adp (h : exec (.adpRead n) s = .next t) :
    (s.err.isSome = true ∧ t = s.respond [] false) ∨ (s.err = none ∧ AdpEnds n (servesAdp n s) t) := by
  by_cases herr : s.err.isSome = true
  · exact .inl ⟨herr, Host.Outcome.next.inj (h.symm.trans (exec_adpRead_invalid n herr))⟩
  have hvalid : s.err = none := by simpa using herr
  refine .inr ⟨hvalid, ?_⟩
  by_cases hstate : s.mode ≠ .decode ∨ s.dstage ≠ .seenData
  · obtain rfl := Host.Outcome.next.inj ((exec_adpRead_badState n hvalid hstate).symm.trans h)
    exact adpEnds_raise rfl _ _
  obtain ⟨hmode, hstage⟩ : s.mode = .decode ∧ s.dstage = .seenData := by simpa [not_or] using hstate
  by_cases hn : n = 0
  · subst hn
    obtain rfl := Host.Outcome.next.inj ((exec_adpRead_zero hvalid hmode hstage).symm.trans h)
    exact adpEnds_respond (t := servesAdp 0 s) (Nat.zero_le _) rfl
  · obtain rfl := Host.Outcome.next.inj ((exec_adpRead_serves hvalid hmode hstage hn).symm.trans h)
    exact runGo_meets (adpRule n _) (meets_adpNext_frame hn rfl)

/-- What the ADP service leaves alone, errors and the response included. -/
def adpFrame (s : State) : State := { adpRest s with
  adp := none, outputs := [], err := none, errInfo := 0, fr := .idle, fe := .idle }

theorem eq_of_adpFrame (h : adpFrame t = adpFrame s) : t = { s with
    chunkLen := t.chunkLen, chunkTag := t.chunkTag, crc := t.crc, idatRemain := t.idatRemain
    inp := ⟨t.inp.q, s.inp.eos⟩, adp := t.adp, outputs := t.outputs, err := t.err, errInfo := t.errInfo, fr := t.fr
    fe := t.fe } :=
  calc t = { adpFrame t with
        chunkLen := t.chunkLen, chunkTag := t.chunkTag, crc := t.crc, idatRemain := t.idatRemain
        inp := ⟨t.inp.q, (adpFrame t).inp.eos⟩, adp := t.adp, outputs := t.outputs, err := t.err, errInfo := t.errInfo
        fr := t.fr, fe := t.fe } := rfl
    _ = _ := by rw [h]; rfl

theorem adpFrame_of_adpEnds (h : AdpEnds n s t) : adpFrame t = adpFrame s := by
  obtain ⟨u, hu, hends⟩ := h
  have hframe : adpFrame u = adpFrame s := congrArg (fun v : State => { v with
    adp := none, outputs := [], err := none, errInfo := 0, fr := .idle, fe := .idle }) hu
  rcases hends with ⟨r, info, rfl⟩ | ⟨need, got, p, rfl⟩ | ⟨d, -, rfl⟩
  · exact hframe
  · exact hframe
  · exact hframe

/-- What the end of a segment of the service says of the request, its answer and the error record. -/
theorem answer_of_adpEnds (hserv : s.fr.serving = true) (hvalid : s.err = none) (h : AdpEnds n s t) :
    (t.err = s.err → t.errInfo = s.errInfo ∧ t.fe = s.fe) ∧
    (t.fr = .idle → t.adp = none ∧ ∃ d ok, t.outputs = s.outputs ++ [.adpResponse d ok] ∧ d.length ≤ n.toNat ∧
      (ok = false → d = [])) ∧
    (t.fr ≠ .idle → t.adp = s.adp ∧ t.outputs = s.outputs) := by
  obtain ⟨u, hu, hends⟩ := h
  have hout : u.outputs = s.outputs := (congrArg State.outputs hu :)
  have hserv' : u.fr.serving = true := (congrArg (fun v : State => v.fr.serving) hu).trans hserv
  have hkept : u.errInfo = s.errInfo ∧ u.fe = s.fe := ⟨(congrArg State.errInfo hu :), (congrArg State.fe hu :)⟩
  rcases hends with ⟨r, info, rfl⟩ | ⟨need, got, p, rfl⟩ | ⟨d, hd, rfl⟩
  · refine ⟨fun herr => absurd herr (by simp [raise, hvalid]), fun _ => ⟨by simp [raise, hserv'], [], false, ?_,
      Nat.zero_le _, fun _ => rfl⟩, fun hfr => absurd rfl hfr⟩
    simp [raise, hserv', hout]
  · refine ⟨fun _ => hkept, fun hfr => ?_, fun _ => ⟨(congrArg State.adp hu :), hout⟩⟩
    cases hfr
  · refine ⟨fun _ => hkept, fun _ => ⟨rfl, d, true, ?_, hd, fun hok => by cases hok⟩, fun hfr => absurd rfl hfr⟩
    rw [respond_outputs, hout]

end

/-- Settles O58: from how a segment of FR_CLOSE, and of the service, ends. -/
theorem closeAndAdpFrame : Obligations.CloseAndAdpFrame := by
  refine ⟨fun s t hserv h => ?close, fun n s t h => ?adp⟩
  case close =>
    rcases exec_close h with hends | hends
    · obtain ⟨hframe, hkept, hout⟩ := endsFrom_closes hserv hends
      exact ⟨eq_of_closeFrame hframe, hkept, .inl hout⟩
    · obtain ⟨hframe, hkept, hout⟩ := endsFrom_closes (s := s.emit .infClose) hserv hends
      exact ⟨eq_of_closeFrame hframe, hkept, .inr hout⟩
  case adp =>
    rcases exec_adp h with ⟨-, rfl⟩ | ⟨hvalid, hends⟩
    · exact ⟨rfl, fun _ => ⟨rfl, rfl⟩, fun _ => ⟨rfl, [], false, rfl, Nat.zero_le _, fun _ => rfl⟩,
        fun hfr => absurd rfl hfr⟩
    · obtain ⟨herr, hidle, hholds⟩ := answer_of_adpEnds (s := servesAdp n s) rfl hvalid hends
      have hframe := adpFrame_of_adpEnds hends
      exact ⟨eq_of_adpFrame (s := s) hframe, herr, hidle, hholds⟩

end Sys2Proof.Proofs
end

section
/-! Proofs about what every step does to the mode, the stages, the row counter and the banks (10_state.md R39, R45, R46,
R57): the steps of FR, those of FE, and those of the outside. -/

namespace Sys2Proof.Proofs
open Sys2Proof.Machine Sys2Proof.Claims

/-! ### The steps of FR -/

/-- What a step of FR does to the mode, the stages and the rows. -/
structure FrAdvances (s t : State) : Prop where
  mode : t.mode = s.mode
  dstage : s.dstage.num ≤ t.dstage.num
  estage : t.estage.num = s.estage.num ∨ t.estage.num = s.estage.num + 1
  rows : RowsKept s t ∨ ¬ s.hasHeader ∧ t.hasHeader ∧ t.rowY = 0 ∧ t.bufSel = false ∧
    t.mem = s.mem.zeroBoth t.rowSize.toNat

/-- The mode, the stages and the rows of a state. -/
def stagesAndRows (s : State) : Mode × DStage × EStage × BitVec 64 × Word × Bool × Memory :=
  (s.mode, s.dstage, s.estage, s.rowSize, s.rowY, s.bufSel, s.mem)

section
variable {s t u : State}

theorem frAdvances_of_same (h : stagesAndRows t = stagesAndRows s) : FrAdvances s t := by
  simp only [stagesAndRows, Prod.mk.injEq] at h
  obtain ⟨hmode, hdstage, hestage, hsize, hy, hsel, hmem⟩ := h
  exact ⟨hmode, hdstage ▸ le_rfl, .inl (by rw [hestage]), .inl ⟨hsize, hy, hsel, hmem⟩⟩

theorem FrAdvances.trans_same (h : FrAdvances s u) (hsame : stagesAndRows t = stagesAndRows u) : FrAdvances s t := by
  simp only [stagesAndRows, Prod.mk.injEq] at hsame
  obtain ⟨hmode, hdstage, hestage, hsize, hy, hsel, hmem⟩ := hsame
  refine ⟨hmode.trans h.mode, hdstage ▸ h.dstage, hestage ▸ h.estage, ?_⟩
  simp only [RowsKept, State.hasHeader, hdstage, hestage, hsize, hy, hsel, hmem]
  exact h.rows

theorem FrAdvances.from_same (h : FrAdvances u t) (hsame : stagesAndRows u = stagesAndRows s) : FrAdvances s t := by
  simp only [stagesAndRows, Prod.mk.injEq] at hsame
  obtain ⟨hmode, hdstage, hestage, hsize, hy, hsel, hmem⟩ := hsame
  refine ⟨h.mode.trans hmode, hdstage ▸ h.dstage, hestage ▸ h.estage, ?_⟩
  have hrows := h.rows
  simp only [RowsKept, State.hasHeader, hdstage, hestage, hsize, hy, hsel, hmem] at hrows ⊢
  exact hrows

theorem frAdvances_of_endsFrom {R : State → Prop} (hR : ∀ u, R u → FrAdvances s u) (h : EndsFrom R t) :
    FrAdvances s t := by
  obtain ⟨u, hu, ⟨r, info, rfl⟩ | ⟨f, rfl⟩⟩ := h
  · exact (hR u hu).trans_same rfl
  · exact (hR u hu).trans_same rfl

/-- In a decode session no header was accepted in `Start`. -/
theorem not_hasHeader_of_start (hinv : s.Inv) (hmode : s.mode = .decode) (hstart : s.dstage = .start) :
    ¬ s.hasHeader := by
  obtain ⟨hestage, -, -⟩ := hinv.decode_side hmode
  simp [State.hasHeader, hstart, hestage, EStage.num]

/-- In an encode session none was accepted before FW_IHDR. -/
theorem not_hasHeader_of_encode (hinv : s.Inv) (hmode : s.mode = .encode) (hstage : s.estage.num ≤ 1) :
    ¬ s.hasHeader := by
  obtain ⟨hdstage, -, -⟩ := hinv.encode_side hmode
  simp only [State.hasHeader, hdstage, ne_eq, not_true_eq_false, false_or, not_le]
  omega

theorem frAdvances_of_scans (hinv : s.Inv) (hmode : s.mode = .decode) (h : Scans s t) : FrAdvances s t := by
  have hestage : t.estage = s.estage := (congrArg State.estage h.rest :)
  refine ⟨(congrArg State.mode h.rest :), h.stage, .inl (by rw [hestage]), ?_⟩
  refine h.rows.imp_right fun ⟨hstart, hafter, hy, hsel, hmem⟩ => ?_
  exact ⟨not_hasHeader_of_start hinv hmode hstart, .inl hafter, hy, hsel, hmem⟩

theorem frAdvances_of_closes (h : Closes s t) : FrAdvances s t := by
  have hestage : t.estage = s.estage := (congrArg State.estage h.rest :)
  exact ⟨(congrArg State.mode h.rest :), h.stage, .inl (by rw [hestage]), .inl ⟨(congrArg State.rowSize h.rest :),
    (congrArg State.rowY h.rest :), (congrArg State.bufSel h.rest :), (congrArg State.mem h.rest :)⟩⟩

theorem frAdvances_of_adpEnds {n : Word} (h : AdpEnds n s t) : FrAdvances s t :=
  frAdvances_of_same (congrArg stagesAndRows (adpFrame_of_adpEnds h) :)

theorem frAdvances_of_flushSegment (hstage : s.estage = .header) (h : FlushSegment s t) : FrAdvances s t := by
  obtain ⟨-, hopen, hended, -, hframe⟩ := h
  refine ⟨(congrArg State.mode hframe :), (congrArg State.dstage hframe :) ▸ le_rfl, ?_, .inl
    ⟨(congrArg State.rowSize hframe :), (congrArg State.rowY hframe :), (congrArg State.bufSel hframe :),
      (congrArg State.mem hframe :)⟩⟩
  cases heos : s.cz.eos with
  | false => exact .inl (by rw [(hopen heos).2.1])
  | true => exact .inr (by rw [(hended heos).2.1, hstage]; rfl)

theorem frAdvances_segmenterStep (s : State) : FrAdvances s (segmenterStep s) := by
  by_cases hon : s.segmenterEnabled = true
  · obtain ⟨-, -, -, -, hne⟩ := (segmenterEnabled_iff s).mp hon
    obtain ⟨b, q, hq⟩ := List.exists_cons_of_ne_nil hne
    rw [segmenterStep_enabled hon hq, segPush_frame]
    exact frAdvances_of_same rfl
  · rw [segmenterStep_disabled hon]
    exact frAdvances_of_same rfl

theorem frAdvances_adpRead {n : Word} (h : exec (.adpRead n) s = .next t) : FrAdvances s t := by
  rcases exec_adp h with ⟨-, rfl⟩ | ⟨-, hends⟩
  · exact frAdvances_of_same rfl
  · exact (frAdvances_of_adpEnds hends).from_same rfl

/-- A segment that goes on from a hold in a `ReadIn`, by the family of its point. -/
theorem frAdvances_reading (hinv : s.Inv) {need : Nat} {got : List Byte} {p : FrPoint}
    (hfr : s.fr = .reading need got p) : FrAdvances s (readLoop s.inp.q need got p s) := by
  obtain ⟨hmode, hneed, hsize, hholds⟩ := hinv.fr_reading need got p hfr
  have hscan : scanning p s.dstage → FrAdvances s (readLoop s.inp.q need got p s) := fun hp =>
    frAdvances_of_endsFrom (fun u => frAdvances_of_scans hinv hmode)
      (readLoop_meets (scanRule s) ⟨hp, scans_refl s⟩ hneed hsize)
  have hclose : closing p → FrAdvances s (readLoop s.inp.q need got p s) := fun hp =>
    frAdvances_of_endsFrom (fun u => frAdvances_of_closes)
      (readLoop_meets (closeRule s) ⟨hp, closes_refl s⟩ hneed hsize)
  have hadp : ∀ n, n ≠ 0 → p = .adpCrc n ∨ p = .adpHeader n ∨ p = .adpData n →
      FrAdvances s (readLoop s.inp.q need got p s) := fun n hn hp =>
    frAdvances_of_adpEnds (readLoop_meets (adpRule n s) ⟨hn, hp, rfl⟩ hneed hsize)
  cases p with
  | sig o => exact hscan trivial
  | header o => exact hscan trivial
  | ihdr o => exact hscan hholds.2
  | ihdrCrc o => exact hscan hholds.2.1
  | skip o left => exact hscan trivial
  | skipCrc o => exact hscan trivial
  | closeDataCrc => exact hclose (.inl rfl)
  | closeHeader => exact hclose (.inr (.inl rfl))
  | closeIendCrc => exact hclose (.inr (.inr rfl))
  | adpCrc n => exact hadp n hholds.2.2.1 (.inl rfl)
  | adpHeader n => exact hadp n hholds.2.2.1 (.inr (.inl rfl))
  | adpData n => exact hadp n hholds.2.2.1 (.inr (.inr rfl))

theorem exec_scan_encode {i : Instr} (hi : i ∈ [Instr.frSig, .frStep, .frOpen]) (hmode : s.mode ≠ .decode) :
    ∃ r info, exec i s = .next (raise r info s) := by
  simp only [List.mem_cons, List.not_mem_nil, or_false] at hi
  rcases hi with rfl | rfl | rfl <;> exact ⟨_, _, congrArg Host.Outcome.next (if_pos (.inl hmode))⟩

theorem frAdvances_scan (hinv : s.Inv) {i : Instr} (hi : i ∈ [Instr.frSig, .frStep, .frOpen])
    (h : exec i s = .next t) : FrAdvances s t := by
  by_cases hmode : s.mode = .decode
  · exact frAdvances_of_endsFrom (fun u => frAdvances_of_scans hinv hmode) (exec_scan hi h)
  · obtain ⟨r, info, hraise⟩ := exec_scan_encode hi hmode
    obtain rfl := Host.Outcome.next.inj (hraise.symm.trans h)
    exact frAdvances_of_same rfl

theorem frAdvances_fwIhdr (hinv : s.Inv) (h : exec .fwIhdr s = .next t) : FrAdvances s t := by
  by_cases hstate : s.mode ≠ .encode ∨ s.estage ≠ .sig
  · obtain rfl := Host.Outcome.next.inj ((exec_fwIhdr_badState hstate).symm.trans h)
    exact frAdvances_of_same rfl
  · obtain ⟨hmode, hstage⟩ : s.mode = .encode ∧ s.estage = .sig := by simpa [not_or] using hstate
    cases hcheck : encodeCheck s.params s.width s.height with
    | some e =>
      obtain rfl := Host.Outcome.next.inj ((exec_fwIhdr_raises hmode hstage hcheck).symm.trans h)
      exact frAdvances_of_same rfl
    | none =>
      obtain rfl := Host.Outcome.next.inj ((exec_fwIhdr_writes hmode hstage hcheck).symm.trans h)
      refine ⟨rfl, le_rfl, .inr (by rw [hstage]; rfl), .inr ⟨?_, .inr le_rfl, rfl, rfl, rfl⟩⟩
      exact not_hasHeader_of_encode hinv hmode (by rw [hstage]; exact le_rfl)

theorem frAdvances_fwFlush (hinv : s.Inv) (h : exec .fwFlush s = .next t) : FrAdvances s t := by
  by_cases hstate : s.mode ≠ .encode ∨ s.estage ≠ .header ∨ s.rowY ≠ s.height
  · obtain rfl := Host.Outcome.next.inj ((exec_fwFlush_badState hstate).symm.trans h)
    exact frAdvances_of_same rfl
  · obtain ⟨hmode, hstage, hrows⟩ : s.mode = .encode ∧ s.estage = .header ∧ s.rowY = s.height := by
      simpa [not_or] using hstate
    obtain rfl := Host.Outcome.next.inj ((exec_fwFlush_flushes hmode hstage hrows).symm.trans h)
    have hsegment := flushLoop_flushSegment (s := s.emit .defClose) (hinv.seg_open hstage).2
    exact (frAdvances_of_flushSegment (s := s.emit .defClose) hstage hsegment).from_same rfl

theorem frAdvances_chunkEnded (hstage : s.estage = .flushed) (tag payload : List Byte) :
    FrAdvances s ({ s.writeChunk tag payload with estage := .ended }.frDone 0) :=
  ⟨rfl, le_rfl, .inr (by rw [hstage]; rfl), .inl ⟨rfl, rfl, rfl, rfl⟩⟩

theorem frAdvances_exec (hinv : s.Inv) {i : Instr} (htarget : i.target = .fr) (h : exec i s = .next t) :
    FrAdvances s t := by
  cases i with
  | nop => simp at htarget
  | sessionReset m => simp at htarget
  | feRecon => simp at htarget
  | feApply f => simp at htarget
  | crcInit =>
    obtain rfl := Host.Outcome.next.inj h
    exact frAdvances_of_same rfl
  | crcByte b =>
    obtain rfl := Host.Outcome.next.inj h
    exact frAdvances_of_same rfl
  | frSig => exact frAdvances_scan hinv (by decide) h
  | frStep => exact frAdvances_scan hinv (by decide) h
  | frOpen => exact frAdvances_scan hinv (by decide) h
  | frClose =>
    rcases exec_close h with hends | hends
    · exact frAdvances_of_endsFrom (fun u => frAdvances_of_closes) hends
    · exact (frAdvances_of_endsFrom (fun u => frAdvances_of_closes) hends).from_same rfl
  | fwSig =>
    obtain rfl := Host.Outcome.next.inj h
    split
    next => exact frAdvances_of_same rfl
    next hstate =>
      obtain ⟨-, hstage⟩ : s.mode = .encode ∧ s.estage = .start := by simpa [not_or] using hstate
      exact ⟨rfl, le_rfl, .inr (by rw [hstage]; rfl), .inl ⟨rfl, rfl, rfl, rfl⟩⟩
  | fwIhdr => exact frAdvances_fwIhdr hinv h
  | fwFlush => exact frAdvances_fwFlush hinv h
  | fwIend =>
    by_cases hstate : s.mode ≠ .encode ∨ s.estage ≠ .flushed
    · obtain rfl := Host.Outcome.next.inj ((exec_fwIend_badState hstate).symm.trans h)
      exact frAdvances_of_same rfl
    · obtain ⟨hmode, hstage⟩ : s.mode = .encode ∧ s.estage = .flushed := by simpa [not_or] using hstate
      obtain rfl := Host.Outcome.next.inj ((exec_fwIend_writes hmode hstage).symm.trans h)
      exact frAdvances_chunkEnded hstage tagIend []
  | adpRead n => exact frAdvances_adpRead h

theorem frAdvances_frRun (hinv : s.Inv) (h : frRun s = .next t) : FrAdvances s t := by
  cases hfr : s.fr with
  | idle =>
    have hrun : frRun s = .next s := by simp only [frRun, hfr]
    obtain rfl := Host.Outcome.next.inj (hrun.symm.trans h)
    exact frAdvances_of_same rfl
  | accepted i => exact frAdvances_exec hinv (hinv.fr_own i hfr).1 ((frRun_accepted hfr).symm.trans h)
  | reading need got p =>
    obtain rfl := Host.Outcome.next.inj ((perform_frRun_reading hfr).symm.trans h)
    exact frAdvances_reading hinv hfr
  | flushing =>
    obtain ⟨-, hstage, -⟩ := hinv.fr_flushing hfr
    obtain rfl := Host.Outcome.next.inj ((perform_frRun_flushing hfr).symm.trans h)
    exact frAdvances_of_flushSegment hstage (flushLoop_flushSegment (hinv.seg_open hstage).2)

theorem frAdvances_frServe (h : frServe s = .next t) : FrAdvances s t := by
  rcases frServe_eq s with hsame | ⟨n, -, -, hserve⟩
  · obtain rfl := Host.Outcome.next.inj (hsame.symm.trans h)
    exact frAdvances_of_same rfl
  · exact frAdvances_adpRead (hserve.symm.trans h)

end

/-! ### The steps of FE -/

/-- A segment of FE with `k` of `n` row bytes read: the bytes it takes go to CUR, and then it raises, holds inside the row
or delivers it. -/
def RowMoves (n k : Nat) (s t : State) : Prop :=
  ∃ z d u, z.eos = s.zin.eos ∧ k + d.length ≤ n ∧ u = { s with zin := z, mem := s.mem.writeBytes s.bufSel k d } ∧
    ((∃ r info, t = raise r info u) ∨ (k + d.length < n ∧ t = { u with fe := .row n (k + d.length) }) ∨
      ∃ row, row.length = n - 1 ∧ t = { u with
        mem := u.mem.writeBytes u.bufSel 1 row, bufSel := !u.bufSel, rowY := u.rowY + 1, feResult := 0, fe := .idle })

theorem rowLoop_moves {n k : Nat} (hk : k ≤ n) (s : State) : RowMoves n k s (rowLoop s.zin.q n k s) := by
  rcases rowLoop_segment n k s with ⟨d, rest, -, hlen, ht⟩ | ⟨hshort, ht⟩
  · refine ⟨{ s.zin with q := rest }, d, _, rfl, by omega, rfl, ?_⟩
    rw [ht]
    cases htag : filterOfTag ((s.mem.writeBytes s.bufSel k d).readByte s.bufSel 0) with
    | none => exact .inl ⟨_, _, reconRow_of_badTag htag⟩
    | some f => exact .inr (.inr ⟨_, by rw [recon_length, readBytes_length], reconRow_of_tag htag⟩)
  · refine ⟨{ s.zin with q := [] }, s.zin.q, _, rfl, hshort.le, rfl, ?_⟩
    rw [ht]
    split
    · exact .inl ⟨_, _, rfl⟩
    · exact .inr (.inl ⟨hshort, rfl⟩)

/-- What a step of FE does to the mode, the stages and the rows. -/
structure FeAdvances (s t : State) : Prop where
  mode : t.mode = s.mode
  dstage : t.dstage = s.dstage
  estage : t.estage = s.estage
  rowSize : t.rowSize = s.rowSize
  rows : t.rowY = s.rowY ∧ t.bufSel = s.bufSel ∨ t.rowY = s.rowY + 1 ∧ t.bufSel = !s.bufSel
  bytes : ∀ sel j, s.rowSize.toNat ≤ j → t.mem.readByte sel j = s.mem.readByte sel j

section
variable {s t : State}

theorem feAdvances_of_same (h : stagesAndRows t = stagesAndRows s) : FeAdvances s t := by
  simp only [stagesAndRows, Prod.mk.injEq] at h
  obtain ⟨hmode, hdstage, hestage, hsize, hy, hsel, hmem⟩ := h
  exact ⟨hmode, hdstage, hestage, hsize, .inl ⟨hy, hsel⟩, fun _ _ _ => by rw [hmem]⟩

theorem feAdvances_of_rowMoves {n k : Nat} (hn : n = s.rowSize.toNat) (hpos : 1 ≤ n) (h : RowMoves n k s t) :
    FeAdvances s t := by
  obtain ⟨z, d, u, -, hd, rfl, hends⟩ := h
  have hbytes : ∀ sel j, s.rowSize.toNat ≤ j →
      (s.mem.writeBytes s.bufSel k d).readByte sel j = s.mem.readByte sel j := fun sel j hj =>
    Memory.readByte_writeBytes_outside _ _ _ _ _ _ (.inr (.inr (by omega)))
  rcases hends with ⟨r, info, rfl⟩ | ⟨-, rfl⟩ | ⟨row, hrow, rfl⟩
  · exact ⟨rfl, rfl, rfl, rfl, .inl ⟨rfl, rfl⟩, hbytes⟩
  · exact ⟨rfl, rfl, rfl, rfl, .inl ⟨rfl, rfl⟩, hbytes⟩
  · refine ⟨rfl, rfl, rfl, rfl, .inr ⟨rfl, rfl⟩, fun sel j hj => Eq.trans ?_ (hbytes sel j hj)⟩
    exact Memory.readByte_writeBytes_outside _ _ _ _ _ _ (.inr (.inr (by omega)))

/-- A row has at least its tag byte once a header was accepted. -/
theorem rowSize_pos (hinv : s.Inv) (hheader : s.hasHeader) : 1 ≤ s.rowSize.toNat := by
  obtain ⟨-, hsize, -⟩ := hinv.geometry hheader
  rw [hsize, rowSizeOf_toNat]
  omega

/-- FE_RECON from its start: an error, the end of the rows, or a segment of a row. -/
theorem exec_feRecon_moves (h : exec .feRecon s = .next t) : (∃ r info, t = raise r info s) ∨
    (s.mode = .decode ∧ s.dstage ≠ .start ∧ s.height.toNat ≤ s.rowY.toNat ∧
      t = { s with eor := true, feResult := 1, fe := .idle }) ∨
    (s.mode = .decode ∧ s.dstage = .seenData ∧ s.rowY.toNat < s.height.toNat ∧ RowMoves s.rowSize.toNat 0 s t) := by
  by_cases hstate : s.mode ≠ .decode ∨ s.dstage = .start ∨ s.dstage = .seenHeader
  · exact .inl ⟨_, _, Host.Outcome.next.inj (h.symm.trans (exec_feRecon_badState hstate))⟩
  obtain ⟨hmode, hstart, hhead⟩ : s.mode = .decode ∧ s.dstage ≠ .start ∧ s.dstage ≠ .seenHeader := by
    simpa [not_or] using hstate
  have hstage : s.dstage = .seenData ∨ s.dstage = .seenEnd := by
    cases hd : s.dstage <;> simp [hd] at hstart hhead ⊢
  rcases Nat.lt_or_ge s.rowY.toNat s.height.toNat with hrow | hrow
  · rcases hstage with hdata | hend
    · obtain rfl := Host.Outcome.next.inj ((exec_feRecon_row hmode hdata hrow).symm.trans h)
      exact .inr (.inr ⟨hmode, hdata, hrow, rowLoop_moves (Nat.zero_le _) s⟩)
    · exact .inl ⟨_, _, Host.Outcome.next.inj (h.symm.trans (exec_feRecon_closed hmode hend hrow))⟩
  · exact .inr (.inl ⟨hmode, hstart, hrow,
      Host.Outcome.next.inj (h.symm.trans (exec_feRecon_endOfRows hmode hstage hrow))⟩)

/-- FE_APPLY: an error, or the row filtered. -/
theorem exec_feApply_moves {f : BitVec 3} (h : exec (.feApply f) s = .next t) : (∃ r info, t = raise r info s) ∨
    (s.mode = .encode ∧ s.estage = .header ∧ s.rowY.toNat < s.height.toNat ∧ ∃ row tag, t = { s with
      zout := ⟨row, s.zout.eos⟩, mem := s.mem.writeByte s.bufSel 0 tag
      bufSel := !s.bufSel, rowY := s.rowY + 1, feResult := 0, fe := .idle }) := by
  cases htag : filterOfTag (f.setWidth 8) with
  | none =>
    have hexec : exec (.feApply f) s =
        .next (raise .illegalCommand ((0x41 : BitVec 8) ++ f.setWidth 24 : BitVec 32) s) := by
      rw [exec, execFeApply, htag]
    exact .inl ⟨_, _, Host.Outcome.next.inj (h.symm.trans hexec)⟩
  | some flt =>
    rw [exec_feApply htag] at h
    obtain rfl := Host.Outcome.next.inj h
    split
    next => exact .inl ⟨_, _, rfl⟩
    next hstate =>
      obtain ⟨hmode, hstage, hrow⟩ : s.mode = .encode ∧ s.estage = .header ∧ s.rowY.toNat < s.height.toNat := by
        simpa [not_or] using hstate
      exact .inr ⟨hmode, hstage, hrow, _, _, applyRow_eq flt _ s⟩

theorem feAdvances_feRun (hinv : s.Inv) (h : feRun s = .next t) : FeAdvances s t := by
  cases hfe : s.fe with
  | idle =>
    have hrun : feRun s = .next s := by simp only [feRun, hfe]
    obtain rfl := Host.Outcome.next.inj (hrun.symm.trans h)
    exact feAdvances_of_same rfl
  | row n k =>
    obtain ⟨-, hstage, hn, hk, -⟩ := hinv.fe_row n k hfe
    have hrun : feRun s = .next (rowLoop s.zin.q n k s) := by simp only [feRun, hfe]
    obtain rfl := Host.Outcome.next.inj (hrun.symm.trans h)
    exact feAdvances_of_rowMoves hn (by omega) (rowLoop_moves hk.le s)
  | accepted i =>
    have hexec := (feRun_accepted hfe).symm.trans h
    obtain ⟨htarget, -⟩ := hinv.fe_own i hfe
    cases i with
    | feRecon =>
      rcases exec_feRecon_moves hexec with ⟨r, info, rfl⟩ | ⟨-, -, -, rfl⟩ | ⟨-, hdata, -, hmoves⟩
      · exact feAdvances_of_same rfl
      · exact feAdvances_of_same rfl
      · exact feAdvances_of_rowMoves rfl (rowSize_pos hinv (.inl (by simp [hdata]))) hmoves
    | feApply f =>
      rcases exec_feApply_moves hexec with ⟨r, info, rfl⟩ | ⟨-, hstage, -, row, tag, rfl⟩
      · exact feAdvances_of_same rfl
      · have hpos := rowSize_pos hinv (.inr (by rw [hstage]; exact le_rfl))
        refine ⟨rfl, rfl, rfl, rfl, .inr ⟨rfl, rfl⟩, fun sel j hj => ?_⟩
        exact (Memory.readByte_writeByte ..).trans (if_neg (by omega))
    | _ => simp at htarget

end

/-! ### The steps of the outside -/

/-- What a CMD write can do (R142). -/
inductive Issues (w : Word) (s : State) : State → Prop where
  | nothing : Issues w s s
  | reset (m : Mode) (hdec : decodeCmd w = .instr (.sessionReset m)) : Issues w s (sessionReset m s)
  | raises (r : Reason) : Issues w s (raise r w s)
  | frAccepts (i : Instr) (hvalid : s.err = none) (htarget : i.target = .fr) (hport : i.port = .cmd) :
      Issues w s { s with fr := .accepted i }
  | feAccepts (i : Instr) (hvalid : s.err = none) (htarget : i.target = .fe) (hwf : i.wellFormed = true) :
      Issues w s { s with fe := .accepted i }

theorem issue_issues {w : Word} {s t : State} (h : issue w s = .next t) : Issues w s t := by
  cases hdec : decodeCmd w with
  | reject why =>
    obtain ⟨hraise, hignored⟩ := (illegalWord_of_decodeCmd_reject hdec).2 s
    cases herr : s.err with
    | none =>
      obtain rfl := Host.Outcome.next.inj ((hraise herr).symm.trans h)
      exact .raises _
    | some e =>
      obtain rfl := Host.Outcome.next.inj ((hignored (by simp [herr])).symm.trans h)
      exact .nothing
  | instr i =>
    obtain ⟨hwf, hport, -⟩ := decodeCmd_eq_instr hdec
    cases htarget : i.target with
    | sys =>
      have hexec := (issue_eq_exec_of_target_sys hdec htarget s).symm.trans h
      cases i with
      | nop =>
        obtain rfl := Host.Outcome.next.inj hexec
        exact .nothing
      | sessionReset m =>
        obtain rfl := Host.Outcome.next.inj hexec
        exact .reset m hdec
      | _ => simp at htarget
    | fr =>
      obtain ⟨hignored, hbusy, haccepts⟩ := (frGate_of_decodeCmd hdec htarget).2 s
      cases herr : s.err with
      | some e =>
        obtain rfl := Host.Outcome.next.inj ((hignored (by simp [herr])).symm.trans h)
        exact .nothing
      | none =>
        by_cases hidle : s.fr = .idle
        · obtain rfl := Host.Outcome.next.inj ((haccepts herr hidle).symm.trans h)
          exact .frAccepts i herr htarget hport
        · obtain rfl := Host.Outcome.next.inj ((hbusy herr hidle).symm.trans h)
          exact .raises _
    | fe =>
      obtain ⟨hignored, hbusy, haccepts⟩ := (feGate_of_decodeCmd hdec htarget).2 s
      cases herr : s.err with
      | some e =>
        obtain rfl := Host.Outcome.next.inj ((hignored (by simp [herr])).symm.trans h)
        exact .nothing
      | none =>
        by_cases hidle : s.fe = .idle
        · obtain rfl := Host.Outcome.next.inj ((haccepts herr hidle).symm.trans h)
          exact .feAccepts i herr htarget hwf
        · obtain rfl := Host.Outcome.next.inj ((hbusy herr hidle).symm.trans h)
          exact .raises _

/-- A register write: nothing, a CMD write, or a store of the register (R110). -/
theorem regWrite_cases {idx : BitVec 10} {w : Word} {s t : State} (h : regWrite idx w s = .next t) :
    t = s ∨ (regAt idx = some .cmd ∧ Issues w s t) ∨ ∃ r, t = regStore r w s := by
  cases hreg : regAt idx with
  | none => exact .inl (Host.Outcome.next.inj (h.symm.trans (regWrite_of_regAt_none hreg w s)))
  | some r =>
    by_cases hcmd : r = .cmd
    · subst hcmd
      have hissue : regWrite idx w s = issue w s := by simp only [regWrite, hreg, if_true]
      exact .inr (.inl ⟨rfl, issue_issues (hissue.symm.trans h)⟩)
    · exact .inr (.inr ⟨r, Host.Outcome.next.inj (h.symm.trans (regWrite_of_regAt hreg hcmd w s))⟩)

/-- A row-buffer write: nothing, BusyWrite, or one byte (R111). -/
theorem rowWrite_cases (v : View) (i : BitVec 34) (b : Byte) (s : State) : rowWrite v i b s = s ∨
    (∃ r info, rowWrite v i b s = raise r info s) ∨
    rowWrite v i b s = { s with mem := s.mem.writeByte (s.viewBank v) i.toNat b } := by
  rw [rowWrite]
  split
  · exact .inl rfl
  · split
    · exact .inr (.inl ⟨_, _, rfl⟩)
    · exact .inr (.inr rfl)

/-- The mode, the stages and the row counter of a state. -/
def stagesAndRow (s : State) : Mode × DStage × EStage × Word × Bool := (s.mode, s.dstage, s.estage, s.rowY, s.bufSel)

theorem stagesAndRow_regWrite {idx : BitVec 10} {w : Word} {s t : State} (hreset : ¬ isReset (.regWrite idx w))
    (h : regWrite idx w s = .next t) : stagesAndRow t = stagesAndRow s := by
  rcases regWrite_cases h with rfl | ⟨hcmd, hissues⟩ | ⟨r, rfl⟩
  · rfl
  · cases hissues with
    | nothing => rfl
    | reset m hdec => exact absurd (.inr ⟨idx, w, m, rfl, hcmd, hdec⟩) hreset
    | raises r => rfl
    | frAccepts i => rfl
    | feAccepts i => rfl
  · rw [regStore_frame]
    rfl

/-- Every step that is not a reset: a step of the outside leaves the stages and the row counter alone. -/
theorem perform_advances {e : Event} {s t : State} (hinv : s.Inv) (hreset : ¬ isReset e) (h : perform e s = .next t) :
    stagesAndRow t = stagesAndRow s ∨ FrAdvances s t ∨ e = .feRun ∧ FeAdvances s t := by
  cases e with
  | regWrite idx w => exact .inl (stagesAndRow_regWrite hreset h)
  | rowWrite v i b =>
    obtain rfl := Host.Outcome.next.inj h
    rcases rowWrite_cases v i b s with hw | ⟨r, info, hw⟩ | hw <;> exact .inl (congrArg stagesAndRow hw :)
  | takeOut => obtain rfl := Host.Outcome.next.inj h; exact .inl (congrArg stagesAndRow (takeOut_frame s) :)
  | takeZout => obtain rfl := Host.Outcome.next.inj h; exact .inl (congrArg stagesAndRow (takeZout_frame s) :)
  | request n => obtain rfl := Host.Outcome.next.inj h; exact .inl (congrArg stagesAndRow (adpRequest_frame n s) :)
  | frRun => exact .inr (.inl (frAdvances_frRun hinv h))
  | frServe => exact .inr (.inl (frAdvances_frServe h))
  | frSegment => exact .inr (.inl (Host.Outcome.next.inj h ▸ frAdvances_segmenterStep s))
  | feRun => exact .inr (.inr ⟨rfl, feAdvances_feRun hinv h⟩)
  | powerOn => exact absurd (.inl rfl) hreset
  | _ => obtain rfl := Host.Outcome.next.inj h; exact .inl rfl

theorem step_advances {e : Event} {rest : List Event} {s t : State} (hinv : s.Inv) (hsched : s.sched = e :: rest)
    (hreset : ¬ isReset e) (h : step s = .next t) :
    stagesAndRow t = stagesAndRow s ∨ FrAdvances s t ∨ e = .feRun ∧ FeAdvances s t := by
  obtain hkept | hfr | hfe := perform_advances (inv_sched hinv rest) hreset ((step_of_sched hsched).symm.trans h)
  · exact .inl hkept
  · exact .inr (.inl ⟨hfr.mode, hfr.dstage, hfr.estage, hfr.rows⟩)
  · exact .inr (.inr ⟨hfe.1, hfe.2.mode, hfe.2.dstage, hfe.2.estage, hfe.2.rowSize, hfe.2.rows, hfe.2.bytes⟩)

/-- Settles O54: only FR moves a stage, and each of its commands moves one stage forward. -/
theorem stagesOnlyMoveForward : Obligations.StagesOnlyMoveForward := by
  intro s t e rest hinv hsched hreset hstep
  rcases step_advances hinv hsched hreset hstep with hkept | hfr | ⟨-, hfe⟩
  · simp only [stagesAndRow, Prod.mk.injEq] at hkept
    obtain ⟨hmode, hdstage, hestage, -, -⟩ := hkept
    exact ⟨hmode, hdstage ▸ le_rfl, .inl (by rw [hestage])⟩
  · exact ⟨hfr.mode, hfr.dstage, hfr.estage⟩
  · exact ⟨hfe.mode, hfe.dstage ▸ le_rfl, .inl (by rw [hfe.estage])⟩

/-- Settles O55: FR changes the row counter only with a header, FE only by a row. -/
theorem rowCounterCountsRows : Obligations.RowCounterCountsRows := by
  intro s t e rest hinv hsched hreset hstep
  rcases step_advances hinv hsched hreset hstep with hkept | hfr | ⟨he, hfe⟩
  · simp only [stagesAndRow, Prod.mk.injEq] at hkept
    obtain ⟨-, -, -, hy, hsel⟩ := hkept
    exact .inl ⟨hy, hsel⟩
  · rcases hfr.rows with ⟨-, hy, hsel, -⟩ | ⟨hbefore, hafter, hy, hsel, -⟩
    · exact .inl ⟨hy, hsel⟩
    · exact .inr (.inl ⟨hy, hsel, hbefore, hafter⟩)
  · rcases hfe.rows with ⟨hy, hsel⟩ | ⟨hy, hsel⟩
    · exact .inl ⟨hy, hsel⟩
    · exact .inr (.inr ⟨he, hy, hsel⟩)

/-- Settles O56: FR zeroes a row's bytes at most, and FE writes bytes of the row it handles. -/
theorem agentsKeepBytesBeyondTheRow : Obligations.AgentsKeepBytesBeyondTheRow := by
  intro s t e hinv hagent h sel j hj
  have hfr : FrAdvances s t → t.mem.readByte sel j = s.mem.readByte sel j := fun hadv => by
    rcases hadv.rows with ⟨-, -, -, hmem⟩ | ⟨-, -, -, -, hmem⟩
    · rw [hmem]
    · rw [hmem, Memory.readByte_zeroBoth, if_neg (not_lt.mpr hj)]
  rcases hagent with rfl | rfl | rfl | rfl
  · exact hfr (frAdvances_frRun hinv h)
  · exact hfr (frAdvances_frServe h)
  · exact hfr (Host.Outcome.next.inj h ▸ frAdvances_segmenterStep s)
  · have hadv := feAdvances_feRun hinv h
    exact hadv.bytes sel j (hadv.rowSize ▸ hj)

end Sys2Proof.Proofs
end

section
/-! Proofs about the invariant over the steps of FR (Safety.lean, `State.Inv`). FR's record is set last, so what each piece
of pseudocode keeps is the invariant without it. -/

namespace Sys2Proof.Proofs
open Sys2Proof.Machine Sys2Proof.Claims

/-! ### The checks of a header -/

theorem toNat_of_toInt_pos {w : Word} (h : 0 < w.toInt) : 1 ≤ w.toNat ∧ w.toNat < 2 ^ 31 := by
  have hcond := BitVec.toInt_eq_toNat_cond w
  have hlt := w.isLt
  split at hcond <;> omega

/-- The checks decode and encode share, and the profile, are what an accepted header needs (R204, R271). -/
theorem acceptedHeader_of_dims {p : Config.Params} {w h fmt il : Word} (hw : 0 < w.toInt) (hh : 0 < h.toInt)
    (hfits : w.toNat * h.toNat * 8 ≤ 2 ^ 63 - 1) (hwide : w.toNat ≤ p.maxWidth) (hfmt : fmt = 0x00000608)
    (hil : il = 0) : AcceptedHeader p w h fmt il :=
  ⟨(toNat_of_toInt_pos hw).1, hwide, (toNat_of_toInt_pos hh).1, (toNat_of_toInt_pos hh).2, by omega, hfmt, hil⟩

theorem acceptedHeader_of_encodeCheck {p : Config.Params} {w h : Word} (hcheck : encodeCheck p w h = none) :
    AcceptedHeader p w h 0x00000608 0 := by
  obtain ⟨hw, hh, hfits, hwide⟩ := encodeCheck_eq_none hcheck
  exact acceptedHeader_of_dims hw hh hfits hwide rfl rfl

theorem acceptedHeader_of_ihdrCheck {p : Config.Params} {d : List Byte} (hcheck : ihdrCheck p d = none) :
    AcceptedHeader p (be32At d 0) (be32At d 4) (hdrFmtOf d) ((byteAt d 12).setWidth 32) := by
  rw [ihdrCheck_eq_headerError, headerError] at hcheck
  split_ifs at hcheck with hcomp hfilt hw hh hover htype hil hwide
  rw [not_not] at hcomp hfilt hil
  obtain ⟨hdepth, hcolour⟩ := not_or.mp htype
  refine acceptedHeader_of_dims (not_le.mp hw) (not_le.mp hh) (not_lt.mp hover) (not_lt.mp hwide) ?_ ?_
  · rw [hdrFmtOf, hcomp, hfilt, not_not.mp hdepth, not_not.mp hcolour]
    rfl
  · rw [hil]
    rfl

/-! ### The invariant without FR's record -/

/-- The invariant of the session around FR's command: `State.Inv` but for FR's own record. -/
abbrev Core (s : State) : Prop := State.Inv { s with fr := .idle }

section
variable {s t : State}

theorem core_of_inv (h : s.Inv) : Core s :=
  h.set_fr .idle (.inr rfl) (fun _ hfr => by cases hfr) (fun _ _ _ hfr => by cases hfr) fun hfr => by cases hfr

theorem core_of_agree (h : Core s) (e : t = { s with
    inp := t.inp, zin := t.zin, cz := t.cz, out := ⟨t.out.q, s.out.eos⟩, zout := ⟨t.zout.q, s.zout.eos⟩
    draws := t.draws, outputs := t.outputs, sched := t.sched, irqEn := t.irqEn, crc := t.crc
    chunkLen := t.chunkLen, chunkTag := t.chunkTag, frResult := t.frResult, feResult := t.feResult, fr := t.fr }) :
    Core t :=
  State.Inv.of_agree h (congrArg (fun u : State => { u with fr := .idle }) e)

theorem inv_raise (h : Core s) (r : Reason) (info : Word) : (raise r info s).Inv := { h with
  invalid_idle := fun _ => ⟨rfl, rfl⟩
  info_with_err := fun herr => by simp [raise] at herr
  fr_reading := fun _ _ _ hfr => by cases hfr
  fe_own := fun _ hfe => by cases hfe
  fe_row := fun _ _ hfe => by cases hfe }

/-- The signature was read (R220). -/
theorem core_signed (h : Core s) (hmode : s.mode = .decode) : Core { s with sigOk := true, frResult := 0 } := { h with
  sig_first := fun _ => rfl
  sig_encode := fun hencode => absurd (hmode.symm.trans hencode) (by decide)
  fr_reading := fun _ _ _ hfr => by cases hfr }

/-- In `Start` of a decode session: no header, no row under way, no row counted. -/
theorem core_start (h : Core s) (hmode : s.mode = .decode) (hstart : s.dstage = .start) :
    ¬ s.hasHeader ∧ s.eor ≠ true ∧ s.estage = .start ∧ ∀ n k, s.fe ≠ .row n k := by
  have hno : ¬ s.hasHeader := not_hasHeader_of_start (s := { s with fr := .idle }) h hmode hstart
  refine ⟨hno, fun heor => hno (h.eor_done heor).1, (h.decode_side hmode).1, fun n k hfe => ?_⟩
  obtain ⟨-, hstage, -⟩ := h.fe_row n k hfe
  rcases hstage with hstage | hstage <;> exact absurd (hstart.symm.trans hstage) (by decide)

/-- The header registers were written from an IHDR payload (R204). -/
theorem core_headerRegs (h : Core s) (hmode : s.mode = .decode) (hstart : s.dstage = .start) (w ht fmt il crc : Word) :
    Core { s with crc := crc, width := w, height := ht, hdrFmt := fmt, hdrIl := il } := by
  obtain ⟨hno, heor, hestage, hfe⟩ := core_start h hmode hstart
  exact { h with
    geometry := fun hheader => absurd hheader hno
    eor_done := fun he => absurd he heor
    flushed := fun hnum => by simp [hestage, EStage.num] at hnum
    fr_reading := fun _ _ _ hfr => by cases hfr
    fr_flushing := fun hfr => by cases hfr
    fe_row := fun n k hrow => absurd hrow (hfe n k) }

/-- A header was accepted (R204). -/
theorem core_accepted (h : Core s) (hmode : s.mode = .decode) (hstart : s.dstage = .start) (hsig : s.sigOk = true)
    (hdims : s.DimsAccepted) : Core { s.acceptRows s.width with dstage := .seenHeader, frResult := 1 } := by
  obtain ⟨-, heor, hestage, hfe⟩ := core_start h hmode hstart
  have hheader : State.hasHeader { s.acceptRows s.width with dstage := .seenHeader, frResult := 1 } :=
    .inl (show DStage.seenHeader ≠ .start by decide)
  exact { h with
    mem_wf := Memory.wf_zeroBoth h.mem_wf _
    encode_side := fun hencode => absurd (hmode.symm.trans hencode) (by decide)
    sig_first := fun _ => hsig
    geometry := fun _ => ⟨hdims, rfl, Nat.zero_le _, le_max_right _ _, le_max_right _ _⟩
    no_geometry := fun hno => absurd hheader hno
    eor_done := fun he => absurd he heor
    flushed := fun hnum => by simp [hestage, EStage.num] at hnum
    fr_reading := fun _ _ _ hfr => by cases hfr
    fr_flushing := fun hfr => by cases hfr
    fe_row := fun n k hrow => absurd hrow (hfe n k) }

/-- With a header accepted the decode stage goes to `SeenData` and `SeenEnd` (R221, R224). -/
theorem core_stage (h : Core s) (hmode : s.mode = .decode) (hbefore : s.dstage ≠ .start) {d : DStage}
    (hd : d = .seenData ∨ d = .seenEnd) (w r : Word) :
    Core { s with idatRemain := w, dstage := d, frResult := r } := by
  have hne : d ≠ .start := by rcases hd with rfl | rfl <;> decide
  exact { h with
    encode_side := fun hencode => absurd (hmode.symm.trans hencode) (by decide)
    sig_first := fun _ => h.sig_first (.inl hbefore)
    geometry := fun _ => h.geometry (.inl hbefore)
    no_geometry := fun hno => absurd (.inl hne) hno
    eor_done := fun he => ⟨.inl hne, (h.eor_done he).2⟩
    fr_reading := fun _ _ _ hfr => by cases hfr
    fe_row := fun n k hrow => ⟨hmode, hd, (h.fe_row n k hrow).2.2⟩ }

/-- A data chunk was entered, or payload delivered, and the request answered (R230). -/
theorem core_adp (h : Core s) (hmode : s.mode = .decode) (a : Option Word) (w : Word) :
    Core { s with idatRemain := w, adp := a } := { h with
  encode_side := fun hencode => absurd (hmode.symm.trans hencode) (by decide)
  fr_reading := fun _ _ _ hfr => by cases hfr }

end

/-! ### The decode side of FR -/

/-- At a point of FR: a valid decode session with the checks of the point passed. -/
def FrAt (p : FrPoint) (s : State) : Prop := Core s ∧ s.err = none ∧ s.mode = .decode ∧ p.holds s

section
variable {s t : State}

theorem meets_afterChunk_inv (o : Bool) (h : Core s) (herr : s.err = none) (hmode : s.mode = .decode)
    (hsig : s.sigOk = true) (hend : s.dstage ≠ .seenEnd) : Meets FrAt State.Inv (afterChunk o s) := by
  refine meets_ite (fun _ => meets_ite (fun _ => ?_) fun hdata => ⟨by decide, rfl, h, herr, hmode, hsig, ?_⟩) fun _ => h
  · exact core_of_agree (t := { s with frResult := 2 }) h rfl
  · cases hd : s.dstage <;> simp [hd] at hend hdata ⊢

theorem meets_afterHeader_inv (o : Bool) (d : List Byte) (h : FrAt (.header o) s) :
    Meets FrAt State.Inv (afterHeader o d s) := by
  obtain ⟨h, herr, hmode, hsig, hstage⟩ := h
  have hcore : Core (chunkHeader d s) := core_of_agree h rfl
  have hraise := inv_raise hcore
  have hend : s.dstage ≠ .seenEnd := by rcases hstage with h | h <;> simp [h]
  refine meets_ite (fun _ => ?ihdr) fun _ => meets_ite (fun _ => ?idat) fun _ => meets_ite (fun _ => hraise _ _)
    fun _ => ?other
  case ihdr =>
    exact meets_ite (fun _ => hraise _ _) fun hstart => meets_ite (fun _ => hraise _ _) fun _ =>
      ⟨by decide, rfl, hcore, herr, hmode, hsig, not_not.mp hstart⟩
  case idat =>
    refine meets_ite (fun _ => hraise _ _) fun hheader => ?_
    have hbefore : s.dstage ≠ .start := fun hstart => hheader (by simp [hstart])
    refine meets_afterChunk_inv o ?_ herr hmode hsig (show DStage.seenData ≠ .seenEnd by decide)
    exact core_stage hcore hmode hbefore (.inl rfl) (be32At d 0) 2
  case other =>
    exact meets_ite (fun _ => hraise _ _) fun _ =>
      meets_skipNext ⟨hcore, herr, hmode, hsig, hstage⟩ fun _ => ⟨hcore, herr, hmode, hsig, hstage⟩

theorem meets_afterIhdr_inv (o : Bool) (d : List Byte) (h : FrAt (.ihdr o) s) :
    Meets FrAt State.Inv (afterIhdr o d s) := by
  obtain ⟨h, herr, hmode, hsig, hstart⟩ := h
  have hcore := core_headerRegs h hmode hstart (be32At d 0) (be32At d 4) (hdrFmtOf d) ((byteAt d 12).setWidth 32)
    (crcFeed s.crc d)
  rw [afterIhdr]
  split
  next => exact inv_raise hcore _ _
  next hcheck => exact ⟨by decide, rfl, hcore, herr, hmode, hsig, hstart, acceptedHeader_of_ihdrCheck hcheck⟩

theorem meets_adpNext_inv {n : Word} (h : Core s) (herr : s.err = none) (hmode : s.mode = .decode)
    (hstage : s.dstage = .seenData) (hadp : s.adp = some n) (hn : n ≠ 0) : Meets FrAt State.Inv (adpNext n s) :=
  meets_adpNext hn (inv_raise h) (fun h0 => ⟨h, herr, hmode, hstage, hadp, hn, h0⟩)
    fun h0 hle => ⟨h, herr, hmode, hstage, hadp, hn, h0, hle⟩

theorem invRule : SegmentRule FrAt State.Inv where
  take p s i _ h := ⟨core_of_agree h.1 rfl, h.2.1, h.2.2.1, p.holds_of_agree rfl rfl rfl rfl rfl rfl rfl rfl rfl h.2.2.2⟩
  eos p s h := inv_raise h.1 _ _
  hold need got p s h hneed hsize := by
    obtain ⟨h, herr, hmode, hholds⟩ := h
    refine h.set_fr (.reading need got p) (.inl herr) (fun _ hfr => by cases hfr) ?_ fun hfr => by cases hfr
    rintro need' got' p' hfr
    cases hfr
    exact ⟨hmode, hneed, hsize, p.holds_of_agree rfl rfl rfl rfl rfl rfl rfl rfl rfl hholds⟩
  read p d s h hlen := by
    cases p with
    | sig o =>
      obtain ⟨h, herr, hmode, -, hstart⟩ := h
      have hcore := core_signed h hmode
      refine meets_ite (fun _ => meets_ite (fun _ => ?_) fun _ => hcore) fun _ => inv_raise h _ _
      exact meets_afterChunk_inv true hcore herr hmode rfl (show s.dstage ≠ .seenEnd by simp [hstart])
    | header o => exact meets_afterHeader_inv o d h
    | ihdr o => exact meets_afterIhdr_inv o d h
    | ihdrCrc o =>
      obtain ⟨h, herr, hmode, hsig, hstart, hdims⟩ := h
      refine meets_verifyChecksum (inv_raise h) (meets_afterChunk_inv o ?_ herr hmode hsig
        (show DStage.seenHeader ≠ .seenEnd by decide))
      exact core_accepted h hmode hstart hsig hdims
    | skip o left =>
      obtain ⟨h, herr, hmode, hsig, hstage⟩ := h
      have hcore : Core { s with crc := crcFeed s.crc d } := core_of_agree h rfl
      exact meets_skipNext ⟨hcore, herr, hmode, hsig, hstage⟩ fun _ => ⟨hcore, herr, hmode, hsig, hstage⟩
    | skipCrc o =>
      obtain ⟨h, herr, hmode, hsig, hstage⟩ := h
      refine meets_verifyChecksum (inv_raise h) (meets_afterChunk_inv (s := { s with frResult := 3 }) o
        (core_of_agree h rfl) herr hmode hsig ?_)
      rcases hstage with hd | hd <;> simp [hd]
    | closeDataCrc =>
      obtain ⟨h, herr, hmode, hstage⟩ := h
      exact meets_verifyChecksum (inv_raise h) ⟨by decide, rfl, h, herr, hmode, hstage⟩
    | closeHeader =>
      obtain ⟨h, herr, hmode, hstage⟩ := h
      have hcore : Core (chunkHeader d s) := core_of_agree h rfl
      exact meets_ite (fun _ => inv_raise hcore _ _) fun _ => meets_ite (fun _ => inv_raise hcore _ _) fun _ =>
        ⟨by decide, rfl, hcore, herr, hmode, hstage⟩
    | closeIendCrc =>
      obtain ⟨h, herr, hmode, hstage⟩ := h
      have hbefore : s.dstage ≠ .start := fun hstart => by simp [FrPoint.holds, hstart] at hstage
      exact meets_verifyChecksum (inv_raise h) (core_stage h hmode hbefore (.inr rfl) s.idatRemain 0)
    | adpCrc n =>
      obtain ⟨h, herr, hmode, hholds⟩ := h
      exact meets_verifyChecksum (inv_raise h) ⟨by decide, rfl, h, herr, hmode, hholds⟩
    | adpHeader n =>
      obtain ⟨h, herr, hmode, hstage, hadp, hn, -⟩ := h
      have hcore : Core { s with chunkLen := be32At d 0, chunkTag := be32At d 4 } := core_of_agree h rfl
      refine meets_ite (fun _ => inv_raise hcore _ _) fun _ =>
        meets_adpNext_inv ?_ herr hmode hstage hadp hn
      exact core_of_agree (core_adp hcore hmode s.adp (be32At d 0)) rfl
    | adpData n =>
      obtain ⟨h, -, hmode, -⟩ := h
      exact core_of_agree (t := { s with
        crc := crcFeed s.crc d, idatRemain := s.idatRemain - BitVec.ofNat 32 d.length, adp := none
        outputs := s.outputs ++ [.adpResponse d true] }) (core_adp h hmode none _) rfl

end

section
variable {s t : State}

theorem inv_readIn {k : Nat} {p : FrPoint} (h : FrAt p s) (hk : 1 ≤ k) (hsize : k = p.size s.idatRemain) :
    (readIn k p s).Inv :=
  readIn_meets invRule h hk hsize

theorem inv_exec_frSig (h : Core s) (herr : s.err = none) (hexec : exec .frSig s = .next t) : t.Inv := by
  obtain rfl := Host.Outcome.next.inj hexec
  split
  next => exact inv_raise h _ _
  next hstate =>
    obtain ⟨hmode, hsig, hstart⟩ : s.mode = .decode ∧ s.sigOk = false ∧ s.dstage = .start := by
      simpa [not_or] using hstate
    exact inv_readIn ⟨h, herr, hmode, hsig, hstart⟩ (by decide) rfl

theorem inv_exec_frStep (h : Core s) (herr : s.err = none) (hexec : exec .frStep s = .next t) : t.Inv := by
  obtain rfl := Host.Outcome.next.inj hexec
  split
  next => exact inv_raise h _ _
  next hstate =>
    rw [not_or, not_or, not_not, not_not, Bool.not_eq_false] at hstate
    obtain ⟨hmode, hsig, hstage⟩ := hstate
    exact inv_readIn ⟨h, herr, hmode, hsig, hstage⟩ (by decide) rfl

theorem inv_exec_frOpen (h : Core s) (herr : s.err = none) (hexec : exec .frOpen s = .next t) : t.Inv := by
  obtain rfl := Host.Outcome.next.inj hexec
  split
  next => exact inv_raise h _ _
  next hstate =>
    rw [not_or, not_not, not_not] at hstate
    obtain ⟨hmode, hstage⟩ := hstate
    split
    next hsig =>
      refine inv_readIn ⟨h, herr, hmode, hsig, ?_⟩ (by decide) rfl
      by_contra hstart
      exact absurd ((h.sig_first (.inl hstart)).symm.trans hsig) (by decide)
    next hsig => exact inv_readIn ⟨h, herr, hmode, by simpa using hsig, hstage⟩ (by decide) rfl

theorem inv_exec_frClose (h : Core s) (herr : s.err = none) (hexec : exec .frClose s = .next t) : t.Inv := by
  obtain rfl := Host.Outcome.next.inj hexec
  split
  next => exact inv_raise h _ _
  next hmode =>
    split
    next => exact core_of_agree (t := { s with frResult := 1 }) h rfl
    next =>
      split
      next => exact inv_raise h _ _
      next hstage =>
        have hcore : Core (s.emit .infClose) := core_of_agree h rfl
        exact inv_readIn ⟨hcore, herr, not_not.mp hmode, not_not.mp hstage⟩ (by decide) rfl

/-- The answer to the pending request, where no payload is read (R230). -/
theorem inv_respond (h : Core s) (d : List Byte) (ok : Bool) : (s.respond d ok).Inv := { h with
  fr_reading := fun _ _ _ hfr => by cases hfr }

theorem inv_exec_adpRead {n : Word} (h : Core s) (hadp : s.adp = some n) (hexec : exec (.adpRead n) s = .next t) :
    t.Inv := by
  by_cases herr : s.err.isSome = true
  · obtain rfl := Host.Outcome.next.inj ((exec_adpRead_invalid n herr).symm.trans hexec)
    exact inv_respond h [] false
  have hvalid : s.err = none := by simpa using herr
  by_cases hstate : s.mode ≠ .decode ∨ s.dstage ≠ .seenData
  · obtain rfl := Host.Outcome.next.inj ((exec_adpRead_badState n hvalid hstate).symm.trans hexec)
    exact inv_raise (s := servesAdp n s) h _ _
  obtain ⟨hmode, hstage⟩ : s.mode = .decode ∧ s.dstage = .seenData := by simpa [not_or] using hstate
  by_cases hn : n = 0
  · subst hn
    obtain rfl := Host.Outcome.next.inj ((exec_adpRead_zero hvalid hmode hstage).symm.trans hexec)
    exact inv_respond h [] true
  · obtain rfl := Host.Outcome.next.inj ((exec_adpRead_serves hvalid hmode hstage hn).symm.trans hexec)
    exact runGo_meets invRule (meets_adpNext_inv (s := servesAdp n s) h hvalid hmode hstage hadp hn)

end

end Sys2Proof.Proofs
end

section
/-! Proofs about the invariant over the encode side of FR (42_framer_encode.md). -/

namespace Sys2Proof.Proofs
open Sys2Proof.Machine Sys2Proof.Claims

theorem saturatingSucc_ne_zero (w : Word) : saturatingSucc w ≠ 0 := by
  rw [saturatingSucc_eq]
  intro h
  have hnat : min (w.toNat + 1) 0xFFFFFFFF % 2 ^ 32 = 0 := by
    rw [← BitVec.toNat_ofNat, h]
    rfl
  omega

section
variable {s t : State}

/-- A mode that is encode is not decode. -/
theorem not_decode {P : Prop} (hmode : s.mode = .encode) (hdecode : s.mode = .decode) : P :=
  absurd (hmode.symm.trans hdecode) (by decide)

/-- A data chunk of whatever is buffered was written (R262). -/
theorem core_emitIdat (h : Core s) (hmode : s.mode = .encode) (hstage : s.estage = .header) (l : List Byte) :
    Core (State.emitIdat { s with seg := l }) := { h with
  decode_side := fun hdecode => not_decode hmode hdecode
  seg_open := fun _ => ⟨(h.seg_open hstage).1, Nat.zero_lt_of_lt (h.seg_open hstage).2⟩
  seg_empty := fun _ => rfl
  flushed := fun hnum => absurd (show 3 ≤ s.estage.num from hnum) (by rw [hstage]; decide)
  fr_reading := fun _ _ _ hfr => by cases hfr }

/-- A byte of CZ was buffered, and the chunk written where that filled the buffer (R272, R273). -/
theorem core_segPush (h : Core s) (hmode : s.mode = .encode) (hstage : s.estage = .header) (b : Byte) :
    Core (s.segPush b) := by
  by_cases hfull : s.seg.length + 1 = s.segMax.toNat
  · rw [segPush_full hfull]
    exact core_emitIdat h hmode hstage _
  · rw [segPush_open hfull]
    obtain ⟨hmax, hroom⟩ := h.seg_open hstage
    have hlen : (s.seg ++ [b]).length < s.segMax.toNat := by
      rw [List.length_append, List.length_singleton]
      exact lt_of_le_of_ne hroom hfull
    exact { h with
      seg_open := fun _ => ⟨hmax, hlen⟩
      seg_empty := fun hne => absurd hstage hne
      fr_reading := fun _ _ _ hfr => by cases hfr }

/-- With a header written and every row in data chunks, the encode stage goes to `EFlushed` and `EEnd` (R273, R274). -/
theorem core_estage (h : Core s) (hmode : s.mode = .encode) (hheader : 2 ≤ s.estage.num) {e : EStage} (he : 3 ≤ e.num)
    (hseg : s.seg = []) (hcount : s.idatCount ≠ 0) (hrows : s.rowY = s.height) : Core { s with estage := e } := by
  have hne : e ≠ .start := fun h0 => by rw [h0] at he; exact absurd he (by decide)
  have hopen : e ≠ .header := fun h0 => by rw [h0] at he; exact absurd he (by decide)
  have hbefore : s.estage ≠ .start := fun h0 => by rw [h0] at hheader; exact absurd hheader (by decide)
  have heor : s.eor = false := (h.encode_side hmode).2.2
  exact { h with
    decode_side := fun hdecode => not_decode hmode hdecode
    sig_first := fun _ => h.sig_first (.inr hbefore)
    sig_encode := fun _ _ => hne
    geometry := fun _ => h.geometry (.inr hheader)
    no_geometry := fun hno => absurd (.inr (Nat.le_of_succ_le he)) hno
    eor_done := fun h1 => absurd (heor.symm.trans h1) (by decide)
    seg_open := fun h1 => absurd h1 hopen
    seg_empty := fun _ => hseg
    flushed := fun _ => ⟨hcount, hrows⟩
    fr_reading := fun _ _ _ hfr => by cases hfr
    fr_flushing := fun hfr => by cases hfr }

theorem inv_flushEnd (h : Core s) (hmode : s.mode = .encode) (hstage : s.estage = .header)
    (hrows : s.rowY = s.height) : (flushEnd s).Inv := by
  have hheader : 2 ≤ s.estage.num := by rw [hstage]; decide
  by_cases hlast : s.seg.length > 0 ∨ s.idatCount = 0
  · rw [flushEnd_emits hlast]
    have hmarked := core_estage (s := s.emitIdat) (core_emitIdat h hmode hstage s.seg) hmode hheader
      (e := .flushed) (by decide) rfl (saturatingSucc_ne_zero _) hrows
    exact core_of_agree (t := { s.emitIdat with estage := .flushed, frResult := 0 }) hmarked rfl
  · rw [flushEnd_written hlast]
    obtain ⟨hlen, hcount⟩ := not_or.mp hlast
    have hmarked := core_estage h hmode hheader (e := .flushed) (by decide)
      (List.length_eq_zero_iff.mp (by omega)) hcount hrows
    exact core_of_agree (t := { s with estage := .flushed, frResult := 0 }) hmarked rfl

theorem inv_flushLoop (q : List Byte) (h : Core s) (herr : s.err = none) (hmode : s.mode = .encode)
    (hstage : s.estage = .header) (hrows : s.rowY = s.height) : (flushLoop q s).Inv := by
  induction q generalizing s with
  | nil =>
    rw [flushLoop_nil]
    split
    · exact inv_flushEnd h hmode hstage hrows
    · exact h.set_fr .flushing (.inl herr) (fun _ hfr => by cases hfr) (fun _ _ _ hfr => by cases hfr)
        fun _ => ⟨hmode, hstage, hrows⟩
  | cons b q ih =>
    have hframe := segPush_frame { s with cz := { s.cz with q := q } } b
    have htaken : Core { s with cz := { s.cz with q := q } } := core_of_agree h rfl
    rw [flushLoop_cons]
    refine ih (core_segPush htaken hmode hstage b) ?_ ?_ ?_ ?_
    · rw [hframe]; exact herr
    · rw [hframe]; exact hmode
    · rw [hframe]; exact hstage
    · rw [hframe]; exact hrows

theorem inv_exec_fwSig (h : Core s) (hexec : exec .fwSig s = .next t) : t.Inv := by
  by_cases hstate : s.mode ≠ .encode ∨ s.estage ≠ .start
  · obtain rfl := Host.Outcome.next.inj ((exec_fwSig_badState hstate).symm.trans hexec)
    exact inv_raise h _ _
  obtain ⟨hmode, hstage⟩ : s.mode = .encode ∧ s.estage = .start := by simpa [not_or] using hstate
  obtain rfl := Host.Outcome.next.inj ((exec_fwSig_writes hmode hstage).symm.trans hexec)
  obtain ⟨hdstage, -, heor⟩ : s.dstage = .start ∧ s.idatRemain = 0 ∧ s.eor = false := h.encode_side hmode
  have hnum : s.estage.num ≤ 1 := by rw [hstage]; decide
  have hbefore : ¬ s.hasHeader := not_hasHeader_of_encode (s := { s with fr := .idle }) h hmode hnum
  have hafter : ¬ (s.dstage ≠ .start ∨ 2 ≤ EStage.sig.num) := by simp [hdstage, EStage.num]
  exact { h with
    decode_side := fun hdecode => not_decode hmode hdecode
    sig_first := fun _ => rfl
    sig_encode := fun _ _ => show EStage.sig ≠ .start by decide
    geometry := fun hheader => absurd hheader hafter
    no_geometry := fun _ => h.no_geometry hbefore
    eor_done := fun h1 => absurd (heor.symm.trans h1) (by decide)
    seg_open := fun h1 => absurd h1 (show EStage.sig ≠ .header by decide)
    seg_empty := fun _ => h.seg_empty (show s.estage ≠ .header by simp [hstage])
    flushed := fun hnum => absurd hnum (show ¬ 3 ≤ EStage.sig.num by decide)
    fr_reading := fun _ _ _ hfr => by cases hfr
    fr_flushing := fun hfr => by cases hfr }

theorem inv_writeHeader (h : Core s) (hmode : s.mode = .encode) (hstage : s.estage = .sig)
    (hcheck : encodeCheck s.params s.width s.height = none) : (writeHeader s).Inv := by
  obtain ⟨-, -, heor⟩ := h.encode_side hmode
  have hheader : (writeHeader s).hasHeader := .inr (show 2 ≤ EStage.header.num by decide)
  exact { h with
    mem_wf := Memory.wf_zeroBoth h.mem_wf _
    decode_side := fun hdecode => not_decode hmode hdecode
    sig_first := fun _ => h.sig_first (.inr (show s.estage ≠ .start by simp [hstage]))
    sig_encode := fun _ _ => show EStage.header ≠ .start by decide
    geometry := fun _ => ⟨acceptedHeader_of_encodeCheck hcheck, rfl, Nat.zero_le _, le_max_right _ _, le_max_right _ _⟩
    no_geometry := fun hno => absurd hheader hno
    eor_done := fun h1 => absurd (heor.symm.trans h1) (by decide)
    seg_open := fun _ => ⟨h.idatMax_legal.2, h.idatMax_legal.1⟩
    seg_empty := fun hne => absurd rfl hne
    flushed := fun hnum => absurd hnum (show ¬ 3 ≤ EStage.header.num by decide)
    fr_reading := fun _ _ _ hfr => by cases hfr
    fr_flushing := fun hfr => by cases hfr
    fe_row := fun n k hfe => not_decode hmode (h.fe_row n k hfe).1 }

theorem inv_exec_fwIhdr (h : Core s) (hexec : exec .fwIhdr s = .next t) : t.Inv := by
  by_cases hstate : s.mode ≠ .encode ∨ s.estage ≠ .sig
  · obtain rfl := Host.Outcome.next.inj ((exec_fwIhdr_badState hstate).symm.trans hexec)
    exact inv_raise h _ _
  obtain ⟨hmode, hstage⟩ : s.mode = .encode ∧ s.estage = .sig := by simpa [not_or] using hstate
  cases hcheck : encodeCheck s.params s.width s.height with
  | some e =>
    obtain rfl := Host.Outcome.next.inj ((exec_fwIhdr_raises hmode hstage hcheck).symm.trans hexec)
    exact inv_raise h _ _
  | none =>
    obtain rfl := Host.Outcome.next.inj ((exec_fwIhdr_writes hmode hstage hcheck).symm.trans hexec)
    exact inv_writeHeader h hmode hstage hcheck

theorem inv_exec_fwFlush (h : Core s) (herr : s.err = none) (hexec : exec .fwFlush s = .next t) : t.Inv := by
  by_cases hstate : s.mode ≠ .encode ∨ s.estage ≠ .header ∨ s.rowY ≠ s.height
  · obtain rfl := Host.Outcome.next.inj ((exec_fwFlush_badState hstate).symm.trans hexec)
    exact inv_raise h _ _
  obtain ⟨hmode, hstage, hrows⟩ : s.mode = .encode ∧ s.estage = .header ∧ s.rowY = s.height := by
    simpa [not_or] using hstate
  obtain rfl := Host.Outcome.next.inj ((exec_fwFlush_flushes hmode hstage hrows).symm.trans hexec)
  have hcore : Core (s.emit .defClose) := core_of_agree h rfl
  exact inv_flushLoop s.cz.q hcore herr hmode hstage hrows

theorem inv_chunkEnded (h : Core s) (hmode : s.mode = .encode) (hstage : s.estage = .flushed)
    (tag payload : List Byte) : ({ s.writeChunk tag payload with estage := .ended }.frDone 0).Inv := by
  obtain ⟨hcount, hrows⟩ := h.flushed (show 3 ≤ s.estage.num by rw [hstage]; decide)
  have hended := core_estage h hmode (by rw [hstage]; decide) (e := .ended) (by decide)
    (h.seg_empty (show s.estage ≠ .header by simp [hstage])) hcount hrows
  exact core_of_agree (t := { s.writeChunk tag payload with estage := .ended, frResult := 0 }) hended rfl

theorem inv_exec_fwIend (h : Core s) (hexec : exec .fwIend s = .next t) : t.Inv := by
  by_cases hstate : s.mode ≠ .encode ∨ s.estage ≠ .flushed
  · obtain rfl := Host.Outcome.next.inj ((exec_fwIend_badState hstate).symm.trans hexec)
    exact inv_raise h _ _
  obtain ⟨hmode, hstage⟩ : s.mode = .encode ∧ s.estage = .flushed := by simpa [not_or] using hstate
  obtain rfl := Host.Outcome.next.inj ((exec_fwIend_writes hmode hstage).symm.trans hexec)
  exact inv_chunkEnded h hmode hstage tagIend []

/-! ### FR's steps -/

theorem inv_exec_fr {i : Instr} (h : Core s) (herr : s.err = none) (htarget : i.target = .fr) (hport : i.port = .cmd)
    (hexec : exec i s = .next t) : t.Inv := by
  cases i with
  | nop => simp at htarget
  | sessionReset m => simp at htarget
  | feRecon => simp at htarget
  | feApply f => simp at htarget
  | adpRead n => cases hport
  | crcInit =>
    obtain rfl := Host.Outcome.next.inj hexec
    exact core_of_agree (t := { s with crc := crcStart, frResult := 0 }) h rfl
  | crcByte b =>
    obtain rfl := Host.Outcome.next.inj hexec
    exact core_of_agree (t := { s with crc := crcFeedByte s.crc b, frResult := 0 }) h rfl
  | frSig => exact inv_exec_frSig h herr hexec
  | frStep => exact inv_exec_frStep h herr hexec
  | frOpen => exact inv_exec_frOpen h herr hexec
  | frClose => exact inv_exec_frClose h herr hexec
  | fwSig => exact inv_exec_fwSig h hexec
  | fwIhdr => exact inv_exec_fwIhdr h hexec
  | fwFlush => exact inv_exec_fwFlush h herr hexec
  | fwIend => exact inv_exec_fwIend h hexec

/-- A busy agent's session is valid (R401, R403). -/
theorem err_none_of_busy (h : s.Inv) (hbusy : s.fr ≠ .idle ∨ s.fe ≠ .idle) : s.err = none := by
  by_contra herr
  obtain ⟨hfr, hfe⟩ := h.invalid_idle (Option.isSome_iff_ne_none.mpr herr)
  exact hbusy.elim (· hfr) (· hfe)

theorem inv_frRun (h : s.Inv) (hrun : frRun s = .next t) : t.Inv := by
  have hcore := core_of_inv h
  cases hfr : s.fr with
  | idle =>
    have hsame : frRun s = .next s := by simp only [frRun, hfr]
    exact Host.Outcome.next.inj (hsame.symm.trans hrun) ▸ h
  | accepted i =>
    obtain ⟨htarget, hport⟩ := h.fr_own i hfr
    exact inv_exec_fr hcore (err_none_of_busy h (.inl (by simp [hfr]))) htarget hport
      ((frRun_accepted hfr).symm.trans hrun)
  | reading need got p =>
    obtain ⟨hmode, hneed, hsize, hholds⟩ := h.fr_reading need got p hfr
    obtain rfl := Host.Outcome.next.inj ((perform_frRun_reading hfr).symm.trans hrun)
    exact readLoop_meets invRule ⟨hcore, err_none_of_busy h (.inl (by simp [hfr])), hmode, hholds⟩ hneed hsize
  | flushing =>
    obtain ⟨hmode, hstage, hrows⟩ := h.fr_flushing hfr
    obtain rfl := Host.Outcome.next.inj ((perform_frRun_flushing hfr).symm.trans hrun)
    exact inv_flushLoop s.cz.q hcore (err_none_of_busy h (.inl (by simp [hfr]))) hmode hstage hrows

theorem inv_frServe (h : s.Inv) (hserve : frServe s = .next t) : t.Inv := by
  rcases frServe_eq s with hsame | ⟨n, -, hadp, hexec⟩
  · exact Host.Outcome.next.inj (hsame.symm.trans hserve) ▸ h
  · exact inv_exec_adpRead (core_of_inv h) hadp (hexec.symm.trans hserve)

theorem inv_segmenterStep (h : s.Inv) : (segmenterStep s).Inv := by
  by_cases hon : s.segmenterEnabled = true
  · obtain ⟨hfr, hmode, hstage, -, hne⟩ := (segmenterEnabled_iff s).mp hon
    obtain ⟨b, q, hq⟩ := List.exists_cons_of_ne_nil hne
    have htaken : Core { s with cz := { s.cz with q := q } } := core_of_agree (core_of_inv h) rfl
    have hpushed := core_segPush htaken hmode hstage b
    have hidle : { State.segPush { s with cz := { s.cz with q := q } } b with fr := .idle } =
        State.segPush { s with cz := { s.cz with q := q } } b := by
      rw [segPush_frame, ← hfr]
    rw [segmenterStep_enabled hon hq]
    exact hidle ▸ hpushed
  · rwa [segmenterStep_disabled hon]

end

end Sys2Proof.Proofs
end

section
/-! Proofs about the invariant over the steps of FE (43_filter.md) and of the outside (20_memory.md R104, R110, R111). -/

namespace Sys2Proof.Proofs
open Sys2Proof.Machine Sys2Proof.Claims

/-- What the invariant says of FR's holds is about these fields. -/
def frHolds (s : State) :
    FrActivity × Mode × Bool × DStage × Option Word × Word × Config.Params × Word × Word × Word × Word :=
  (s.fr, s.mode, s.sigOk, s.dstage, s.adp, s.idatRemain, s.params, s.width, s.height, s.hdrFmt, s.hdrIl)

section
variable {s t : State}

theorem reading_of_same (h : s.Inv) (hsame : frHolds t = frHolds s) (need : Nat) (got : List Byte) (p : FrPoint)
    (hfr : t.fr = .reading need got p) :
    t.mode = .decode ∧ 1 ≤ need ∧ need + got.length = p.size t.idatRemain ∧ p.holds t := by
  simp only [frHolds, Prod.mk.injEq] at hsame
  obtain ⟨h0, hmode, h1, h2, h3, h4, h5, h6, h7, h8, h9⟩ := hsame
  obtain ⟨hdecode, hneed, hsize, hholds⟩ := h.fr_reading need got p (h0.symm.trans hfr)
  exact ⟨hmode.trans hdecode, hneed, by rw [h4, hsize], p.holds_of_agree h1 h2 h3 h4 h5 h6 h7 h8 h9 hholds⟩

/-- FE's record may change to one that meets its own clauses of the invariant. -/
theorem inv_set_fe (h : s.Inv) (f : FeActivity) (h0 : s.err = none ∨ f = .idle)
    (h1 : ∀ i, f = .accepted i → i.target = .fe ∧ i.wellFormed = true)
    (h2 : ∀ n k, f = .row n k → s.mode = .decode ∧ (s.dstage = .seenData ∨ s.dstage = .seenEnd) ∧
      n = s.rowSize.toNat ∧ k < n ∧ s.rowY.toNat < s.height.toNat) : ({ s with fe := f } : State).Inv := { h with
  invalid_idle := fun herr => by
    rcases h0 with hnone | hidle
    · exact absurd (show s.err.isSome = true from herr) (by simp [hnone])
    · exact ⟨(h.invalid_idle herr).1, hidle⟩
  fe_own := h1
  fr_reading := reading_of_same h rfl
  fe_row := h2 }

/-- Bytes of a bank may change, below what a header zeroed or not. -/
theorem inv_set_mem (h : s.Inv) (m : Memory) (z : Fifo) (hwf : m.wf = true)
    (h0 : m.bank0.zeroed = s.mem.bank0.zeroed) (h1 : m.bank1.zeroed = s.mem.bank1.zeroed) :
    ({ s with zin := z, mem := m } : State).Inv := { h with
  mem_wf := hwf
  geometry := fun hheader => by
    obtain ⟨hdims, hsize, hrow, hz0, hz1⟩ := h.geometry hheader
    exact ⟨hdims, hsize, hrow, hz0.trans h0.ge, hz1.trans h1.ge⟩
  fr_reading := reading_of_same h rfl }

theorem inv_writeBytes (h : s.Inv) (z : Fifo) (sel : Bool) (i : Nat) (d : List Byte) :
    ({ s with zin := z, mem := s.mem.writeBytes sel i d } : State).Inv :=
  inv_set_mem h _ z (Memory.wf_writeBytes d h.mem_wf sel i) (Memory.writeBytes_zeroed0 ..) (Memory.writeBytes_zeroed1 ..)

theorem inv_writeByte (h : s.Inv) (sel : Bool) (i : Nat) (b : Byte) :
    ({ s with mem := s.mem.writeByte sel i b } : State).Inv :=
  inv_set_mem h _ s.zin (Memory.wf_writeByte h.mem_wf sel i b) (Memory.writeByte_zeroed0 ..) (Memory.writeByte_zeroed1 ..)

/-- One row was delivered or filtered (R310, R311). -/
theorem inv_rowDone (h : s.Inv) (hheader : s.hasHeader) (hstage : s.estage.num ≤ 2)
    (hrow : s.rowY.toNat < s.height.toNat) : s.rowDone.Inv := by
  have hne : s.rowY ≠ s.height := fun heq => absurd hrow (by rw [heq]; exact lt_irrefl _)
  have hnext : (s.rowY + 1).toNat ≤ s.height.toNat := by
    have hlt := s.height.isLt
    rw [BitVec.toNat_add, show (1 : Word).toNat = 1 from rfl, Nat.mod_eq_of_lt (by omega)]
    exact hrow
  obtain ⟨hdims, hsize, -, hz0, hz1⟩ := h.geometry hheader
  exact { h with
    invalid_idle := fun herr => ⟨(h.invalid_idle herr).1, rfl⟩
    fe_own := fun _ hfe => by cases hfe
    geometry := fun _ => ⟨hdims, hsize, hnext, hz0, hz1⟩
    no_geometry := fun hno => absurd hheader hno
    eor_done := fun heor => absurd (h.eor_done heor).2 hne
    flushed := fun hnum => absurd (show 3 ≤ s.estage.num from hnum) (by omega)
    fr_reading := reading_of_same h rfl
    fr_flushing := fun hfr => absurd (h.fr_flushing hfr).2.2 hne
    fe_row := fun _ _ hfe => by cases hfe }

/-- The end of the rows (R310). -/
theorem inv_endOfRows (h : s.Inv) (hmode : s.mode = .decode) (hbefore : s.dstage ≠ .start)
    (hrow : s.height.toNat ≤ s.rowY.toNat) :
    ({ s with eor := true, feResult := 1, fe := .idle } : State).Inv := by
  obtain ⟨-, -, hle, -⟩ := h.geometry (.inl hbefore)
  exact { h with
    invalid_idle := fun herr => ⟨(h.invalid_idle herr).1, rfl⟩
    encode_side := fun hencode => not_decode hencode hmode
    fe_own := fun _ hfe => by cases hfe
    eor_done := fun _ => ⟨.inl hbefore, BitVec.eq_of_toNat_eq (le_antisymm hle hrow)⟩
    fr_reading := reading_of_same h rfl
    fe_row := fun _ _ hfe => by cases hfe }

theorem inv_of_rowMoves {n k : Nat} (h : s.Inv) (herr : s.err = none) (hmode : s.mode = .decode)
    (hstage : s.dstage = .seenData ∨ s.dstage = .seenEnd) (hn : n = s.rowSize.toNat)
    (hrow : s.rowY.toNat < s.height.toNat) (hmoves : RowMoves n k s t) : t.Inv := by
  obtain ⟨z, d, u, -, -, rfl, hends⟩ := hmoves
  have hbytes := inv_writeBytes h z s.bufSel k d
  rcases hends with ⟨r, info, rfl⟩ | ⟨hk, rfl⟩ | ⟨row, -, rfl⟩
  · exact inv_raise (core_of_inv hbytes) _ _
  · refine inv_set_fe hbytes _ (.inl herr) (fun _ hfe => by cases hfe) ?_
    rintro n' k' hfe
    cases hfe
    exact ⟨hmode, hstage, hn, hk, hrow⟩
  · have hheader : s.hasHeader := .inl (by rcases hstage with hd | hd <;> simp [hd])
    have hnum : s.estage.num ≤ 2 := by rw [(h.decode_side hmode).1]; decide
    exact inv_rowDone (inv_writeBytes hbytes z s.bufSel 1 row) hheader hnum hrow

theorem inv_feRun (h : s.Inv) (hrun : feRun s = .next t) : t.Inv := by
  cases hfe : s.fe with
  | idle =>
    have hsame : feRun s = .next s := by simp only [feRun, hfe]
    exact Host.Outcome.next.inj (hsame.symm.trans hrun) ▸ h
  | row n k =>
    obtain ⟨hmode, hstage, hn, hk, hrow⟩ := h.fe_row n k hfe
    have hloop : feRun s = .next (rowLoop s.zin.q n k s) := by simp only [feRun, hfe]
    obtain rfl := Host.Outcome.next.inj (hloop.symm.trans hrun)
    exact inv_of_rowMoves h (err_none_of_busy h (.inr (by simp [hfe]))) hmode hstage hn hrow (rowLoop_moves hk.le s)
  | accepted i =>
    have hexec := (feRun_accepted hfe).symm.trans hrun
    obtain ⟨htarget, -⟩ := h.fe_own i hfe
    cases i with
    | feRecon =>
      rcases exec_feRecon_moves hexec with ⟨r, info, rfl⟩ | ⟨hmode, hbefore, hrow, rfl⟩ | ⟨hmode, hdata, hrow, hmoves⟩
      · exact inv_raise (core_of_inv h) _ _
      · exact inv_endOfRows h hmode hbefore hrow
      · exact inv_of_rowMoves h (err_none_of_busy h (.inr (by simp [hfe]))) hmode (.inl hdata) rfl hrow hmoves
    | feApply f =>
      rcases exec_feApply_moves hexec with ⟨r, info, rfl⟩ | ⟨-, hstage, hrow, row, tag, rfl⟩
      · exact inv_raise (core_of_inv h) _ _
      · have hout : ({ s with zout := ⟨row, s.zout.eos⟩, mem := s.mem.writeByte s.bufSel 0 tag } : State).Inv :=
          (inv_writeByte h s.bufSel 0 tag).of_agree rfl
        have hnum : s.estage.num ≤ 2 := by rw [hstage]; decide
        exact inv_rowDone hout (.inr (show 2 ≤ s.estage.num by rw [hstage]; decide)) hnum hrow
    | _ => simp at htarget

/-! ### The steps of the outside -/

theorem inv_issues {w : Word} (h : s.Inv) (hissues : Issues w s t) : t.Inv := by
  cases hissues with
  | nothing => exact h
  | reset m => exact sessionReset_inv m h.mem_wf h.params_legal h.idatMax_legal h.level_legal
  | raises r => exact inv_raise (core_of_inv h) _ _
  | frAccepts i hvalid htarget hport =>
    refine h.set_fr _ (.inl hvalid) ?_ (fun _ _ _ hfr => by cases hfr) fun hfr => by cases hfr
    rintro j hj
    cases hj
    exact ⟨htarget, hport⟩
  | feAccepts i hvalid htarget hwf =>
    refine inv_set_fe h _ (.inl hvalid) ?_ fun _ _ hfe => by cases hfe
    rintro j hj
    cases hj
    exact ⟨htarget, hwf⟩

/-- The host may set the dimensions before FW_IHDR only (R42): no header, no rows. -/
theorem inv_set_dims (h : s.Inv) (hdims : s.dimsWritable = true) (w ht : Word) :
    ({ s with width := w, height := ht } : State).Inv := by
  obtain ⟨hmode, hstage⟩ := (dimsWritable_iff s).mp hdims
  have hnum : s.estage.num ≤ 1 := by rcases hstage with hd | hd <;> rw [hd] <;> decide
  have hno : ¬ s.hasHeader := not_hasHeader_of_encode h hmode hnum
  exact { h with
    geometry := fun hheader => absurd hheader hno
    eor_done := fun heor => absurd (h.eor_done heor).1 hno
    flushed := fun h3 => absurd (show 3 ≤ s.estage.num from h3) (by omega)
    fr_reading := fun need got p hfr => not_decode hmode (h.fr_reading need got p hfr).1
    fr_flushing := fun hfr => by
      have hheader := (h.fr_flushing hfr).2.1
      rw [hheader] at hnum
      exact absurd hnum (by decide)
    fe_row := fun n k hfe => not_decode hmode (h.fe_row n k hfe).1 }

theorem inv_regStore (h : s.Inv) (r : Reg) (w : Word) : (regStore r w s).Inv := by
  cases r with
  | width =>
    rw [regStore]
    split
    next hdims => exact inv_set_dims h hdims w s.height
    next => exact h
  | height =>
    rw [regStore]
    split
    next hdims => exact inv_set_dims h hdims s.width w
    next => exact h
  | idatMax =>
    rw [regStore]
    split
    next hlegal => exact { h with idatMax_legal := hlegal, fr_reading := reading_of_same h rfl }
    next => exact h
  | level =>
    rw [regStore]
    split
    next => exact h
    next hlegal => exact { h with level_legal := hlegal, fr_reading := reading_of_same h rfl }
  | irqEn => exact h.of_agree rfl
  | _ => exact h

/-- A request becomes pending only where none is, so FR serves none (R104, R230). -/
theorem inv_adpRequest (h : s.Inv) (n : Word) : (adpRequest n s).Inv := by
  by_cases hnone : s.adp = none
  · have hpending : adpRequest n s = { s with adp := some n } := if_pos (by simp [hnone])
    rw [hpending]
    refine { h with fr_reading := fun need got p hfr => ?_ }
    obtain ⟨hmode, hneed, hsize, hholds⟩ := h.fr_reading need got p hfr
    refine ⟨hmode, hneed, hsize, ?_⟩
    cases p with
    | adpCrc m => exact absurd (hnone.symm.trans hholds.2.1) (by simp)
    | adpHeader m => exact absurd (hnone.symm.trans hholds.2.1) (by simp)
    | adpData m => exact absurd (hnone.symm.trans hholds.2.1) (by simp)
    | _ => exact hholds
  · have hsame : adpRequest n s = s := if_neg (by simpa using hnone)
    rwa [hsame]

theorem inv_rowWrite (h : s.Inv) (v : View) (i : BitVec 34) (b : Byte) : (rowWrite v i b s).Inv := by
  rcases rowWrite_cases v i b s with hw | ⟨r, info, hw⟩ | hw
  · rwa [hw]
  · rw [hw]
    exact inv_raise (core_of_inv h) r info
  · rw [hw]
    exact inv_writeByte h (s.viewBank v) i.toNat b

theorem inv_regWrite {idx : BitVec 10} {w : Word} (h : s.Inv) (hwrite : regWrite idx w s = .next t) : t.Inv := by
  rcases regWrite_cases hwrite with rfl | ⟨-, hissues⟩ | ⟨r, rfl⟩
  · exact h
  · exact inv_issues h hissues
  · exact inv_regStore h r w

theorem perform_inv {e : Event} (h : s.Inv) (hperform : perform e s = .next t) : t.Inv := by
  cases e with
  | regWrite idx w => exact inv_regWrite h hperform
  | rowWrite v i b => exact Host.Outcome.next.inj hperform ▸ inv_rowWrite h v i b
  | request n => exact Host.Outcome.next.inj hperform ▸ inv_adpRequest h n
  | takeOut =>
    obtain rfl := Host.Outcome.next.inj hperform
    rw [takeOut_frame s]
    exact h.of_agree rfl
  | takeZout =>
    obtain rfl := Host.Outcome.next.inj hperform
    rw [takeZout_frame s]
    exact h.of_agree rfl
  | frRun => exact inv_frRun h hperform
  | frServe => exact inv_frServe h hperform
  | frSegment => exact Host.Outcome.next.inj hperform ▸ inv_segmenterStep h
  | feRun => exact inv_feRun h hperform
  | powerOn => exact Host.Outcome.next.inj hperform ▸ powerOnReset_inv h.params_legal
  | _ => exact Host.Outcome.next.inj hperform ▸ h.of_agree rfl

end

/-- Settles O52: by the event the step performs. -/
theorem stepKeepsTheInvariant : Obligations.StepKeepsTheInvariant := by
  intro s t hinv hstep
  cases hsched : s.sched with
  | nil =>
    have hsame : step s = .next s := by rw [step, hsched]
    exact Host.Outcome.next.inj (hsame.symm.trans hstep) ▸ hinv
  | cons e rest => exact perform_inv (inv_sched hinv rest) ((step_of_sched hsched).symm.trans hstep)

end Sys2Proof.Proofs
end
